-- ==== Sys2Proof/Word.lean ====
section
/-! DEFINITION. The word and byte types of jdsp-core (rules R9, R10, R11). -/

namespace Sys2Proof

/-- A 32-bit word: a register, a command word, or the pattern of one `Sample` (rules R9, R11). -/
abbrev Word := BitVec 32

/-- One byte of the byte view of the register space (rule R65). -/
abbrev Byte := BitVec 8

end Sys2Proof
end

