-- ==== Sys2Proof/Syntax.lean ====
section
/-! DEFINITION. The ten commands of jdsp-core and their operands (rules R93 to R95, R97). -/

namespace Sys2Proof

/-- The direction of a ring buffer: field `d` (rule R93), 0 = U, 1 = D. -/
inductive Dir where
  | up
  | down
deriving DecidableEq, Repr

/-- A polyphase branch: fields `b` and `tb` (rule R93), 0 = E, 1 = O. -/
inductive Branch where
  | even
  | odd
deriving DecidableEq, Repr

/-- The variant of the waveshaper (rule R210): 0 `SOFT`, 1 `TANH`, 2 `DIODE`, 3 `IDENT`. -/
inductive Variant where
  | soft
  | tanh
  | diode
  | ident
deriving DecidableEq, Repr

/-- The number of a vector register V0..V15: fields `va`, `vd` (rule R93). -/
abbrev VReg := BitVec 4

/-- A stage index 0..3: field `s` (rule R93). -/
abbrev StageIx := BitVec 2

/-- The ten commands, one constructor for each row of spec/opcode_table.json (rule R95). -/
inductive Instr where
  /-- `SETF imm8` (rule R181) -/
  | setf (imm8 : Byte)
  /-- `SHINIT v` (rule R211) -/
  | shinit (v : Variant)
  /-- `PUSH buf, Va` with buf = (d, s, b) (rule R147) -/
  | push (d : Dir) (st : StageIx) (b : Branch) (va : VReg)
  /-- `CONV Vd, buf, tb` (rule R148) -/
  | conv (d : Dir) (st : StageIx) (b tb : Branch) (vd : VReg)
  /-- `STUP s, Vd, Va` (rule R166) -/
  | stup (st : StageIx) (vd va : VReg)
  /-- `STDN s, Vd, Va` (rule R167) -/
  | stdn (st : StageIx) (vd va : VReg)
  /-- `UPS` (rule R187) -/
  | ups
  /-- `DNS` (rule R188) -/
  | dns
  /-- `SHP Vd, Va` (rule R214) -/
  | shp (vd va : VReg)
  /-- `PROC` (rule R230) -/
  | proc
deriving DecidableEq, Repr

end Sys2Proof
end

