-- ==== Sys2Proof/WellFormed.lean ====
section
/-! DEFINITION. Which commands a word can spell: the register pair of `STUP` and `STDN` must not run past V15 (rule R91 step 4). -/

namespace Sys2Proof

/-- Every operand value is encodable but for the two pairs that step 4 of rule R91 refuses. -/
def Instr.wellFormed : Instr → Bool
  | .setf _ => true
  | .shinit _ => true
  | .push _ _ _ _ => true
  | .conv _ _ _ _ _ => true
  | .stup _ vd _ => vd != 15#4
  | .stdn _ _ va => va != 15#4
  | .ups => true
  | .dns => true
  | .shp _ _ => true
  | .proc => true

end Sys2Proof
end

