-- ==== Sys2Proof/Decode.lean ====
section
/-! DEFINITION. The decoder (rules R90, R91, R93, R94, R96), the encoder (rules R93, R97) and the opcode map (rule R95). -/

namespace Sys2Proof

/-- The ten defined opcodes (rule R95). -/
inductive Opcode where
  | setf | shinit | push | conv | stup | stdn | ups | dns | shp | proc
deriving DecidableEq, Repr

/-- The six formats (rule R93). -/
inductive Format where
  | z | i | p | c | s | r
deriving DecidableEq, Repr

/-- Why a word spells no command: steps 2, 3 and 4 of rule R91. All three end in `IllegalCommand`. -/
inductive DecodeError where
  /-- step 2: the opcode field is none of the ten -/
  | unknownOpcode (op : Byte)
  /-- step 3: these must-be-zero bits of the word are 1 -/
  | mustBeZero (bits : Word)
  /-- step 4: the register pair would run past V15 -/
  | pairPastV15
deriving DecidableEq, Repr

/-- `op = w[31:24]` (rule R93). -/
def opField (w : Word) : Byte := w.extractLsb' 24 8

/-- The opcode a byte names, if any (rule R95). -/
def opcodeOf (op : Byte) : Option Opcode :=
  if op = 0x01#8 then some .setf
  else if op = 0x02#8 then some .shinit
  else if op = 0x10#8 then some .push
  else if op = 0x11#8 then some .conv
  else if op = 0x12#8 then some .stup
  else if op = 0x13#8 then some .stdn
  else if op = 0x20#8 then some .ups
  else if op = 0x21#8 then some .dns
  else if op = 0x22#8 then some .shp
  else if op = 0x23#8 then some .proc
  else none

/-- The opcode byte of each command (rule R95). -/
def Opcode.code : Opcode → Byte
  | .setf => 0x01#8
  | .shinit => 0x02#8
  | .push => 0x10#8
  | .conv => 0x11#8
  | .stup => 0x12#8
  | .stdn => 0x13#8
  | .ups => 0x20#8
  | .dns => 0x21#8
  | .shp => 0x22#8
  | .proc => 0x23#8

/-- The format of each command (rule R95). -/
def Opcode.format : Opcode → Format
  | .setf => .i
  | .shinit => .i
  | .push => .p
  | .conv => .c
  | .stup => .s
  | .stdn => .s
  | .ups => .z
  | .dns => .z
  | .shp => .r
  | .proc => .z

/-- The bits of `w[23:0]` that a format names (rule R93). -/
def Format.named : Format → Word
  | .z => 0x00000000#32
  | .i => 0x000000FF#32
  | .p => 0x00F0000F#32
  | .c => 0x00F80F00#32
  | .s => 0x00600F0F#32
  | .r => 0x00000F0F#32

/-- The bits that must be zero: all of 23:0 that the format does not name, and for `SHINIT` also
`imm8[7:2]` (rules R93, R94). -/
def Opcode.mustBeZero (o : Opcode) : Word :=
  let unnamed := 0x00FFFFFF#32 &&& ~~~o.format.named
  match o with
  | .shinit => unnamed ||| 0x000000FC#32
  | .setf | .push | .conv | .stup | .stdn | .ups | .dns | .shp | .proc => unnamed

/-- Field `d`, bit 23: 0 = U, 1 = D (rule R93). -/
def dirField (w : Word) : Dir := if w.getLsbD 23 then .down else .up
/-- Field `s`, bits 22:21 (rule R93). -/
def stageField (w : Word) : StageIx := w.extractLsb' 21 2
/-- Field `b`, bit 20: 0 = E, 1 = O (rule R93). -/
def branchField (w : Word) : Branch := if w.getLsbD 20 then .odd else .even
/-- Field `tb`, bit 19: 0 = `etaps`, 1 = `otaps` (rule R93). -/
def tapBranchField (w : Word) : Branch := if w.getLsbD 19 then .odd else .even
/-- Field `vd`, bits 11:8 (rule R93). -/
def vdField (w : Word) : VReg := w.extractLsb' 8 4
/-- Field `va`, bits 3:0 (rule R93). -/
def vaField (w : Word) : VReg := w.extractLsb' 0 4
/-- Field `imm8`, bits 7:0 (rules R93, R94). -/
def immField (w : Word) : Byte := w.extractLsb' 0 8

/-- The variant that two bits name (rule R210). -/
def variantOf (v : BitVec 2) : Variant :=
  if v = 0#2 then .soft else if v = 1#2 then .tanh else if v = 2#2 then .diode else .ident

/-- The operands of a command, once its opcode is known and its must-be-zero bits are zero; step 4 of
rule R91 refuses the two pairs that run past V15. -/
def operands (w : Word) : Opcode → Except DecodeError Instr
  | .setf => .ok (.setf (immField w))
  | .shinit => .ok (.shinit (variantOf (w.extractLsb' 0 2)))
  | .push => .ok (.push (dirField w) (stageField w) (branchField w) (vaField w))
  | .conv => .ok (.conv (dirField w) (stageField w) (branchField w) (tapBranchField w) (vdField w))
  | .stup =>
    if vdField w = 15#4 then .error .pairPastV15
    else .ok (.stup (stageField w) (vdField w) (vaField w))
  | .stdn =>
    if vaField w = 15#4 then .error .pairPastV15
    else .ok (.stdn (stageField w) (vdField w) (vaField w))
  | .ups => .ok .ups
  | .dns => .ok .dns
  | .shp => .ok (.shp (vdField w) (vaField w))
  | .proc => .ok .proc

/-- The decoder: total on all 2^32 words, steps 2 to 4 of rule R91 in their order. -/
def decode (w : Word) : Except DecodeError Instr :=
  match opcodeOf (opField w) with
  | none => .error (.unknownOpcode (opField w))
  | some o =>
    if w &&& o.mustBeZero = 0#32 then operands w o
    else .error (.mustBeZero (w &&& o.mustBeZero))

/-- The one bit of a direction (rule R97: 0 for U, 1 for D). -/
def Dir.bit : Dir → BitVec 1
  | .up => 0#1
  | .down => 1#1

/-- The one bit of a branch (rule R97: 0 for E, 1 for O). -/
def Branch.bit : Branch → BitVec 1
  | .even => 0#1
  | .odd => 1#1

/-- The two bits of a variant (rule R210). -/
def Variant.code : Variant → BitVec 2
  | .soft => 0#2
  | .tanh => 1#2
  | .diode => 2#2
  | .ident => 3#2

/-- The word of a command: the layouts of rule R93, bit 31 on the left. -/
def encode : Instr → Word
  | .setf imm8 => 0x01#8 ++ 0#16 ++ imm8
  | .shinit v => 0x02#8 ++ 0#16 ++ (0#6 ++ v.code)
  | .push d st b va => 0x10#8 ++ d.bit ++ st ++ b.bit ++ 0#16 ++ va
  | .conv d st b tb vd => 0x11#8 ++ d.bit ++ st ++ b.bit ++ tb.bit ++ 0#7 ++ vd ++ 0#8
  | .stup st vd va => 0x12#8 ++ 0#1 ++ st ++ 0#9 ++ vd ++ 0#4 ++ va
  | .stdn st vd va => 0x13#8 ++ 0#1 ++ st ++ 0#9 ++ vd ++ 0#4 ++ va
  | .ups => 0x20#8 ++ 0#24
  | .dns => 0x21#8 ++ 0#24
  | .shp vd va => 0x22#8 ++ 0#12 ++ vd ++ 0#4 ++ va
  | .proc => 0x23#8 ++ 0#24

/-- One row of the opcode map (rule R95; spec/opcode_table.json). -/
structure OpcodeRow where
  opcode : Opcode
  pattern : Word
  mask : Word
deriving DecidableEq, Repr

/-- The `match` and `mask` columns of rule R95, as that rule prints them. -/
def opcodeMap : List OpcodeRow :=
  [ { opcode := .setf, pattern := 0x01000000#32, mask := 0xFFFFFF00#32 },
    { opcode := .shinit, pattern := 0x02000000#32, mask := 0xFFFFFFFC#32 },
    { opcode := .push, pattern := 0x10000000#32, mask := 0xFF0FFFF0#32 },
    { opcode := .conv, pattern := 0x11000000#32, mask := 0xFF07F0FF#32 },
    { opcode := .stup, pattern := 0x12000000#32, mask := 0xFF9FF0F0#32 },
    { opcode := .stdn, pattern := 0x13000000#32, mask := 0xFF9FF0F0#32 },
    { opcode := .ups, pattern := 0x20000000#32, mask := 0xFFFFFFFF#32 },
    { opcode := .dns, pattern := 0x21000000#32, mask := 0xFFFFFFFF#32 },
    { opcode := .shp, pattern := 0x22000000#32, mask := 0xFFFFF0F0#32 },
    { opcode := .proc, pattern := 0x23000000#32, mask := 0xFFFFFFFF#32 } ]

/-- The instruction of a table word of `nbits` bits. A command is one 32-bit word that the port moves
whole, bit i of the word being bit i of the register (rules R65, R90). -/
def decodeTableWord (nbits w : Nat) : Option Instr :=
  match decode (BitVec.ofNat 32 (w % 2 ^ nbits)) with
  | .ok i => some i
  | .error _ => none

end Sys2Proof
end

