-- ==== Sys2Proof/Config.lean ====
section
/-! DEFINITION. The parameters of rule R9, and the values the spec leaves open, which have no body. -/

namespace Sys2Proof.Config

/-- `S_MAX`: greatest number of halfband stages (rule R9). -/
def sMax : Nat := 4
/-- `N_MIN`: least parent tap-array length (rule R9). -/
def nMin : Nat := 3
/-- `N_MAX`: greatest parent tap-array length (rule R9). -/
def nMax : Nat := 255
/-- `UP_GAIN` = 2.0: factor of the odd-branch output of an upsampling stage (rules R9, R163). -/
def upGain : Word := 0x40000000#32
/-- 0.5, the factor of the midpoint and of `shape_AD 3` (rules R132, R213). -/
def half : Word := 0x3F000000#32

/-- `shape_f v` for v = 0, 1, 2: an OPEN parameter (rule R132, U5). Nothing is assumed of it: not that
it is finite, not that it matches `shapeADOpen`. DESIGN CHOICE, safe (log 5). -/
opaque shapeFOpen : Variant → Word → Word

/-- `shape_AD v` for v = 0, 1, 2: an OPEN parameter (rule R132, U5). DESIGN CHOICE, safe (log 5). -/
opaque shapeADOpen : Variant → Word → Word

/-- The n-th unspecified word that a command of channel c leaves outside the finite domain (rule R128):
a free value. DESIGN CHOICE, safe (log 1). -/
opaque freeWord : (channel : Nat) → (n : Nat) → Word

/-- What a byte of `TAPS` staging holds that nothing has written since the `epoch`-th RESET: an
arbitrary unknown (rules R32, R39, U8). DESIGN CHOICE, safe (log 2). -/
opaque unwrittenTap : (channel : Nat) → (epoch : Nat) → (address : Nat) → Byte

end Sys2Proof.Config
end

