-- ==== Sys2Proof/Machine/Float.lean ====
section
/-! DEFINITION. IEEE 754 binary32 arithmetic (rules R120 to R127) and its finite domain (rule R128). -/

namespace Sys2Proof.Machine

/-- Bits 30:23, the biased exponent (rule R120). -/
def expField (a : Word) : Nat := (a.extractLsb' 23 8).toNat

/-- Bits 22:0, the fraction (rule R120). -/
def fracField (a : Word) : Nat := (a.extractLsb' 0 23).toNat

/-- Bits 30:23 are not all ones (rule R126). -/
def isfinite (a : Word) : Bool := expField a != 255

/-- The magnitude of a finite pattern as a whole number of units of 2^-149, the least subnormal:
exponent 0 is a zero or a subnormal, exponent e >= 1 has the hidden bit (rule R120). -/
def magnitude (a : Word) : Nat :=
  if expField a = 0 then fracField a else (2 ^ 23 + fracField a) * 2 ^ (expField a - 1)

/-- The exact value of a finite pattern, in units of 2^-149. -/
def units (a : Word) : Int := if a.msb then -(magnitude a : Int) else (magnitude a : Int)

/-- The bits 30:0 of the binary32 value nearest to `num / den` units of 2^-149, ties to even; the
infinity pattern when that exceeds the greatest finite value (rule R121). `e` is the weight of the last
place, 2^e units; with `m` units of that weight the pattern is `e * 2^23 + m`, for subnormals, normals
and a carry into the next binade alike. -/
def roundMagnitude (num den : Nat) : Nat :=
  let e := Nat.log2 (num / den) - 23
  let place := den * 2 ^ e
  let m := num / place
  let r := num % place
  let rounded := if 2 * r > place ∨ (2 * r = place ∧ m % 2 = 1) then m + 1 else m
  min (e * 2 ^ 23 + rounded) 0x7F800000

/-- A sign and the bits 30:0. -/
def pack (negative : Bool) (magnitudeBits : Nat) : Word :=
  BitVec.ofNat 32 (magnitudeBits + if negative then 2 ^ 31 else 0)

/-- `fadd` on finite operands (rule R121): an exact zero is +0 unless both operands are -0. -/
def fadd (a b : Word) : Word :=
  let z := units a + units b
  if z = 0 then (if a.msb && b.msb then 0x80000000#32 else 0x00000000#32)
  else pack (decide (z < 0)) (roundMagnitude z.natAbs 1)

/-- `fsub(a, b)` is the sum of a and -b (rule R121). -/
def fsub (a b : Word) : Word := fadd a (b ^^^ 0x80000000#32)

/-- `fmul` on finite operands (rule R122): the sign is the exclusive-or of the signs, zeros too. -/
def fmul (a b : Word) : Word :=
  pack (a.msb ^^ b.msb) (roundMagnitude (magnitude a * magnitude b) (2 ^ 149))

/-- `fdiv` on finite operands, b not zero (rule R123). -/
def fdiv (a b : Word) : Word :=
  pack (a.msb ^^ b.msb) (roundMagnitude (magnitude a * 2 ^ 149) (magnitude b))

/-- `fabs`: bit 31 cleared (rule R124). -/
def fabs (a : Word) : Word := a &&& 0x7FFFFFFF#32

/-- `fgt` on finite operands, as real numbers (rule R125). -/
def fgt (a b : Word) : Bool := decide (units b < units a)

/-- `flt` on finite operands, as real numbers (rule R125). -/
def flt (a b : Word) : Bool := decide (units a < units b)

/-! The finite domain. A computation answers `none` as soon as it reads or gives a non-finite value:
that is the edge of the domain of rule R128, and what the primitives above would give on a non-finite
operand is never looked at. -/

/-- A value that is read or given: inside the domain only when finite (rule R128). -/
def finite? (a : Word) : Option Word := if isfinite a then some a else none

/-- `fadd` inside the domain. -/
def fadd? (a b : Word) : Option Word :=
  if isfinite a && isfinite b then finite? (fadd a b) else none

/-- `fsub` inside the domain. -/
def fsub? (a b : Word) : Option Word :=
  if isfinite a && isfinite b then finite? (fsub a b) else none

/-- `fmul` inside the domain. -/
def fmul? (a b : Word) : Option Word :=
  if isfinite a && isfinite b then finite? (fmul a b) else none

/-- `fdiv` inside the domain, which a zero divisor is outside of (rule R123). -/
def fdiv? (a b : Word) : Option Word :=
  if isfinite a && isfinite b && magnitude b != 0 then finite? (fdiv a b) else none

/-- `shape_f v` (rule R132): the identity for `IDENT`, an open parameter for the others. -/
def shapeF : Variant → Word → Word
  | .soft, a => Config.shapeFOpen .soft a
  | .tanh, a => Config.shapeFOpen .tanh a
  | .diode, a => Config.shapeFOpen .diode a
  | .ident, a => a

/-- `shape_AD v` (rule R132): `fmul(0.5, fmul(x, x))` for `IDENT`, an open parameter for the others. -/
def shapeAD : Variant → Word → Word
  | .soft, a => Config.shapeADOpen .soft a
  | .tanh, a => Config.shapeADOpen .tanh a
  | .diode, a => Config.shapeADOpen .diode a
  | .ident, a => fmul Config.half (fmul a a)

/-- `shape_f v` inside the domain (rules R128, R132, U3). -/
def shapeF? (v : Variant) (a : Word) : Option Word :=
  if isfinite a then finite? (shapeF v a) else none

/-- `shape_AD v` inside the domain: for `IDENT` the inner product is an intermediate result and must be
finite too (rules R128, R132, U3). -/
def shapeAD? : Variant → Word → Option Word
  | .soft, a => if isfinite a then finite? (shapeAD .soft a) else none
  | .tanh, a => if isfinite a then finite? (shapeAD .tanh a) else none
  | .diode, a => if isfinite a then finite? (shapeAD .diode a) else none
  | .ident, a => do fmul? Config.half (← fmul? a a)

end Sys2Proof.Machine
end

