-- ==== Sys2Proof/Machine/State.lean ====
section
/-! DEFINITION. The state of one channel (rules R20 to R33), the port's events, the ways a step can stop, and the state after reset (rule R39). -/

namespace Sys2Proof.Machine

/-- Why a device access can stop. -/
inductive Fault where
  /-- Raised by `Device.access` alone, for a device address that lies in no channel's window (rule R66
  gives a window to each of the `NCH` channels and to nothing else). No step of a channel raises it:
  the port cannot express an offset outside its channel. Safe: it stops where no hardware is. -/
  | noSuchChannel
  /-- Raised by `strictStep` alone, never by `step`: a processing command outside the finite domain,
  which rule R128 and U1 to U3 have a model treat as a fault (log 1). Safe. -/
  | outsideDomain
  /-- Raised by `strictStep` alone, never by `step`: a read of a staging word that nothing has written
  since reset, by the host or by an accepted `SETF`, which rule R271 and U8 call a fault of the model
  (log 2). Safe. -/
  | unwrittenTaps
deriving DecidableEq, Repr

/-- Why a command could have no meaning. -/
inductive Refusal where
  /-- Raised by a refused arm of `exec`. No arm is refused now, so nothing raises it. Safe. -/
  | notModelled (mnemonic : String)
deriving DecidableEq, Repr

/-- A word number of the port: byte offset / 4 within the channel's 2048 words. The low two bits of a
byte offset are not carried (rules R60, R61, R66), so a misaligned access cannot be written down. -/
abbrev PortAddr := BitVec 11

/-- What can reach the core from outside, one at a time (rules R13, R61 to R63, R270). -/
inductive PortEvent where
  /-- `HostRead(4 a)` (rule R62) -/
  | read (a : PortAddr)
  /-- `HostWrite(4 a, v)` (rule R63) -/
  | write (a : PortAddr) (v : Word)
  /-- one pulse of the `RESET` input, asserted and released, as this channel sees it: the input is common
  to all channels of a device (`Device.resetInput`), which all see the same pulse (rule R270; log 9) -/
  | reset
deriving DecidableEq, Repr

/-- A ring buffer: the sample array and the write cursor, the slot the next push writes (rules R33,
R140). Its capacity is the `c` of its stage. -/
structure Ring where
  mem : List Word
  w : Nat
deriving DecidableEq, Repr

/-- One built stage (rule R33): `K[s]`, `C[s]`, the active tap arrays and the four ring buffers. -/
structure Stage where
  k : Nat
  c : Nat
  etaps : List Word
  otaps : List Word
  upE : Ring
  upO : Ring
  dnE : Ring
  dnO : Ring
deriving DecidableEq, Repr

/-- The written bytes of `TAPS` staging by byte offset, offsets strictly rising. An offset that is not
listed has not been written since reset (rules R32, R65; log 2, 12). -/
abbrev Memory := List Host.Cell

/-- The state of one channel (rule R20), and the model's own five fields. -/
structure State where
  /-- X (rule R21) -/
  x : Word
  /-- Y (rule R21) -/
  y : Word
  /-- V0..V15 (rule R21) -/
  v : Vector Word 16
  /-- CMD (rule R23) -/
  cmd : Word
  /-- STATUS.OSR (rule R24) -/
  osr : Bool
  /-- STATUS.WSR (rule R24) -/
  wsr : Bool
  /-- ERRFLAGS (rule R25) -/
  errflags : Word
  /-- LASTERR (rule R26) -/
  lasterr : Word
  /-- FACTOR bits 4:0 (rule R27) -/
  factor : BitVec 5
  /-- LATENCY (rule R28) -/
  latency : Word
  /-- LAT_OS (rule R29) -/
  latOs : Word
  /-- EPS (rule R30) -/
  eps : Word
  /-- SHAPE (rule R31) -/
  shape : Variant
  /-- EPSA (rule R31) -/
  epsa : Word
  /-- XPREV (rule R31) -/
  xprev : Word
  /-- ADPREV (rule R31) -/
  adprev : Word
  /-- TAPLEN0..3 bits 15:0 (rule R32) -/
  taplen : Vector (BitVec 16) 4
  /-- the written bytes of TAPS (rule R32) -/
  taps : Memory
  /-- the built stages 0 .. S-1, outermost first; S is its length (rule R33) -/
  stages : List Stage
  /-- the model's own: the host's events still to be served, the next one first (log 3) -/
  pending : List PortEvent
  /-- the model's own: the words `HostRead` has returned, newest first (log 3) -/
  answers : List Word
  /-- the model's own: how many free words have been used (log 1) -/
  free : Nat
  /-- the model's own: how many RESET pulses there have been (log 2, 9) -/
  epoch : Nat
  /-- the model's own: the number of this channel (log 10) -/
  channel : Nat
deriving DecidableEq, Repr

/-- The machine right after reset (rules R39, R271). -/
def State.reset : State where
  x := 0#32
  y := 0#32
  v := Vector.replicate 16 0#32
  cmd := 0#32
  osr := false
  wsr := false
  errflags := 0#32
  lasterr := 0#32
  factor := 0#5
  latency := 0#32
  latOs := 0#32
  eps := 0#32
  shape := .soft
  epsa := 0#32
  xprev := 0#32
  adprev := 0#32
  taplen := Vector.replicate 4 0#16
  taps := []
  stages := []
  pending := []
  answers := []
  free := 0
  epoch := 0
  channel := 0

end Sys2Proof.Machine
end

