-- ==== Sys2Proof/Machine/Flags.lean ====
section
/-! DEFINITION. The flags: STATUS and ERRFLAGS (rules R24, R25), and the causes of rejection with their codes and details (rule R240). No arithmetic writes a flag (rule R129). -/

namespace Sys2Proof.Machine

/-- What `reject <Cause>(info)` carries (rule R240). -/
inductive Cause where
  /-- `SETF` with a factor not in 2, 4, 8, 16 (rule R245) -/
  | invalidFactor (imm8 : Byte)
  /-- `SETF` with a bad staged length, lowest failing stage (rule R246) -/
  | invalidTapLength (st : StageIx) (n : BitVec 16)
  /-- a word that spells no command (rule R248) -/
  | illegalCommand
  /-- a component that is not built: the stage field, whether a stage or the oversampler is missing,
  whether the waveshaper is missing (rule R247) -/
  | notConfigured (st : StageIx) (os ws : Bool)
  /-- `SHINIT` with `EPS` non-finite or negative (rule R249) -/
  | invalidEpsilon
deriving DecidableEq, Repr

/-- The cause code: `LASTERR.CAUSE` and the number of the `ERRFLAGS` bit (rule R240). -/
def Cause.code : Cause → Nat
  | .invalidFactor _ => 1
  | .invalidTapLength _ _ => 2
  | .illegalCommand => 3
  | .notConfigured _ _ _ => 4
  | .invalidEpsilon => 5

/-- One bit as a one-bit word. -/
def bit (b : Bool) : BitVec 1 := BitVec.ofBool b

/-- `LASTERR[31:8]` (the last column of rule R240). -/
def Cause.info : Cause → BitVec 24
  | .invalidFactor imm8 => 0#16 ++ imm8
  | .invalidTapLength st n => n ++ 0#6 ++ st
  | .illegalCommand => 0#24
  | .notConfigured st os ws => 0#14 ++ bit ws ++ bit os ++ 0#6 ++ st
  | .invalidEpsilon => 0#24

/-- The word that `LASTERR` takes (rule R243). -/
def Cause.word (c : Cause) : Word := c.info ++ BitVec.ofNat 8 c.code

/-- The sticky bit of a cause (rules R25, R240). -/
def Cause.flag (c : Cause) : Word := 1#32 <<< c.code

/-- The bits of ERRFLAGS that exist, 5:1; the others are res0 (rule R25). -/
def errflagsMask : Word := 0x0000003E#32

/-- STATUS as the host reads it (rule R24): bit 0 OSR, bit 1 WSR, the rest zero. -/
def State.status (s : State) : Word := 0#30 ++ bit s.wsr ++ bit s.osr

/-- What a write of `v` leaves of ERRFLAGS: each bit that is 1 in `v` is cleared (rules R25, R63). -/
def clearedFlags (flags v : Word) : Word := flags &&& ~~~v

end Sys2Proof.Machine
end

