-- ==== Sys2Proof/Machine/Ops.lean ====
section
/-! DEFINITION. The named operations over registers and staging memory, and `reject`, which stands in the place of taking an exception (rule R243). -/

namespace Sys2Proof.Machine

/-! ### Staging memory (rules R32, R65) -/

/-- The byte last written at an offset, if one was. -/
def Memory.byte? : Memory → Nat → Option Byte
  | [], _ => none
  | (a, b) :: rest, at_ => if a = at_ then some b else Memory.byte? rest at_

/-- Write one byte, keeping the offsets strictly rising. -/
def Memory.setByte : Memory → Nat → Byte → Memory
  | [], at_, v => [(at_, v)]
  | (a, b) :: rest, at_, v =>
    if at_ < a then (at_, v) :: (a, b) :: rest
    else if at_ = a then (a, v) :: rest
    else (a, b) :: Memory.setByte rest at_ v

/-- Write one word at byte offset `at_`: byte j holds bits 8j+7 .. 8j (rule R65). -/
def Memory.setWord (m : Memory) (at_ : Nat) (v : Word) : Memory :=
  (((m.setByte at_ (v.extractLsb' 0 8)).setByte (at_ + 1) (v.extractLsb' 8 8)).setByte
    (at_ + 2) (v.extractLsb' 16 8)).setByte (at_ + 3) (v.extractLsb' 24 8)

/-- Offsets strictly rising, from `low` on. -/
def Memory.risingFrom : Nat → Memory → Bool
  | _, [] => true
  | low, (a, _) :: rest => decide (low ≤ a) && Memory.risingFrom (a + 1) rest

/-- The canonical form: offsets strictly rising and all inside `TAPS`, 0x0400 .. 0x13FF (rule R66). An
entry never equals what an unlisted offset holds, since an unlisted byte has no value at all (U8). -/
def Memory.wf (m : Memory) : Bool :=
  Memory.risingFrom 0x0400 m && m.all (fun cell => decide (cell.1 < 0x1400))

/-- One byte of staging as it is read: the byte last written, or the unknown that stood there at reset
(rules R32, R271, U8; log 2). -/
def State.tapByte (s : State) (at_ : Nat) : Byte :=
  (Memory.byte? s.taps at_).getD (Config.unwrittenTap s.channel s.epoch at_)

/-- One word of staging at a byte offset (rule R65). -/
def State.tapWordAt (s : State) (at_ : Nat) : Word :=
  s.tapByte (at_ + 3) ++ s.tapByte (at_ + 2) ++ s.tapByte (at_ + 1) ++ s.tapByte at_

/-- The byte offset of `TAPS[st][i]` (rule R32). -/
def tapOffset (st i : Nat) : Nat := 0x400 * (st + 1) + 4 * i

/-- `TAPS[st][i]` (rule R32). -/
def State.tapWord (s : State) (st i : Nat) : Word := s.tapWordAt (tapOffset st i)

/-! ### Sample registers (rule R21) -/

/-- Read V[r]. -/
def State.readV (s : State) (r : VReg) : Word := s.v[r.toNat]'r.isLt

/-- `V[r] <- a`. -/
def State.writeV (s : State) (r : VReg) (a : Word) : State :=
  { s with v := s.v.set r.toNat a r.isLt }

/-- `for i = 0 .. len-1: V[i] <- frame[i]`; the registers past the frame keep their values. -/
def writeFrame (v : Vector Word 16) (frame : List Word) : Vector Word 16 :=
  Vector.ofFn fun i : Fin 16 => frame.getD i.val v[i]

/-- `[V[0], ..., V[n-1]]`. -/
def State.frame (s : State) (n : Nat) : List Word := s.v.toList.take n

/-! ### The stage chain (rule R33) -/

/-- S, the number of stages that exist. -/
def State.S (s : State) : Nat := s.stages.length

/-- The oversampling factor of the chain, 2^S. -/
def State.chainFactor (s : State) : Nat := 2 ^ s.S

/-- Stage `st`, if it exists (rule R247). -/
def State.stage? (s : State) (st : StageIx) : Option Stage := s.stages[st.toNat]?

/-- Replace stage `st`. -/
def State.setStage (s : State) (st : StageIx) (g : Stage) : State :=
  { s with stages := s.stages.set st.toNat g }

/-! ### Free values (rule R128) -/

/-- The n-th free word from here on. -/
def State.freeAt (s : State) (n : Nat) : Word := Config.freeWord s.channel (s.free + n)

/-- The next `n` free words after `skip` of them. -/
def State.freeWords (s : State) (skip n : Nat) : List Word :=
  (List.range n).map fun i => s.freeAt (skip + i)

/-- Count `n` free words as used. -/
def State.useFree (s : State) (n : Nat) : State := { s with free := s.free + n }

/-! ### Rejection (rules R243, R244) and recovery (rule R252) -/

/-- `reject <Cause>(info)`: the sticky bit, then the whole of LASTERR, and nothing else. -/
def State.reject (s : State) (c : Cause) : State :=
  { s with errflags := s.errflags ||| c.flag, lasterr := c.word }

/-- A rejected command ends here: a next state, since nothing is trapped to (rule R243). -/
def rejected (s : State) (c : Cause) : Host.Outcome State Fault Refusal := .next (s.reject c)

/-- Nothing was entered by a rejection, so nothing returns; the host recovers by clearing bits of
ERRFLAGS, and LASTERR keeps the detail (rules R26, R252). -/
def State.clearErrors (s : State) (v : Word) : State :=
  { s with errflags := clearedFlags s.errflags v }

/-! ### The RESET input (rules R270, R271) -/

/-- One pulse of RESET: the reset state, every staging word unknown anew. The host's queue, its answers
and the model's counters are not the core's and stay (log 9). -/
def State.resetInput (s : State) : State :=
  { State.reset with
    pending := s.pending, answers := s.answers, free := s.free, epoch := s.epoch + 1,
    channel := s.channel }

end Sys2Proof.Machine
end

