-- ==== Sys2Proof/Machine/Operands.lean ====
section
/-! DEFINITION. The operand forms: a ring buffer (d, s, b), a tap array (s, tb), a register pair (rules R93, R94). -/

namespace Sys2Proof.Machine

/-- `buf(d, s, b)` of stage s (rules R12, R33, R94). -/
def Stage.ring (g : Stage) : Dir → Branch → Ring
  | .up, .even => g.upE
  | .up, .odd => g.upO
  | .down, .even => g.dnE
  | .down, .odd => g.dnO

/-- Replace `buf(d, s, b)`. -/
def Stage.setRing (g : Stage) (d : Dir) (b : Branch) (r : Ring) : Stage :=
  match d, b with
  | .up, .even => { g with upE := r }
  | .up, .odd => { g with upO := r }
  | .down, .even => { g with dnE := r }
  | .down, .odd => { g with dnO := r }

/-- The tap array that `tb` selects: `etaps[s]` or `otaps[s]` (rules R93, R94). -/
def Stage.taps (g : Stage) : Branch → List Word
  | .even => g.etaps
  | .odd => g.otaps

/-- The second register of a pair, V[r + 1]; a well-formed pair never runs past V15 (rule R91 step 4). -/
def pairNext (r : VReg) : VReg := r + 1#4

end Sys2Proof.Machine
end

