-- ==== Sys2Proof/Machine/Ring.lean ====
section
/-! DEFINITION. push, tap and convolve (rules R140 to R144). -/

namespace Sys2Proof.Machine

/-- A ring buffer as construction leaves it: all +0.0, cursor 0 (rule R144). -/
def Ring.fresh (c : Nat) : Ring := { mem := List.replicate c 0#32, w := 0 }

/-- `push(B, v)` on a buffer of capacity c (rule R140). -/
def Ring.push (c : Nat) (B : Ring) (v : Word) : Ring :=
  { mem := B.mem.set B.w v, w := (B.w + 1) % c }

/-- Several pushes, the first of the list first. -/
def Ring.pushAll (c : Nat) : Ring → List Word → Ring
  | B, [] => B
  | B, v :: vs => Ring.pushAll c (B.push c v) vs

/-- The cursor becomes unspecified: any number that a cursor can be, 0 .. c-1 (rules R33, R34, R128;
log 6). -/
def Ring.loseCursor (c : Nat) (B : Ring) (cursor : Word) : Ring := { B with w := cursor.toNat % c }

/-- `tap(B, k)` for k < c: the slot (w - 1 - k) mod c (rule R141). -/
def Ring.tap (c : Nat) (B : Ring) (k : Nat) : Word := B.mem.getD ((B.w + c - 1 - k) % c) 0#32

/-- The four accumulators (rules R133, R142). -/
structure Lanes where
  a0 : Word
  a1 : Word
  a2 : Word
  a3 : Word
deriving DecidableEq, Repr

/-- Every lane starts at +0.0. -/
def Lanes.zero : Lanes := { a0 := 0#32, a1 := 0#32, a2 := 0#32, a3 := 0#32 }

/-- Add one term to lane j mod 4. -/
def Lanes.add? (l : Lanes) (j : Nat) (p : Word) : Option Lanes :=
  if j % 4 = 0 then do some { l with a0 := ← fadd? l.a0 p }
  else if j % 4 = 1 then do some { l with a1 := ← fadd? l.a1 p }
  else if j % 4 = 2 then do some { l with a2 := ← fadd? l.a2 p }
  else do some { l with a3 := ← fadd? l.a3 p }

/-- The four lanes added left to right, lane 0 first (rule R142). -/
def Lanes.sum? (l : Lanes) : Option Word := do
  fadd? (← fadd? (← fadd? l.a0 l.a1) l.a2) l.a3

/-- The loop of rule R142 from element k on: term k goes to lane k mod 4, by rising k. -/
def Ring.accumulate? (c : Nat) (B : Ring) : List Word → Nat → Lanes → Option Lanes
  | [], _, l => some l
  | t :: ts, k, l => do
    let l' ← l.add? k (← fmul? t (B.tap c k))
    Ring.accumulate? c B ts (k + 1) l'

/-- `convolve(B, T)` inside the finite domain (rules R128, R142). -/
def Ring.convolve? (c : Nat) (B : Ring) (T : List Word) : Option Word := do
  (← Ring.accumulate? c B T 0 Lanes.zero).sum?

end Sys2Proof.Machine
end

