-- ==== Sys2Proof/Machine/HalfbandStage.lean ====
section
/-! DEFINITION. One 2x stage up and down (rules R160 to R165) and the commands STUP and STDN (rules R166, R167). -/

namespace Sys2Proof.Machine

/-- Both pushes of the upsample path (rule R163); each branch buffer takes its own sequence. -/
def Stage.pushUp (g : Stage) (toE toO : List Word) : Stage :=
  { g with upE := g.upE.pushAll g.c toE, upO := g.upO.pushAll g.c toO }

/-- Both pushes of the downsample path (rule R164). -/
def Stage.pushDown (g : Stage) (toE toO : List Word) : Stage :=
  { g with dnE := g.dnE.pushAll g.c toE, dnO := g.dnO.pushAll g.c toO }

/-- What upsampling work outside the finite domain leaves of a stage: unspecified values in the slots it
pushes to, and unspecified cursors (rules R128, R166; log 6, 7). -/
def Stage.freeUp (g : Stage) (toE toO : List Word) (curE curO : Word) : Stage :=
  let p := g.pushUp toE toO
  { p with upE := p.upE.loseCursor g.c curE, upO := p.upO.loseCursor g.c curO }

/-- The same for downsampling work (rules R128, R167; log 6, 7). -/
def Stage.freeDown (g : Stage) (toE toO : List Word) (curE curO : Word) : Stage :=
  let p := g.pushDown toE toO
  { p with dnE := p.dnE.loseCursor g.c curE, dnO := p.dnO.loseCursor g.c curO }

/-- `o0` of rule R163: the even branch is a pure delay of K[s]. -/
def Stage.delayed (g : Stage) : Word := g.upE.tap g.c g.k

/-- `stage_up(s, a)` inside the finite domain (rules R128, R163). -/
def Stage.up? (g : Stage) (a : Word) : Option (Stage × Word × Word) := do
  let a ← finite? a
  let g' := g.pushUp [a] [a]
  let o0 ← finite? g'.delayed
  let o1 ← fmul? Config.upGain (← g'.upO.convolve? g'.c g'.otaps)
  some (g', o0, o1)

/-- `stage_down(s, a0, a1)` inside the finite domain (rules R128, R164). -/
def Stage.down? (g : Stage) (a0 a1 : Word) : Option (Stage × Word) := do
  let a0 ← finite? a0
  let a1 ← finite? a1
  let g' := g.pushDown [a0] [a1]
  let y ← fadd? (← g'.dnE.convolve? g'.c g'.etaps) (← g'.dnO.convolve? g'.c g'.otaps)
  some (g', y)

/-- `STUP s, Vd, Va` (rule R166): V[va] is read before anything is written. Outside the finite domain
the values pushed, the cursors and V[vd + 1] are unspecified (rule R128; log 6, 7); V[vd], "being a copy,
is an exact copy of whatever pattern was pushed" there too (rule R166, corner cases). -/
def execStup (st : StageIx) (vd va : VReg) (s : State) : Host.Outcome State Fault Refusal :=
  match s.stage? st with
  | none => rejected s (.notConfigured st true false)
  | some g =>
    match g.up? (s.readV va) with
    | some (g', o0, o1) => .next (((s.setStage st g').writeV vd o0).writeV (pairNext vd) o1)
    | none =>
      let pushed := g.pushUp [s.freeAt 0] [s.freeAt 1]
      let g' := g.freeUp [s.freeAt 0] [s.freeAt 1] (s.freeAt 3) (s.freeAt 4)
      .next ((((s.setStage st g').writeV vd pushed.delayed).writeV (pairNext vd)
        (s.freeAt 2)).useFree 5)

/-- `STDN s, Vd, Va` (rule R167): both sources are read before the destination is written. Outside the
finite domain the values pushed, the cursors and V[vd] are unspecified (rule R128; log 6, 7). -/
def execStdn (st : StageIx) (vd va : VReg) (s : State) : Host.Outcome State Fault Refusal :=
  match s.stage? st with
  | none => rejected s (.notConfigured st true false)
  | some g =>
    match g.down? (s.readV va) (s.readV (pairNext va)) with
    | some (g', y) => .next ((s.setStage st g').writeV vd y)
    | none =>
      let g' := g.freeDown [s.freeAt 0] [s.freeAt 1] (s.freeAt 3) (s.freeAt 4)
      .next (((s.setStage st g').writeV vd (s.freeAt 2)).useFree 5)

end Sys2Proof.Machine
end

