-- ==== Sys2Proof/Machine/Oversampler.lean ====
section
/-! DEFINITION. The oversampler: construction (rules R181 to R185), the cascade up and down (rules R187, R188), and the commands SETF, UPS and DNS. -/

namespace Sys2Proof.Machine

/-! ### Construction -/

/-- `log2(F)` for a legal factor F (rules R9, R182). -/
def stageCount? (imm8 : Byte) : Option Nat :=
  if imm8 = 2#8 then some 1
  else if imm8 = 4#8 then some 2
  else if imm8 = 8#8 then some 3
  else if imm8 = 16#8 then some 4
  else none

/-- `next_pow2(n)`, the least power of two that is at least n (rule R131). -/
def nextPow2 (n : Nat) : Nat := if n ≤ 1 then 1 else 2 ^ (Nat.log2 (n - 1) + 1)

/-- The length check of one stage (rule R182). -/
def badLength (n : Nat) : Bool :=
  decide (n < Config.nMin) || decide (n > Config.nMax) || n % 4 != 3

/-- `TAPLEN[st][15:0]` (rule R32). -/
def State.tapLength (s : State) (st : StageIx) : BitVec 16 := s.taplen[st.toNat]'st.isLt

/-- The lowest stage below `count` whose staged length is bad (rules R182, R246). -/
def State.firstBadStage (s : State) (count : Nat) : Option StageIx :=
  [0#2, 1#2, 2#2, 3#2].find? fun st =>
    decide (st.toNat < count) && badLength (s.tapLength st).toNat

/-- Stage `st` built from staging: the split by index parity and four fresh buffers (rules R161, R183). -/
def State.buildStage (s : State) (st : StageIx) : Stage :=
  let k := ((s.tapLength st).toNat + 1) / 4
  let c := nextPow2 (2 * k)
  { k := k
    c := c
    etaps := (List.range (2 * k - 1)).map fun i => s.tapWord st.toNat (2 * i + 1)
    otaps := (List.range (2 * k)).map fun i => s.tapWord st.toNat (2 * i)
    upE := Ring.fresh c
    upO := Ring.fresh c
    dnE := Ring.fresh c
    dnO := Ring.fresh c }

/-- The whole chain of `count` stages (rule R183). -/
def State.buildStages (s : State) (count : Nat) : List Stage :=
  (List.range count).map fun j => s.buildStage (BitVec.ofNat 2 j)

/-- `lat_os` (rule R184): each stage's group delay M = 2K - 1, weighted by 2^(S - s). -/
def latOsOf : List Stage → Nat
  | [] => 0
  | g :: gs => (2 * g.k - 1) * 2 ^ (gs.length + 1) + latOsOf gs

/-- `latency(F, L)` = floor((L + F/2) / F) (rule R185). -/
def latencyOf (factor los : Nat) : Nat := (los + factor / 2) / factor

/-- The effect of an accepted `SETF` (rule R183). -/
def State.construct (s : State) (count : Nat) : State :=
  let stages := s.buildStages count
  { s with
    stages := stages
    factor := BitVec.ofNat 5 (2 ^ count)
    latOs := BitVec.ofNat 32 (latOsOf stages)
    latency := BitVec.ofNat 32 (latencyOf (2 ^ count) (latOsOf stages))
    osr := true }

/-- `SETF imm8` (rules R181 to R183). -/
def execSetf (imm8 : Byte) (s : State) : Host.Outcome State Fault Refusal :=
  match stageCount? imm8 with
  | none => rejected s (.invalidFactor imm8)
  | some count =>
    match s.firstBadStage count with
    | some st => rejected s (.invalidTapLength st (s.tapLength st))
    | none => .next (s.construct count)

/-! ### The cascade -/

/-- One level going up: `stage_up` on each sample in time order (rule R187). -/
def Stage.upEach? (g : Stage) : List Word → Option (Stage × List Word)
  | [] => some (g, [])
  | a :: rest => do
    let (g1, o0, o1) ← g.up? a
    let (g2, out) ← Stage.upEach? g1 rest
    some (g2, o0 :: o1 :: out)

/-- One level going down: `stage_down` on each pair in time order (rule R188). -/
def Stage.downEach? (g : Stage) : List Word → Option (Stage × List Word)
  | a0 :: a1 :: rest => do
    let (g1, y) ← g.down? a0 a1
    let (g2, out) ← Stage.downEach? g1 rest
    some (g2, y :: out)
  | _ => some (g, [])

/-- The cascade up, outermost stage first (rule R187). -/
def upChain? : List Stage → List Word → Option (List Stage × List Word)
  | [], vec => some ([], vec)
  | g :: gs, vec => do
    let (g', nxt) ← g.upEach? vec
    let (gs', out) ← upChain? gs nxt
    some (g' :: gs', out)

/-- The cascade down, innermost stage first (rule R188). -/
def downChain? : List Stage → List Word → Option (List Stage × List Word)
  | [], vec => some ([], vec)
  | g :: gs, vec => do
    let (gs', mid) ← downChain? gs vec
    let (g', out) ← g.downEach? mid
    some (g' :: gs', out)

/-- `upsample(x)`: the chain after it and the F samples (rule R187). -/
def State.upsample? (s : State) : Option (List Stage × List Word) := upChain? s.stages [s.x]

/-- `downsample(vec)` on a chain: the chain after it and the one sample (rule R188). -/
def downsample? (stages : List Stage) (vec : List Word) : Option (List Stage × Word) := do
  let (stages', out) ← downChain? stages vec
  some (stages', ← out.head?)

/-! ### The cascade outside the finite domain (rule R128)

Every slot that the command pushes to holds an unspecified value, and every cursor it moves stands at an
unspecified slot (rule R128; log 6, 7). -/

/-- Stage s takes `n` = 2^s unspecified samples in each U buffer and loses both cursors; the next
stage takes twice as many. -/
def State.freeUpChain (s : State) : List Stage → (n skip : Nat) → List Stage
  | [], _, _ => []
  | g :: gs, n, skip =>
    g.freeUp (s.freeWords skip n) (s.freeWords (skip + n) n) (s.freeAt (skip + 2 * n))
        (s.freeAt (skip + 2 * n + 1))
      :: State.freeUpChain s gs (2 * n) (skip + 2 * n + 2)

/-- Stage s takes `n` = 2^s unspecified samples in each D buffer and loses both cursors; the next
stage takes twice as many. -/
def State.freeDownChain (s : State) : List Stage → (n skip : Nat) → List Stage
  | [], _, _ => []
  | g :: gs, n, skip =>
    g.freeDown (s.freeWords skip n) (s.freeWords (skip + n) n) (s.freeAt (skip + 2 * n))
        (s.freeAt (skip + 2 * n + 1))
      :: State.freeDownChain s gs (2 * n) (skip + 2 * n + 2)

/-- How many free words one direction of a chain of `count` stages uses: 2^(s + 1) samples and two
cursors in each stage s. -/
def chainFree (count : Nat) : Nat := 2 * (2 ^ count - 1) + 2 * count

/-! ### The commands -/

/-- `UPS` (rule R187). -/
def execUps (s : State) : Host.Outcome State Fault Refusal :=
  if s.osr then
    match s.upsample? with
    | some (stages', vec) => .next { s with stages := stages', v := writeFrame s.v vec }
    | none =>
      let used := chainFree s.S
      .next { s with
        stages := s.freeUpChain s.stages 1 0
        v := writeFrame s.v (s.freeWords used s.chainFactor)
        free := s.free + used + s.chainFactor }
  else rejected s (.notConfigured 0#2 true false)

/-- `DNS` (rule R188). -/
def execDns (s : State) : Host.Outcome State Fault Refusal :=
  if s.osr then
    match downsample? s.stages (s.frame s.chainFactor) with
    | some (stages', a) => .next { s with stages := stages', y := a }
    | none =>
      let used := chainFree s.S
      .next { s with
        stages := s.freeDownChain s.stages 1 0
        y := s.freeAt used
        free := s.free + used + 1 }
  else rejected s (.notConfigured 0#2 true false)

end Sys2Proof.Machine
end

