-- ==== Sys2Proof/Machine/Waveshaper.lean ====
section
/-! DEFINITION. The ADAA waveshaper: construction (rules R211, R212), the step (rule R213), and the commands SHINIT and SHP (rule R214). -/

namespace Sys2Proof.Machine

/-- The check of `SHINIT` (rule R211): a legal threshold is finite and not less than zero. -/
def badEpsilon (e : Word) : Bool := !isfinite e || flt e 0#32

/-- `SHINIT v` (rules R211, R212). -/
def execShinit (v : Variant) (s : State) : Host.Outcome State Fault Refusal :=
  if badEpsilon s.eps then rejected s .invalidEpsilon
  else .next { s with
    shape := v
    epsa := s.eps
    xprev := 0#32
    adprev := shapeAD v 0#32
    wsr := true }

/-- What changes from sample to sample in the waveshaper (rule R31). -/
structure Tracker where
  xprev : Word
  adprev : Word
deriving DecidableEq, Repr

/-- The tracker as it stands in the registers. -/
def State.tracker (s : State) : Tracker := { xprev := s.xprev, adprev := s.adprev }

/-- `adaa_step(x)` inside the finite domain (rules R128, R213): the quotient on a step greater than the
threshold, the midpoint otherwise; the tracker is written on both paths. -/
def adaaStep? (v : Variant) (epsa : Word) (t : Tracker) (x : Word) : Option (Tracker × Word) := do
  let epsa ← finite? epsa
  let ad ← shapeAD? v x
  let dx ← fsub? x t.xprev
  let y ←
    if fgt (fabs dx) epsa then do fdiv? (← fsub? ad t.adprev) dx
    else do shapeF? v (← fmul? Config.half (← fadd? x t.xprev))
  some ({ xprev := x, adprev := ad }, y)

/-- The waveshaper on a frame, earliest sample first (rule R230). -/
def shapeFrame? (v : Variant) (epsa : Word) : Tracker → List Word → Option (Tracker × List Word)
  | t, [] => some (t, [])
  | t, x :: xs => do
    let (t1, y) ← adaaStep? v epsa t x
    let (t2, ys) ← shapeFrame? v epsa t1 xs
    some (t2, y :: ys)

/-- `SHP Vd, Va` (rule R214): the source is read first. Outside the finite domain V[vd], XPREV and
ADPREV are unspecified (rules R128, R285). -/
def execShp (vd va : VReg) (s : State) : Host.Outcome State Fault Refusal :=
  if s.wsr then
    match adaaStep? s.shape s.epsa s.tracker (s.readV va) with
    | some (t, y) => .next { s.writeV vd y with xprev := t.xprev, adprev := t.adprev }
    | none =>
      .next { s.writeV vd (s.freeAt 0) with
        xprev := s.freeAt 1, adprev := s.freeAt 2, free := s.free + 3 }
  else rejected s (.notConfigured 0#2 false true)

end Sys2Proof.Machine
end

