-- ==== Sys2Proof/Machine/Pipeline.lean ====
section
/-! DEFINITION. The composed per-sample pipeline: the command PROC (rule R230). -/

namespace Sys2Proof.Machine

/-- What `PROC` leaves inside the finite domain. -/
structure ProcResult where
  stages : List Stage
  frame : List Word
  tracker : Tracker
  y : Word
deriving DecidableEq, Repr

/-- Upsample, waveshape each sample earliest first, downsample (rule R230). -/
def State.process? (s : State) : Option ProcResult := do
  let (up, vec) ← s.upsample?
  let (t, shaped) ← shapeFrame? s.shape s.epsa s.tracker vec
  let (down, y) ← downsample? up shaped
  some { stages := down, frame := shaped, tracker := t, y := y }

/-- `PROC` (rule R230): both components are checked before the first write. -/
def execProc (s : State) : Host.Outcome State Fault Refusal :=
  if s.osr && s.wsr then
    match s.process? with
    | some r =>
      .next { s with
        stages := r.stages, v := writeFrame s.v r.frame, xprev := r.tracker.xprev,
        adprev := r.tracker.adprev, y := r.y }
    | none =>
      let used := chainFree s.S
      .next { s with
        stages := s.freeDownChain (s.freeUpChain s.stages 1 0) 1 used
        v := writeFrame s.v (s.freeWords (2 * used) s.chainFactor)
        xprev := s.freeAt (2 * used + s.chainFactor)
        adprev := s.freeAt (2 * used + s.chainFactor + 1)
        y := s.freeAt (2 * used + s.chainFactor + 2)
        free := s.free + 2 * used + s.chainFactor + 3 }
  else rejected s (.notConfigured 0#2 (!s.osr) (!s.wsr))

end Sys2Proof.Machine
end

