-- ==== Sys2Proof/Machine/RingBuffer.lean ====
section
/-! DEFINITION. The commands PUSH and CONV (rules R147, R148). -/

namespace Sys2Proof.Machine

/-- `PUSH buf, Va` (rule R147): defined for every pattern. -/
def execPush (d : Dir) (st : StageIx) (b : Branch) (va : VReg) (s : State) :
    Host.Outcome State Fault Refusal :=
  match s.stage? st with
  | none => rejected s (.notConfigured st true false)
  | some g => .next (s.setStage st (g.setRing d b ((g.ring d b).push g.c (s.readV va))))

/-- `CONV Vd, buf, tb` (rule R148). Outside the finite domain V[vd] is unspecified (rule R128). -/
def execConv (d : Dir) (st : StageIx) (b tb : Branch) (vd : VReg) (s : State) :
    Host.Outcome State Fault Refusal :=
  match s.stage? st with
  | none => rejected s (.notConfigured st true false)
  | some g =>
    match (g.ring d b).convolve? g.c (g.taps tb) with
    | some a => .next (s.writeV vd a)
    | none => .next ((s.writeV vd (s.freeAt 0)).useFree 1)

end Sys2Proof.Machine
end

