-- ==== Sys2Proof/Machine/Dispatch.lean ====
section
/-! DEFINITION. Step 5 of rule R91: each command's own rule, one arm a command. -/

namespace Sys2Proof.Machine

def exec (i : Instr) (s : State) : Host.Outcome State Fault Refusal :=
  match i with
  | .setf imm8 => Sys2Proof.Machine.execSetf imm8 s
  | .shinit v => Sys2Proof.Machine.execShinit v s
  | .push d st b va => Sys2Proof.Machine.execPush d st b va s
  | .conv d st b tb vd => Sys2Proof.Machine.execConv d st b tb vd s
  | .stup st vd va => Sys2Proof.Machine.execStup st vd va s
  | .stdn st vd va => Sys2Proof.Machine.execStdn st vd va s
  | .ups => Sys2Proof.Machine.execUps s
  | .dns => Sys2Proof.Machine.execDns s
  | .shp vd va => Sys2Proof.Machine.execShp vd va s
  | .proc => Sys2Proof.Machine.execProc s

end Sys2Proof.Machine
end

