-- ==== Sys2Proof/Machine/Port.lean ====
section
/-! DEFINITION. The register map and the host port: what an offset names, what a read returns, what a write that is no command leaves (rules R60 to R67). -/

namespace Sys2Proof.Machine

/-- What stands at a word of the register space (the map of rule R66). -/
inductive Reg where
  | cmd | status | errflags | lasterr | factor | latency | latOs | eps
  | shape | epsa | xprev | adprev | x | y
  | v (i : VReg)
  | taplen (st : StageIx)
  | taps (st : StageIx) (i : Byte)
  | reserved
deriving DecidableEq, Repr

/-- The register at word number `a`, byte offset 4 a (the map of rule R66). -/
def regAt (a : PortAddr) : Reg :=
  let off := 4 * a.toNat
  if off = 0x000 then .cmd
  else if off = 0x004 then .status
  else if off = 0x008 then .errflags
  else if off = 0x00C then .lasterr
  else if off = 0x010 then .factor
  else if off = 0x014 then .latency
  else if off = 0x018 then .latOs
  else if off = 0x01C then .eps
  else if off = 0x020 then .shape
  else if off = 0x024 then .epsa
  else if off = 0x028 then .xprev
  else if off = 0x02C then .adprev
  else if off = 0x030 then .x
  else if off = 0x034 then .y
  else if off < 0x040 then .reserved
  else if off < 0x080 then .v (BitVec.ofNat 4 ((off - 0x040) / 4))
  else if off < 0x090 then .taplen (BitVec.ofNat 2 ((off - 0x080) / 4))
  else if off < 0x400 then .reserved
  else if off < 0x1400 then
    .taps (BitVec.ofNat 2 (off / 0x400 - 1)) (BitVec.ofNat 8 (off % 0x400 / 4))
  else .reserved

/-- The word number of a register (the same map, the other way; a reserved word has none). -/
def Reg.addr? : Reg → Option PortAddr
  | .cmd => some 0x000#11
  | .status => some 0x001#11
  | .errflags => some 0x002#11
  | .lasterr => some 0x003#11
  | .factor => some 0x004#11
  | .latency => some 0x005#11
  | .latOs => some 0x006#11
  | .eps => some 0x007#11
  | .shape => some 0x008#11
  | .epsa => some 0x009#11
  | .xprev => some 0x00A#11
  | .adprev => some 0x00B#11
  | .x => some 0x00C#11
  | .y => some 0x00D#11
  | .v i => some (BitVec.ofNat 11 (0x010 + i.toNat))
  | .taplen st => some (BitVec.ofNat 11 (0x020 + st.toNat))
  | .taps st i => some (BitVec.ofNat 11 (0x100 * (st.toNat + 1) + i.toNat))
  | .reserved => none

/-- The word number of CMD. -/
def cmdAddr : PortAddr := 0#11

/-- The value of a register as the host reads it, res0 bits as zero (rules R62, R67). -/
def State.readReg (s : State) : Reg → Word
  | .cmd => s.cmd
  | .status => s.status
  | .errflags => s.errflags
  | .lasterr => s.lasterr
  | .factor => s.factor.setWidth 32
  | .latency => s.latency
  | .latOs => s.latOs
  | .eps => s.eps
  | .shape => s.shape.code.setWidth 32
  | .epsa => s.epsa
  | .xprev => s.xprev
  | .adprev => s.adprev
  | .x => s.x
  | .y => s.y
  | .v i => s.readV i
  | .taplen st => (s.tapLength st).setWidth 32
  | .taps st i => s.tapWord st.toNat i.toNat
  | .reserved => 0#32

/-- `HostRead(4 a)` (rule R62). -/
def State.hostRead (s : State) (a : PortAddr) : Word := s.readReg (regAt a)

/-- The byte at byte address `at_` of the channel's window, little-endian (rule R65). -/
def State.byteAt (s : State) (at_ : Nat) : Byte :=
  (s.hostRead (BitVec.ofNat 11 (at_ / 4))).extractLsb' (8 * (at_ % 4)) 8

/-- A host write to a register, before any command runs: RW registers take the value in their writable
bits, ERRFLAGS clears the bits written as 1, RO registers and reserved words ignore it (rules R23, R63,
R67). -/
def State.writeReg (s : State) (v : Word) : Reg → State
  | .cmd => { s with cmd := v }
  | .status => s
  | .errflags => s.clearErrors v
  | .lasterr => s
  | .factor => s
  | .latency => s
  | .latOs => s
  | .eps => { s with eps := v }
  | .shape => s
  | .epsa => s
  | .xprev => s
  | .adprev => s
  | .x => { s with x := v }
  | .y => { s with y := v }
  | .v i => s.writeV i v
  | .taplen st => { s with taplen := s.taplen.set st.toNat (v.setWidth 16) st.isLt }
  | .taps st i => { s with taps := Memory.setWord s.taps (tapOffset st.toNat i.toNat) v }
  | .reserved => s

/-- The part of `HostWrite(4 a, v)` that is the write itself (rule R63). -/
def State.hostWrite (s : State) (a : PortAddr) (v : Word) : State := s.writeReg v (regAt a)

end Sys2Proof.Machine
end

