-- ==== Sys2Proof/Machine/Serve.lean ====
section
/-! DEFINITION. How one event of the port is served (rules R13, R62, R63, R91, R270). -/

namespace Sys2Proof.Machine

/-- A word written to CMD (rule R91): step 1 records it, steps 2 to 4 decode it, step 5 runs it. -/
def runCommand (w : Word) (s : State) : Host.Outcome State Fault Refusal :=
  let s1 := { s with cmd := w }
  match decode w with
  | .ok i => exec i s1
  | .error _ => rejected s1 .illegalCommand

/-- Serve one event: a read answers and changes nothing else (rule R62), a write to CMD runs a command,
any other write is the write alone (rule R63), RESET puts the channel in its reset state (rule R270). -/
def serve (e : PortEvent) (s : State) : Host.Outcome State Fault Refusal :=
  match e with
  | .read a => .next { s with answers := s.hostRead a :: s.answers }
  | .write a v => if a = cmdAddr then runCommand v s else .next (s.hostWrite a v)
  | .reset => .next s.resetInput

/-- Take the host's next event, if it has one; between accesses the core holds its state (rules R13,
R264; log 3, 11). -/
def serveNext (s : State) : Host.Outcome State Fault Refusal :=
  match s.pending with
  | [] => .next s
  | e :: rest => serve e { s with pending := rest }

/-- The event by which the host hands over a command word (rules R22, R71). -/
def commandEvent (nbits w : Nat) : PortEvent := .write cmdAddr (BitVec.ofNat 32 (w % 2 ^ nbits))

end Sys2Proof.Machine
end

