-- ==== Sys2Proof/Machine/Step.lean ====
section
/-! DEFINITION. One step of the hardware is one host access (rule R13). -/

namespace Sys2Proof.Machine

/-- One step: the next event of the port is served, wholly (rules R13, R69). -/
def step (s : State) : Host.Outcome State Fault Refusal := serveNext s

/-- The same state with the host about to write this command word to CMD, before anything else it had
pending: there is no program counter and no fetch, a word takes effect when it is written to CMD (rules
R22, R71; log 3). -/
def State.withFetchWord (s : State) (nbits w : Nat) : State :=
  { s with pending := commandEvent nbits w :: s.pending }

end Sys2Proof.Machine
end

