-- ==== Sys2Proof/Machine/Device.lean ====
section
/-! DEFINITION. A device of several channels behind one address window (rules R66, R234, R262, R270). -/

namespace Sys2Proof.Machine

/-- `NCH` channels that share nothing (rule R262). -/
structure Device where
  channels : List State
deriving DecidableEq, Repr

/-- All channels start in the reset state together, each with its own number (rule R262). -/
def Device.reset (nch : Nat) : Device :=
  { channels := (List.range nch).map fun c => { State.reset with channel := c } }

/-- Channel c stands at base 0x2000 c (rules R66, R262). -/
def channelOf (address : Nat) : Nat := address / 0x2000

/-- The word number inside the channel's window; the low two bits are not carried (rule R66). -/
def portAddrOf (address : Nat) : PortAddr := BitVec.ofNat 11 (address % 0x2000 / 4)

/-- What one channel's port takes: the two accesses (rules R61 to R63). `RESET` is no access and no one
channel's (rule R270). -/
inductive Access where
  | read (a : PortAddr)
  | write (a : PortAddr) (v : Word)
deriving DecidableEq, Repr

/-- The access as an event of its channel. -/
def Access.event : Access → PortEvent
  | .read a => .read a
  | .write a v => .write a v

/-- One access to the channel c: only its own state is read or written (rules R234, R262). An address
outside every window faults (log 19). -/
def Device.serveAt (D : Device) (c : Nat) (e : Access) : Host.Outcome Device Fault Refusal :=
  match D.channels[c]? with
  | none => .fault .noSuchChannel
  | some s =>
    match serve e.event s with
    | .next s' => .next { channels := D.channels.set c s' }
    | .fault r => .fault r
    | .refused r => .refused r

/-- `HostRead` at a device address. -/
def Device.read (D : Device) (address : Nat) : Host.Outcome Device Fault Refusal :=
  D.serveAt (channelOf address) (.read (portAddrOf address))

/-- `HostWrite` at a device address. -/
def Device.write (D : Device) (address : Nat) (v : Word) : Host.Outcome Device Fault Refusal :=
  D.serveAt (channelOf address) (.write (portAddrOf address) v)

/-- The one RESET input, common to all channels: each is in its reset state when it is released, and no
channel can be reset without the others (rules R262, R270). -/
def Device.resetInput (D : Device) : Device :=
  { channels := D.channels.map State.resetInput }

/-- What can reach a device from outside: an access at a device address, or the RESET input. -/
inductive DeviceEvent where
  | read (address : Nat)
  | write (address : Nat) (v : Word)
  | reset
deriving DecidableEq, Repr

/-- One step of a device (rules R13, R66, R262, R270). -/
def Device.serveEvent (D : Device) : DeviceEvent → Host.Outcome Device Fault Refusal
  | .read address => D.read address
  | .write address v => D.write address v
  | .reset => .next D.resetInput

end Sys2Proof.Machine
end

