-- ==== Sys2Proof/Machine/Strict.lean ====
section
/-! DEFINITION. The spec's own view of a model at its edges: the step that stops with a fault where rules R128 and R271 say that a model faults (log 1, 2). `step` goes on there, as the hardware does. -/

namespace Sys2Proof.Machine

/-- All four bytes of `TAPS[st][i]` have been written since reset (rule R32). -/
def State.tapWritten (s : State) (st i : Nat) : Bool :=
  (List.range 4).all fun j => (Memory.byte? s.taps (tapOffset st i + j)).isSome

/-- Some of the first `n` words of `TAPS[st]` has not been written since reset. -/
def State.tapsMissing (s : State) (st n : Nat) : Bool :=
  (List.range n).any fun i => !s.tapWritten st i

/-- An accepted `SETF imm8` would take a staging word that nothing has written (rule R183, U8). -/
def State.setfMissing (s : State) (imm8 : Byte) : Bool :=
  match stageCount? imm8 with
  | none => false
  | some count =>
    (s.firstBadStage count).isNone &&
      (List.range count).any fun j => s.tapsMissing j (s.tapLength (BitVec.ofNat 2 j)).toNat

/-- Whether running a command word takes an unwritten staging word: only `SETF` reads TAPS (rule R71). -/
def State.commandMissing (s : State) (w : Word) : Bool :=
  match decode w with
  | .ok (.setf imm8) => s.setfMissing imm8
  | .ok (.shinit _) | .ok (.push _ _ _ _) | .ok (.conv _ _ _ _ _) | .ok (.stup _ _ _)
  | .ok (.stdn _ _ _) | .ok .ups | .ok .dns | .ok (.shp _ _) | .ok .proc => false
  | .error _ => false

/-- Whether serving an event takes an unwritten staging word (rule R271, U8). -/
def State.eventMissing (s : State) : PortEvent → Bool
  | .read a =>
    match regAt a with
    | .taps st i => !s.tapWritten st.toNat i.toNat
    | .cmd | .status | .errflags | .lasterr | .factor | .latency | .latOs | .eps | .shape | .epsa
    | .xprev | .adprev | .x | .y | .v _ | .taplen _ | .reserved => false
  | .write a v => a = cmdAddr && s.commandMissing v
  | .reset => false

/-- One step as the spec's own model takes it: a fault when the event takes an unwritten staging word
(rule R271, U8) or runs a processing command outside the finite domain (rule R128, U1 to U3), else
`step`. A command has left the domain exactly when it used a free word. -/
def strictStep (s : State) : Host.Outcome State Fault Refusal :=
  if s.pending.head?.any s.eventMissing then .fault .unwrittenTaps
  else
    match step s with
    | .next t => if t.free = s.free then .next t else .fault .outsideDomain
    | .fault r => .fault r
    | .refused r => .refused r

end Sys2Proof.Machine
end

