-- ==== Sys2Proof/Safety.lean ====
section
/-! DEFINITION. What a good state and a safe run are: the invariants of rules R25, R33 to R35, R131, R211 and R216, and staying inside the finite domain of rule R128. -/

namespace Sys2Proof.Machine

/-- A ring buffer of capacity c: exactly c samples and a cursor in 0 .. c-1 (rule R34). -/
def Ring.wellSized (c : Nat) (B : Ring) : Bool := B.mem.length == c && decide (B.w < c)

/-- The relations between K, C, the tap arrays and the buffers of a built stage (rules R33, R131,
R143). -/
def Stage.valid (g : Stage) : Bool :=
  decide (1 ≤ g.k) && decide (g.k ≤ 64) && g.c == nextPow2 (2 * g.k)
    && g.etaps.length == 2 * g.k - 1 && g.otaps.length == 2 * g.k
    && g.upE.wellSized g.c && g.upO.wellSized g.c && g.dnE.wellSized g.c && g.dnO.wellSized g.c

/-- The two stages have the same K, C and active tap arrays: what only construction writes (rule R33). -/
def Stage.sameFilter (g h : Stage) : Prop :=
  h.k = g.k ∧ h.c = g.c ∧ h.etaps = g.etaps ∧ h.otaps = g.otaps

/-- The two stages have the same upsampling history (rule R165). -/
def Stage.sameUp (g h : Stage) : Prop := h.upE = g.upE ∧ h.upO = g.upO

/-- The two stages have the same downsampling history (rule R165). -/
def Stage.sameDown (g h : Stage) : Prop := h.dnE = g.dnE ∧ h.dnO = g.dnO

/-- What every reachable state satisfies. -/
structure State.Inv (s : State) : Prop where
  /-- S is in 0..4 (rule R33) -/
  few_stages : s.stages.length ≤ Config.sMax
  /-- every built stage is well formed (rules R33, R34) -/
  valid_stages : s.stages.all Stage.valid = true
  /-- OSR is 1 exactly when S > 0 (rule R24) -/
  osr_built : s.osr = !s.stages.isEmpty
  /-- FACTOR is 2^S, or 0 when S = 0 (rules R27, R35) -/
  factor_built : s.factor.toNat = if s.stages.isEmpty then 0 else 2 ^ s.stages.length
  /-- LAT_OS is a function of S and the lengths alone (rules R35, R184) -/
  latOs_built : s.latOs.toNat = latOsOf s.stages
  /-- LATENCY likewise (rules R35, R185) -/
  latency_built : s.latency.toNat = latencyOf (2 ^ s.stages.length) (latOsOf s.stages)
  /-- the res0 bits of ERRFLAGS read zero (rule R25) -/
  errflags_res0 : s.errflags &&& ~~~errflagsMask = 0#32
  /-- LASTERR.CAUSE is 0 or one of the five codes (rule R240) -/
  cause_legal : (s.lasterr.extractLsb' 0 8).toNat ≤ 5
  /-- the threshold in force is finite and not negative (rule R211) -/
  epsa_legal : badEpsilon s.epsa = false
  /-- the staging memory is in its canonical form -/
  taps_canonical : Memory.wf s.taps = true

/-- The tracker invariant (rule R216): after construction ADPREV is the antiderivative at XPREV, bit
for bit. It is lost when the tracker holds unspecified values. -/
def State.TrackerInv (s : State) : Prop := s.wsr = true → s.adprev = shapeAD s.shape s.xprev

/-- The command ran inside the finite domain of rule R128: it used no free value. (Rule R128 has a
model stop where this is false: `strictStep` does, and `step` goes on with free values, as the hardware
does. Log 1.) -/
def stayedInDomain (s t : State) : Prop := t.free = s.free

/-- A step that stays in the finite domain. -/
def SafeStep (s : State) : Prop := ∃ t, step s = .next t ∧ stayedInDomain s t

/-- k steps one after another. -/
def runSteps : Nat → State → Host.Outcome State Fault Refusal
  | 0, s => .next s
  | k + 1, s =>
    match step s with
    | .next t => runSteps k t
    | .fault r => .fault r
    | .refused r => .refused r

/-- Several commands one after another, without their words: each sees the state the one before left. -/
def runCommands : List Instr → State → Host.Outcome State Fault Refusal
  | [], s => .next s
  | i :: is, s =>
    match exec i s with
    | .next t => runCommands is t
    | .fault r => .fault r
    | .refused r => .refused r

/-- Several command words written to CMD one after another (rule R22). -/
def runWords : List Word → State → Host.Outcome State Fault Refusal
  | [], s => .next s
  | w :: ws, s =>
    match runCommand w s with
    | .next t => runWords ws t
    | .fault r => .fault r
    | .refused r => .refused r

end Sys2Proof.Machine
end

