-- ==== Sys2Proof/Certificates/Slice0/Obligations.lean ====
section
/-! DEFINITION. The statements for the provers, taken from the spec's numbered rules. -/

open Sys2Proof Sys2Proof.Machine Host

namespace Sys2Proof.Stated

/-- What rule R96 lists as illegal: no row of the opcode map matches, or the register pair of `STUP` or
`STDN` would run past V15. -/
def IllegalWord (w : Word) : Prop :=
  (∀ row ∈ opcodeMap, w &&& row.mask ≠ row.pattern) ∨
    (w &&& 0xFF9FF0F0#32 = 0x12000000#32 ∧ w.extractLsb' 8 4 = 15#4) ∨
    (w &&& 0xFF9FF0F0#32 = 0x13000000#32 ∧ w.extractLsb' 0 4 = 15#4)

/-- Rule R121's words for num/den units of 2^-149 (den > 0): r is the nearest finite value, the even one
of two equally near; from half a last place past the greatest finite value on, the infinity of that
sign. -/
def RoundsTo (num den : Int) (r : Word) : Prop :=
  (|num| < den * ((2 ^ 25 - 1) * 2 ^ 252) →
    isfinite r = true ∧ ∀ c : Word, isfinite c = true →
      |num - den * units r| ≤ |num - den * units c| ∧
      (|num - den * units r| = |num - den * units c| →
        units c = units r ∨ r.getLsbD 0 = false)) ∧
  (den * ((2 ^ 25 - 1) * 2 ^ 252) ≤ |num| →
    r = if num < 0 then 0xFF800000#32 else 0x7F800000#32)

/-- Lane j of rule R142 after the first n terms: the terms k < n with k mod 4 = j, by rising k. -/
def laneSum (c : Nat) (B : Ring) (T : List Word) (n j : Nat) : Word :=
  ((List.range n).filter fun k => k % 4 = j).foldl
    (fun acc k => fadd acc (fmul (T.getD k 0#32) (B.tap c k))) 0#32

/-- The three final sums of rule R142, lane 0 first. -/
def laneTotal (c : Nat) (B : Ring) (T : List Word) : Nat → Word
  | 0 => laneSum c B T T.length 0
  | m + 1 => fadd (laneTotal c B T m) (laneSum c B T T.length (m + 1))

/-- Rule R182's test of one staged length. -/
def BadLength (n : Nat) : Prop := n < 3 ∨ n > 255 ∨ n % 4 ≠ 3

/-- TAPLEN[j] as a number. -/
def stagedLength (s : State) (j : Nat) : Nat := (s.taplen.toList.getD j 0#16).toNat

/-- K[j] as `SETF` takes it from staging (rule R183). -/
def stagedK (s : State) (j : Nat) : Nat := (stagedLength s j + 1) / 4

/-- Stage j as rule R183 builds it. -/
def builtStage (s : State) (j : Nat) : Stage :=
  { k := stagedK s j
    c := nextPow2 (2 * stagedK s j)
    otaps := (List.range (2 * stagedK s j)).map fun k => s.tapWord j (2 * k)
    etaps := (List.range (2 * stagedK s j - 1)).map fun k => s.tapWord j (2 * k + 1)
    upE := ⟨List.replicate (nextPow2 (2 * stagedK s j)) 0#32, 0⟩
    upO := ⟨List.replicate (nextPow2 (2 * stagedK s j)) 0#32, 0⟩
    dnE := ⟨List.replicate (nextPow2 (2 * stagedK s j)) 0#32, 0⟩
    dnO := ⟨List.replicate (nextPow2 (2 * stagedK s j)) 0#32, 0⟩ }

/-- LAT_OS by rule R184, from the staged lengths: M[j] 2^(S - j) summed. -/
def stagedLatOs (s : State) (n : Nat) : Nat :=
  ((List.range n).map fun j => (stagedLength s j - 1) / 2 * 2 ^ (n - j)).sum

/-- A word of the map that ignores writes: the RO registers and the reserved offsets (rules R66, R67). -/
def IgnoresWrites (a : PortAddr) : Prop :=
  let off := 4 * a.toNat
  off = 0x004 ∨ (0x00C ≤ off ∧ off ≤ 0x018) ∨ (0x020 ≤ off ∧ off ≤ 0x02C) ∨
    (0x038 ≤ off ∧ off ≤ 0x03C) ∨ (0x090 ≤ off ∧ off ≤ 0x3FC) ∨ 0x1400 ≤ off

/-- Rule R163 in its own words: one call of `stage_up` inside the finite domain takes g to g' and a to
(o0, o1). -/
def StageUpCall (g : Stage) (a : Word) (g' : Stage) (o0 o1 : Word) : Prop :=
  isfinite a = true ∧ g' = { g with upE := g.upE.push g.c a, upO := g.upO.push g.c a } ∧
    o0 = g'.upE.tap g.c g.k ∧ isfinite o0 = true ∧
    ∃ q, g'.upO.convolve? g.c g.otaps = some q ∧ o1 = fmul 0x40000000#32 q ∧ isfinite o1 = true

/-- Rule R164 in its own words: one call of `stage_down` inside the finite domain takes g to g' and
(a0, a1) to y. -/
def StageDownCall (g : Stage) (a0 a1 : Word) (g' : Stage) (y : Word) : Prop :=
  isfinite a0 = true ∧ isfinite a1 = true ∧
    g' = { g with dnE := g.dnE.push g.c a0, dnO := g.dnO.push g.c a1 } ∧
    ∃ e o, g'.dnE.convolve? g.c g.etaps = some e ∧ g'.dnO.convolve? g.c g.otaps = some o ∧
      y = fadd e o ∧ isfinite y = true

/-- The two loops of rule R187 inside the finite domain: G i j is stage i after j calls, L i j is sample j
of level i, level 0 being X and level S the frame. -/
def UpsCalls (stages : List Stage) (x : Word) (G : Nat → Nat → Stage) (L : Nat → Nat → Word) : Prop :=
  (∀ i < stages.length, stages[i]? = some (G i 0)) ∧ L 0 0 = x ∧
    ∀ i < stages.length, ∀ j < 2 ^ i,
      StageUpCall (G i j) (L i j) (G i (j + 1)) (L (i + 1) (2 * j)) (L (i + 1) (2 * j + 1))

/-- The two loops of rule R188 inside the finite domain: level S is the frame, level 0 is Y. -/
def DnsCalls (stages : List Stage) (frame : List Word) (G : Nat → Nat → Stage)
    (L : Nat → Nat → Word) : Prop :=
  (∀ i < stages.length, stages[i]? = some (G i 0)) ∧
    (∀ r < 2 ^ stages.length, frame[r]? = some (L stages.length r)) ∧
    ∀ i < stages.length, ∀ j < 2 ^ i,
      StageDownCall (G i j) (L (i + 1) (2 * j)) (L (i + 1) (2 * j + 1)) (G i (j + 1)) (L i j)

/-- Rule R132 inside the finite domain: `shape_AD v (x)` is ad. For `IDENT` it is fmul(0.5, fmul(x, x)),
its inner product an intermediate result; for the others an open parameter (log 5). -/
def ShapeADCall (v : Variant) (x ad : Word) : Prop :=
  isfinite x = true ∧ isfinite ad = true ∧
    match v with
    | .ident => isfinite (fmul x x) = true ∧ ad = fmul 0x3F000000#32 (fmul x x)
    | .soft => ad = Config.shapeADOpen .soft x
    | .tanh => ad = Config.shapeADOpen .tanh x
    | .diode => ad = Config.shapeADOpen .diode x

/-- Rule R132 inside the finite domain: `shape_f v (x)` is y. For `IDENT` it is x itself; for the others
an open parameter (log 5). -/
def ShapeFCall (v : Variant) (x y : Word) : Prop :=
  isfinite x = true ∧ isfinite y = true ∧
    match v with
    | .ident => y = x
    | .soft => y = Config.shapeFOpen .soft x
    | .tanh => y = Config.shapeFOpen .tanh x
    | .diode => y = Config.shapeFOpen .diode x

/-- Rule R213 inside the finite domain, its path chosen by the exact values (rules R124, R125): one step
on x takes the tracker k to k' and gives y. ADPREV is read on the quotient path only (log 8). -/
def AdaaCall (v : Variant) (epsa : Word) (k : Tracker) (x : Word) (k' : Tracker) (y : Word) : Prop :=
  let dx := fsub x k.xprev
  let mid := fmul 0x3F000000#32 (fadd x k.xprev)
  isfinite epsa = true ∧ isfinite k.xprev = true ∧ isfinite dx = true ∧ isfinite y = true ∧
    k'.xprev = x ∧ ShapeADCall v x k'.adprev ∧
    ((units epsa < |units dx| ∧ units dx ≠ 0 ∧ isfinite k.adprev = true ∧
        isfinite (fsub k'.adprev k.adprev) = true ∧ y = fdiv (fsub k'.adprev k.adprev) dx) ∨
      (|units dx| ≤ units epsa ∧ isfinite (fadd x k.xprev) = true ∧ ShapeFCall v mid y))

/-- XPREV and ADPREV of the state. -/
def trackerOf (s : State) : Tracker := { xprev := s.xprev, adprev := s.adprev }

/-- Rule R230 inside the finite domain: the loops of R187 from X, one step of R213 on each sample of the
frame, earliest first, and the loops of R188 on what they give. -/
def ProcCalls (s : State) : Prop :=
  ∃ (G H : Nat → Nat → Stage) (L M : Nat → Nat → Word) (k : Nat → Tracker) (z : Nat → Word),
    UpsCalls s.stages s.x G L ∧ k 0 = trackerOf s ∧
    (∀ r < 2 ^ s.stages.length,
      AdaaCall s.shape s.epsa (k r) (L s.stages.length r) (k (r + 1)) (z r)) ∧
    DnsCalls ((List.range s.stages.length).map fun i => G i (2 ^ i))
      ((List.range (2 ^ s.stages.length)).map z) H M

/-- Rule R128 for `convolve`: every operand, product, partial lane sum and final sum is finite. -/
def ConvolveFinite (c : Nat) (B : Ring) (T : List Word) : Prop :=
  (∀ k < T.length, isfinite (T.getD k 0#32) = true ∧ isfinite (B.tap c k) = true ∧
    isfinite (fmul (T.getD k 0#32) (B.tap c k)) = true) ∧
  (∀ n ≤ T.length, ∀ j < 4, isfinite (laneSum c B T n j) = true) ∧
  (∀ m ≤ 3, isfinite (laneTotal c B T m) = true)

/-- The `STUP` commands that `UPS` spells for S = 1, 2, 3, X standing in V8 (T31 for S = 2). -/
def stupSequence : Nat → List Instr
  | 1 => [.stup 0#2 0#4 8#4]
  | 2 => [.stup 0#2 8#4 8#4, .stup 1#2 0#4 8#4, .stup 1#2 2#4 9#4]
  | 3 => [.stup 0#2 8#4 8#4, .stup 1#2 10#4 8#4, .stup 1#2 12#4 9#4, .stup 2#2 0#4 10#4,
      .stup 2#2 2#4 11#4, .stup 2#2 4#4 12#4, .stup 2#2 6#4 13#4]
  | _ => []

/-- The `STDN` commands that `DNS` spells for S = 1, 2, 3, and the register that then holds Y (T31 for
S = 2). -/
def stdnSequence : Nat → List Instr × VReg
  | 1 => ([.stdn 0#2 8#4 0#4], 8#4)
  | 2 => ([.stdn 1#2 8#4 0#4, .stdn 1#2 9#4 2#4, .stdn 0#2 10#4 8#4], 10#4)
  | 3 => ([.stdn 2#2 8#4 0#4, .stdn 2#2 9#4 2#4, .stdn 2#2 10#4 4#4, .stdn 2#2 11#4 6#4,
      .stdn 1#2 12#4 8#4, .stdn 1#2 13#4 10#4, .stdn 0#2 14#4 12#4], 14#4)
  | _ => ([], 0#4)

/-- What an accepted `SETF imm8` has: a legal factor 2^n and good lengths in the stages it needs (rule
R182). -/
def AcceptedFactor (s : State) (imm8 : Byte) (n : Nat) : Prop :=
  1 ≤ n ∧ n ≤ 4 ∧ imm8.toNat = 2 ^ n ∧ ∀ j < n, ¬ BadLength (stagedLength s j)

/-- The events that push into buf(d,st,b), and those that build it anew: an accepted `SETF` and RESET
(rules R33, R147, R163, R164, R183, R187, R188, R230). -/
def DisturbsBuffer (s : State) (d : Dir) (st : StageIx) (b : Branch) : PortEvent → Prop
  | .read _ => False
  | .reset => True
  | .write a w => a = 0#11 ∧ ∃ i, decode w = .ok i ∧
    match i with
    | .push d' st' b' _ => d' = d ∧ st' = st ∧ b' = b
    | .stup st' _ _ => d = .up ∧ st' = st
    | .stdn st' _ _ => d = .down ∧ st' = st
    | .ups => d = .up ∧ s.osr = true
    | .dns => d = .down ∧ s.osr = true
    | .proc => s.osr = true ∧ s.wsr = true
    | .setf imm8 => ∃ n, AcceptedFactor s imm8 n
    | .shinit _ | .conv _ _ _ _ _ | .shp _ _ => False

/-- The events are served one after another from s to t and none of them disturbs buf(d,st,b). -/
def QuietRun (d : Dir) (st : StageIx) (b : Branch) : List PortEvent → State → State → Prop
  | [], s, t => t = s
  | e :: es, s, t => ¬ DisturbsBuffer s d st b e ∧ ∃ u, serve e s = .next u ∧ QuietRun d st b es u t

/-- The command is accepted and is outside its finite domain: it is one of the seven processing commands
and the calls of its rule, each value read or made finite, do not exist (rule R128). Which values count as
read rests on log 8, and `SHINIT` is not among the seven (log 17). -/
def OutsideDomain (s : State) : Instr → Prop
  | .conv d st b tb _ =>
    ∃ g, s.stages[st.toNat]? = some g ∧ ¬ ConvolveFinite g.c (g.ring d b) (g.taps tb)
  | .stup st _ va => ∃ g, s.stages[st.toNat]? = some g ∧
    ¬ ∃ g' o0 o1, StageUpCall g (s.readV va) g' o0 o1
  | .stdn st _ va => ∃ g, s.stages[st.toNat]? = some g ∧
    ¬ ∃ g' y, StageDownCall g (s.readV va) (s.readV (va + 1#4)) g' y
  | .ups => s.osr = true ∧ ¬ ∃ G L, UpsCalls s.stages s.x G L
  | .dns => s.osr = true ∧ ¬ ∃ G L, DnsCalls s.stages s.v.toList G L
  | .shp _ va => s.wsr = true ∧ ¬ ∃ k y, AdaaCall s.shape s.epsa (trackerOf s) (s.readV va) k y
  | .proc => s.osr = true ∧ s.wsr = true ∧ ¬ ProcCalls s
  | .setf _ | .shinit _ | .push _ _ _ _ => False

/-- The event reads a staging byte that nothing has written since reset: a host read of a TAPS word, or an
accepted `SETF` (U8). -/
def ReadsUnwritten (s : State) : PortEvent → Prop
  | .read a => 0x100 ≤ a.toNat ∧ a.toNat < 0x500 ∧
    ∃ k < 4, Memory.byte? s.taps (4 * a.toNat + k) = none
  | .write a w => a = 0#11 ∧ ∃ imm8 n, decode w = .ok (.setf imm8) ∧ AcceptedFactor s imm8 n ∧
    ∃ j < n, ∃ i < stagedLength s j, ∃ k < 4,
      Memory.byte? s.taps (0x400 * (j + 1) + 4 * i + k) = none
  | .reset => False

/-- The nine accesses of `RecoveryByAccesses`: EPS, `SHINIT IDENT`, TAPLEN0 = 3 and its three words,
`SETF 2`, X, ERRFLAGS. -/
def recovery : List PortEvent :=
  [.write 0x007#11 0#32, .write 0x000#11 0x02000003#32, .write 0x020#11 3#32,
    .write 0x100#11 0x3E800000#32, .write 0x101#11 0x3F000000#32, .write 0x102#11 0x3E800000#32,
    .write 0x000#11 0x01000002#32, .write 0x00C#11 0#32, .write 0x002#11 0x0000003E#32]

end Sys2Proof.Stated

open Sys2Proof.Stated

/-! ### The command word -/

/-- Rules R91, R93, R95: decoding the word of a well-formed command gives it back, for every operand. -/
def Obligations.DecodeEncodeAgree : Prop :=
  ∀ i : Instr, i.wellFormed = true → decode (encode i) = .ok i

/-- Rules R91, R93: a word that decodes is the word of exactly the command it decodes to, and that
command is well formed. -/
def Obligations.EncodeDecodeAgree : Prop :=
  ∀ (w : Word) (i : Instr), decode w = .ok i → encode i = w ∧ i.wellFormed = true

/-- Rules R91, R95, R96: the decoder, which follows R91's steps, accepts exactly the words that R95's
match and mask columns accept, less the two register pairs. -/
def Obligations.DecoderMatchesOpcodeMap : Prop :=
  ∀ w : Word, (∃ i, decode w = .ok i) ↔ ¬ IllegalWord w

/-- Rule R97: its worked encodings. -/
def Obligations.WorkedEncodings : Prop :=
  decode 0x01000002#32 = .ok (.setf 2#8) ∧ decode 0x01000010#32 = .ok (.setf 16#8) ∧
  decode 0x02000003#32 = .ok (.shinit .ident) ∧
  decode 0x10000003#32 = .ok (.push .up 0#2 .even 3#4) ∧
  decode 0x10B00005#32 = .ok (.push .down 1#2 .odd 5#4) ∧
  decode 0x11B00200#32 = .ok (.conv .down 1#2 .odd .even 2#4) ∧
  decode 0x11B80200#32 = .ok (.conv .down 1#2 .odd .odd 2#4) ∧
  decode 0x12000200#32 = .ok (.stup 0#2 2#4 0#4) ∧
  decode 0x12200402#32 = .ok (.stup 1#2 4#4 2#4) ∧
  decode 0x13000002#32 = .ok (.stdn 0#2 0#4 2#4) ∧
  decode 0x22000101#32 = .ok (.shp 1#4 1#4)

/-! ### The step and the port -/

/-- Rules R13, R91: when the next event is a write to CMD of a word that decodes to i, the step records
the word and is exec of i. (The queue is the model's own, log 3.) -/
def Obligations.StepRunsDecodedCommand : Prop :=
  ∀ (s : State) (w : Word) (rest : List PortEvent) (i : Instr),
    s.pending = .write 0#11 w :: rest → decode w = .ok i →
    i.wellFormed = true ∧ step s = exec i { s with pending := rest, cmd := w }

/-- Rule R96: every illegal word, the all-zero and the all-ones word among them, is rejected with
IllegalCommand and changes CMD, ERRFLAGS and LASTERR only; every other word is a command. -/
def Obligations.IllegalWordsRejected : Prop :=
  IllegalWord 0x00000000#32 ∧ IllegalWord 0xFFFFFFFF#32 ∧
  (∀ w : Word, ¬ IllegalWord w → ∃ i, decode w = .ok i ∧ encode i = w) ∧
  ∀ (s : State) (w : Word) (rest : List PortEvent), s.pending = .write 0#11 w :: rest →
    IllegalWord w →
    step s = .next { s with
      pending := rest, cmd := w, errflags := s.errflags ||| 0x00000008#32,
      lasterr := 0x00000003#32 }

/-- Rules R62, R66: what a host read returns at each offset of the map, and that a read changes nothing
of the core: the answer is handed over and the event is gone. (The queue and the answers are the model's
own, log 3; that a read of an unwritten TAPS word goes on, with an unknown value, is the model's choice,
log 2: rule R271 and U8 call it a fault of the model.) -/
def Obligations.HostReadFollowsMap : Prop :=
  (∀ (s : State) (a : PortAddr) (rest : List PortEvent), s.pending = .read a :: rest →
    step s = .next { s with pending := rest, answers := s.hostRead a :: s.answers }) ∧
  ∀ s : State,
    s.hostRead 0x000#11 = s.cmd ∧
    s.hostRead 0x001#11 = BitVec.ofNat 32 (s.osr.toNat + 2 * s.wsr.toNat) ∧
    s.hostRead 0x002#11 = s.errflags ∧ s.hostRead 0x003#11 = s.lasterr ∧
    s.hostRead 0x004#11 = BitVec.ofNat 32 s.factor.toNat ∧
    s.hostRead 0x005#11 = s.latency ∧ s.hostRead 0x006#11 = s.latOs ∧
    s.hostRead 0x007#11 = s.eps ∧
    s.hostRead 0x008#11 = BitVec.ofNat 32 s.shape.code.toNat ∧
    s.hostRead 0x009#11 = s.epsa ∧ s.hostRead 0x00A#11 = s.xprev ∧
    s.hostRead 0x00B#11 = s.adprev ∧ s.hostRead 0x00C#11 = s.x ∧ s.hostRead 0x00D#11 = s.y ∧
    (∀ i : Fin 16, s.hostRead (BitVec.ofNat 11 ((0x040 + 4 * i.val) / 4)) = s.v[i]) ∧
    (∀ j : Fin 4, s.hostRead (BitVec.ofNat 11 ((0x080 + 4 * j.val) / 4))
      = BitVec.ofNat 32 s.taplen[j].toNat) ∧
    (∀ (j : Fin 4) (i : Fin 256),
      s.hostRead (BitVec.ofNat 11 ((0x400 * (j.val + 1) + 4 * i.val) / 4))
        = s.tapWordAt (0x400 * (j.val + 1) + 4 * i.val)) ∧
    (∀ a : PortAddr, (a.toNat = 0x00E ∨ a.toNat = 0x00F ∨ (0x024 ≤ a.toNat ∧ a.toNat < 0x100) ∨
      0x500 ≤ a.toNat) → s.hostRead a = 0#32)

/-- Rules R63, R25, R32: a host write other than to CMD is one step; the word written reads back in its
writable bits, every other word of the map and the whole oversampler are as before. (Where the other word
is a TAPS word never written, that it holds still is the model's choice, log 2.) -/
def Obligations.HostWriteReachesOnlyItsWord : Prop :=
  (∀ (s : State) (a : PortAddr) (v : Word) (rest : List PortEvent),
    s.pending = .write a v :: rest → a ≠ 0#11 →
    step s = .next (({ s with pending := rest } : State).hostWrite a v)) ∧
  ∀ (s : State) (a : PortAddr) (v : Word),
    (s.hostWrite a v).stages = s.stages ∧ (s.hostWrite a v).free = s.free ∧
    (∀ b : PortAddr, b ≠ a → (s.hostWrite a v).hostRead b = s.hostRead b) ∧
    (s.hostWrite a v).hostRead a =
      match regAt a with
      | .cmd | .eps | .x | .y | .v _ | .taps _ _ => v
      | .taplen _ => v &&& 0x0000FFFF#32
      | .errflags => s.errflags &&& ~~~v
      | .status | .lasterr | .factor | .latency | .latOs | .shape | .epsa | .xprev | .adprev
      | .reserved => s.hostRead a

/-- Rules R63, R67: a write to a read-only register or to a reserved offset changes nothing and raises
no error. -/
def Obligations.ReadOnlyAndReservedIgnoreWrites : Prop :=
  ∀ (s : State) (a : PortAddr) (v : Word) (rest : List PortEvent),
    s.pending = .write a v :: rest → IgnoresWrites a → step s = .next { s with pending := rest }

/-- Rule R25: nothing but a host write to ERRFLAGS or a reset clears a bit of ERRFLAGS. -/
def Obligations.ErrorFlagsAreSticky : Prop :=
  ∀ s t : State, step s = .next t →
    (∀ v rest, s.pending ≠ .write 0x002#11 v :: rest) → (∀ rest, s.pending ≠ .reset :: rest) →
    s.errflags &&& ~~~t.errflags = 0#32

/-- Rule R264: with no access to serve, the core holds its state. (That a step with an empty queue is a
step at all is the model's choice, log 11.) -/
def Obligations.IdleCoreHolds : Prop :=
  ∀ s : State, s.pending = [] → step s = .next s

/-- Rules R91, R243: every step and every command ends in a next state, in every state. (That is the
model's choice outside the finite domain, log 1, on a read of unwritten staging, log 2, and with an empty
queue, log 11; `strictStep` faults in the first two. The commands include the pairs that run past V15, log
14.) -/
def Obligations.EveryAccessCompletes : Prop :=
  (∀ s : State, ∃ t, step s = .next t) ∧ ∀ (i : Instr) (s : State), ∃ t, exec i s = .next t

/-! ### Reset -/

/-- Rule R39: the table of reset values, every row; no byte of TAPS has been written. -/
def Obligations.ResetStateIsTheTable : Prop :=
  let s := State.reset
  s.x = 0#32 ∧ s.y = 0#32 ∧ (∀ r : VReg, s.readV r = 0#32) ∧ s.cmd = 0#32 ∧ s.osr = false ∧
  s.wsr = false ∧ s.errflags = 0#32 ∧ s.lasterr = 0#32 ∧ s.factor = 0#5 ∧ s.latency = 0#32 ∧
  s.latOs = 0#32 ∧ s.eps = 0#32 ∧ s.shape.code = 0#2 ∧ s.epsa = 0#32 ∧ s.xprev = 0#32 ∧
  s.adprev = 0#32 ∧ (∀ j : Fin 4, s.taplen[j] = 0#16) ∧
  (∀ a, Memory.byte? s.taps a = none) ∧ s.stages = []

/-- Rule R271: straight after reset every word of the map but TAPS reads 0. -/
def Obligations.ResetReadsZero : Prop :=
  ∀ a : PortAddr, ¬ (0x100 ≤ a.toNat ∧ a.toNat < 0x500) → State.reset.hostRead a = 0#32

/-- Rules R270, R271: a pulse of RESET leaves, from any state, the spec's reset state; the model's own
queue goes on, and the staging words are unknown anew (log 9). -/
def Obligations.ResetInputRestoresReset : Prop :=
  ∀ (s : State) (rest : List PortEvent), s.pending = .reset :: rest →
    step s = .next { State.reset with
      pending := rest, answers := s.answers, free := s.free, epoch := s.epoch + 1,
      channel := s.channel }

/-! ### Invariants -/

/-- Rules R24, R27, R33 to R35, R39: the reset state satisfies the invariant. -/
def Obligations.ResetMeetsInvariant : Prop := State.reset.Inv ∧ State.reset.TrackerInv

/-- Rules R25, R33 to R35, R131, R211, R240: every step from every state that satisfies the invariant
gives one that does: buffers keep their sizes and cursors, FACTOR, LAT_OS and LATENCY stay functions of
the chain, res0 bits stay zero, the threshold stays legal, staging stays canonical. (That a command
outside the finite domain goes on, and leaves its cursors in range, rests on log 1 and 6.) -/
def Obligations.InvariantKeptByStep : Prop :=
  ∀ s t : State, s.Inv → step s = .next t → t.Inv

/-- Rule R216: every step that stays in the finite domain, as the model reads it (log 8, 16), keeps
ADPREV = AD(XPREV), bit for bit. (After `SHINIT` it holds whatever AD(+0.0) is, log 17.) -/
def Obligations.TrackerKeepsAntiderivative : Prop :=
  ∀ s t : State, s.TrackerInv → step s = .next t → stayedInDomain s t → t.TrackerInv

/-- Rules R131, R185: LAT_OS and LATENCY stay within their bounds, and LATENCY is the nearest whole
number of base-rate samples, a half rounded up. -/
def Obligations.LatencyIsNearestAndBounded : Prop :=
  ∀ s : State, s.Inv →
    s.latOs.toNat ≤ 3810 ∧ s.latency.toNat ≤ 238 ∧
    (s.osr = true →
      2 * s.factor.toNat * s.latency.toNat ≤ 2 * s.latOs.toNat + s.factor.toNat ∧
      2 * s.latOs.toNat + s.factor.toNat < 2 * s.factor.toNat * (s.latency.toNat + 1))

/-- Rules R24, R27 to R29, R186: only a `SETF` word or a reset can change LATENCY, LAT_OS or FACTOR,
and a rejected `SETF` does not. -/
def Obligations.LatencyChangesOnlyAtConstruction : Prop :=
  ∀ s t : State, step s = .next t → (∀ rest, s.pending ≠ .reset :: rest) →
    (t.latency = s.latency ∧ t.latOs = s.latOs ∧ t.factor = s.factor) ∨
    ∃ imm8 rest, s.pending = .write 0#11 (encode (.setf imm8)) :: rest ∧
      t.errflags = s.errflags ∧ t.lasterr = s.lasterr ∧ t.osr = true

/-! ### Rejection -/

/-- Rule R247: the commands that need a component that is not built, and what LASTERR then holds. (The
`STUP` and `STDN` clause takes in the pairs that run past V15, log 14.) -/
def Obligations.NotConfiguredReported : Prop :=
  ∀ s : State,
    (∀ (st : StageIx) (d : Dir) (b tb : Branch) (r q : VReg), s.stages.length ≤ st.toNat →
      ∀ i ∈ [Instr.push d st b r, .conv d st b tb r, .stup st r q, .stdn st r q],
        exec i s = .next { s with
          errflags := s.errflags ||| 0x00000010#32
          lasterr := BitVec.ofNat 32 (0x00010004 + 0x100 * st.toNat) }) ∧
    (s.osr = false → ∀ i ∈ [Instr.ups, .dns],
      exec i s = .next { s with
        errflags := s.errflags ||| 0x00000010#32, lasterr := 0x00010004#32 }) ∧
    (s.wsr = false → ∀ r q : VReg,
      exec (.shp r q) s = .next { s with
        errflags := s.errflags ||| 0x00000010#32, lasterr := 0x00020004#32 }) ∧
    (s.osr = false ∨ s.wsr = false →
      exec .proc s = .next { s with
        errflags := s.errflags ||| 0x00000010#32
        lasterr := BitVec.ofNat 32 (0x00000004 + 0x10000 * (!s.osr).toNat
          + 0x20000 * (!s.wsr).toNat) })

/-- Rule R245: an unsupported factor is rejected before any length is looked at, and nothing but the
error registers changes. -/
def Obligations.InvalidFactorReported : Prop :=
  ∀ (s : State) (imm8 : Byte),
    imm8.toNat ≠ 2 → imm8.toNat ≠ 4 → imm8.toNat ≠ 8 → imm8.toNat ≠ 16 →
    exec (.setf imm8) s = .next { s with
      errflags := s.errflags ||| 0x00000002#32
      lasterr := BitVec.ofNat 32 (0x100 * imm8.toNat + 1) }

/-- Rule R246: with a legal factor, the lowest needed stage whose staged length is bad is reported. -/
def Obligations.InvalidTapLengthReported : Prop :=
  ∀ (s : State) (imm8 : Byte) (n j : Nat), 1 ≤ n → n ≤ 4 → imm8.toNat = 2 ^ n → j < n →
    BadLength (stagedLength s j) → (∀ i < j, ¬ BadLength (stagedLength s i)) →
    exec (.setf imm8) s = .next { s with
      errflags := s.errflags ||| 0x00000004#32
      lasterr := BitVec.ofNat 32 (0x10000 * stagedLength s j + 0x100 * j + 2) }

/-- Rule R249: a threshold that is a NaN, an infinity or less than zero is rejected; any other, -0.0
among them, is accepted. -/
def Obligations.InvalidEpsilonReported : Prop :=
  ∀ (s : State) (v : Variant),
    ((s.eps.extractLsb' 23 8 = 0xFF#8 ∨ (s.eps.msb = true ∧ s.eps ≠ 0x80000000#32)) →
      exec (.shinit v) s = .next { s with
        errflags := s.errflags ||| 0x00000020#32, lasterr := 0x00000005#32 }) ∧
    (¬ (s.eps.extractLsb' 23 8 = 0xFF#8 ∨ (s.eps.msb = true ∧ s.eps ≠ 0x80000000#32)) →
      ∃ t, exec (.shinit v) s = .next t ∧ t.epsa = s.eps ∧ t.errflags = s.errflags)

/-- Rule R244: a command word either leaves both error registers alone, or changes nothing but CMD and
the error registers. -/
def Obligations.RejectionIsAtomic : Prop :=
  ∀ (w : Word) (s t : State), runCommand w s = .next t →
    (t.errflags = s.errflags ∧ t.lasterr = s.lasterr) ∨
    t = { s with cmd := w, errflags := t.errflags, lasterr := t.lasterr }

/-- Rules R24, R247, R254: once a component is built, the commands that need it are never rejected, and
neither ready bit is ever cleared but by reset. (That a command outside the finite domain answers a next
state is the model's choice, log 1; the `STUP` and `STDN` clause takes in the pairs that run past V15, which
no word spells and for which `exec` is the model's choice, log 14.) -/
def Obligations.PerSamplePathNeverFails : Prop :=
  (∀ s : State,
    (s.osr = true → ∀ i ∈ [Instr.ups, .dns],
      ∃ t, exec i s = .next t ∧ t.errflags = s.errflags ∧ t.lasterr = s.lasterr) ∧
    (∀ (st : StageIx) (d : Dir) (b tb : Branch) (r q : VReg), st.toNat < s.stages.length →
      ∀ i ∈ [Instr.push d st b r, .conv d st b tb r, .stup st r q, .stdn st r q],
        ∃ t, exec i s = .next t ∧ t.errflags = s.errflags ∧ t.lasterr = s.lasterr) ∧
    (s.wsr = true → ∀ r q : VReg,
      ∃ t, exec (.shp r q) s = .next t ∧ t.errflags = s.errflags ∧ t.lasterr = s.lasterr) ∧
    (s.osr = true → s.wsr = true →
      ∃ t, exec .proc s = .next t ∧ t.errflags = s.errflags ∧ t.lasterr = s.lasterr)) ∧
  ∀ s t : State, step s = .next t → (∀ rest, s.pending ≠ .reset :: rest) →
    (s.osr = true → t.osr = true) ∧ (s.wsr = true → t.wsr = true)

/-! ### Ring buffers -/

/-- Rule R147: `PUSH` stores V[va], whatever its pattern, in the one buffer named, and nothing else
changes. -/
def Obligations.PushEffect : Prop :=
  ∀ (s : State) (d : Dir) (st : StageIx) (b : Branch) (va : VReg) (g : Stage),
    s.stages[st.toNat]? = some g →
    exec (.push d st b va) s = .next { s with
      stages := s.stages.set st.toNat (g.setRing d b
        { mem := (g.ring d b).mem.set (g.ring d b).w (s.readV va)
          w := ((g.ring d b).w + 1) % g.c }) }

/-- Rules R140, R141: after a push the newest sample is the one pushed, every other has moved one back,
and the sizes are kept. -/
def Obligations.PushMovesWindow : Prop :=
  ∀ (c : Nat) (B : Ring) (v : Word), B.mem.length = c → B.w < c →
    (B.push c v).tap c 0 = v ∧
    (∀ k, k + 1 < c → (B.push c v).tap c (k + 1) = B.tap c k) ∧
    (B.push c v).mem.length = c ∧ (B.push c v).w < c

/-- Rules R141, R144: after any pushes on a fresh buffer the window is the samples pushed, newest first,
followed by +0.0. -/
def Obligations.WindowIsNewestFirst : Prop :=
  ∀ (c : Nat) (ws : List Word) (k : Nat), k < c →
    ((Ring.fresh c).pushAll c ws).tap c k = ws.reverse.getD k 0#32

/-- Rules R128, R133, R142: inside the domain `convolve` is four lane sums added left to right, and it is
inside the domain exactly when every operand, product, partial lane sum and final sum is finite. (Where
the taps or the window are longer than the buffer, what is read past its end rests on log 14.) -/
def Obligations.ConvolveLaneOrder : Prop :=
  ∀ (c : Nat) (B : Ring) (T : List Word),
    (∀ y, B.convolve? c T = some y → y = laneTotal c B T 3) ∧
    ((B.convolve? c T).isSome = true ↔ ConvolveFinite c B T)

/-- Rule R146: for finite operands the result does not change if the tap array is extended with +0.0 taps
up to the capacity. (Where the buffer does not hold C samples, what is read past its end rests on log
14.) -/
def Obligations.ConvolvePaddingInvisible : Prop :=
  ∀ (c : Nat) (B : Ring) (T : List Word) (y : Word) (n : Nat),
    B.convolve? c T = some y → T.length + n ≤ c →
    (∀ k < T.length + n, isfinite (B.tap c k) = true) →
    B.convolve? c (T ++ List.replicate n 0#32) = some y

/-- Rules R128, R148: `CONV` writes V[vd] only, with the dot product; outside the domain V[vd] takes the
next free word (log 1), and still nothing else of the core changes. -/
def Obligations.ConvEffect : Prop :=
  ∀ (s : State) (d : Dir) (st : StageIx) (b tb : Branch) (vd : VReg) (g : Stage),
    s.stages[st.toNat]? = some g →
    (∀ y, (g.ring d b).convolve? g.c (g.taps tb) = some y →
      exec (.conv d st b tb vd) s = .next { s with v := s.v.set vd.toNat y vd.isLt }) ∧
    ((g.ring d b).convolve? g.c (g.taps tb) = none →
      exec (.conv d st b tb vd) s = .next { s with
        v := s.v.set vd.toNat (Config.freeWord s.channel s.free) vd.isLt
        free := s.free + 1 })

/-- Rule R149: two `CONV` commands on the same buffer and tap array give the same bits, whatever accesses
stand in between, as long as none of them pushes into that buffer or builds it anew: reads, host writes,
rejected words, any command that pushes elsewhere, inside the domain or outside it (log 1, 6). -/
def Obligations.ConvRepeats : Prop :=
  ∀ (s s1 s2 s3 : State) (d : Dir) (st : StageIx) (b tb : Branch) (vd vd2 : VReg)
    (between : List PortEvent),
    exec (.conv d st b tb vd) s = .next s1 → s1.free = s.free → st.toNat < s.stages.length →
    QuietRun d st b between s1 s2 →
    exec (.conv d st b tb vd2) s2 = .next s3 →
    s3.readV vd2 = s1.readV vd

/-! ### Halfband stages -/

/-- Rules R128, R163, R166: `STUP` pushes V[va] on both U buffers, then V[vd] is the sample K back in the
even buffer and V[vd+1] twice the odd branch's convolution; outside the domain, when there is no such call
with every value finite, the pushed values, the cursors and V[vd+1] are free words (log 1, 6, 7) and V[vd]
is still the exact copy, as rule R166 says. Nothing else changes. -/
def Obligations.StupEffect : Prop :=
  ∀ (s : State) (st : StageIx) (vd va : VReg) (g : Stage),
    vd ≠ 15#4 → s.stages[st.toNat]? = some g →
    (let a := s.readV va
     let g' := { g with upE := g.upE.push g.c a, upO := g.upO.push g.c a }
     let o0 := g'.upE.tap g.c g.k
     ∀ q, isfinite a = true → isfinite o0 = true → g'.upO.convolve? g.c g.otaps = some q →
      isfinite (fmul 0x40000000#32 q) = true →
      exec (.stup st vd va) s = .next
        ((({ s with stages := s.stages.set st.toNat g' } : State).writeV vd o0).writeV (vd + 1#4)
          (fmul 0x40000000#32 q))) ∧
    ((¬ ∃ g' o0 o1, StageUpCall g (s.readV va) g' o0 o1) →
     let f := Config.freeWord s.channel
     let e := g.upE.push g.c (f s.free)
     let o := g.upO.push g.c (f (s.free + 1))
     let g' := { g with
      upE := ⟨e.mem, (f (s.free + 3)).toNat % g.c⟩, upO := ⟨o.mem, (f (s.free + 4)).toNat % g.c⟩ }
     exec (.stup st vd va) s = .next
        ((({ s with stages := s.stages.set st.toNat g', free := s.free + 5 } : State).writeV vd
          (e.tap g.c g.k)).writeV (vd + 1#4) (f (s.free + 2))))

/-- Rule R163: on a fresh stage the even output of call n is the input of K calls before, bit for bit,
or +0.0 when there was none. -/
def Obligations.StupEvenBranchDelays : Prop :=
  ∀ (g g' : Stage) (xs out : List Word) (n : Nat),
    g.upE = Ring.fresh g.c → g.k < g.c → g.upEach? xs = some (g', out) → n < xs.length →
    out[2 * n]? = some (if n < g.k then 0#32 else xs.getD (n - g.k) 0#32)

/-- Rules R128, R164, R167: `STDN` pushes V[va] on the even and V[va+1] on the odd D buffer, then V[vd]
is the sum of the two convolutions; outside the domain, when there is no such call with every value
finite, the pushed values, the cursors and V[vd] are free words (log 1, 6, 7). Nothing else changes. -/
def Obligations.StdnEffect : Prop :=
  ∀ (s : State) (st : StageIx) (vd va : VReg) (g : Stage),
    va ≠ 15#4 → s.stages[st.toNat]? = some g →
    (let a0 := s.readV va
     let a1 := s.readV (va + 1#4)
     let g' := { g with dnE := g.dnE.push g.c a0, dnO := g.dnO.push g.c a1 }
     ∀ e o, isfinite a0 = true → isfinite a1 = true →
      g'.dnE.convolve? g.c g.etaps = some e → g'.dnO.convolve? g.c g.otaps = some o →
      isfinite (fadd e o) = true →
      exec (.stdn st vd va) s = .next
        (({ s with stages := s.stages.set st.toNat g' } : State).writeV vd (fadd e o))) ∧
    ((¬ ∃ g' y, StageDownCall g (s.readV va) (s.readV (va + 1#4)) g' y) →
     let f := Config.freeWord s.channel
     let g' := { g with
      dnE := ⟨(g.dnE.push g.c (f s.free)).mem, (f (s.free + 3)).toNat % g.c⟩
      dnO := ⟨(g.dnO.push g.c (f (s.free + 1))).mem, (f (s.free + 4)).toNat % g.c⟩ }
     exec (.stdn st vd va) s = .next
        (({ s with stages := s.stages.set st.toNat g', free := s.free + 5 } : State).writeV vd
          (f (s.free + 2))))

/-- Rule R168, over the exact values: after calls 0 .. n of `stage_down` on a fresh stage, the two branch
sums together are the direct-form filter h run on the higher-rate stream v and read at index 2n + 1. -/
def Obligations.StdnIsDirectForm : Prop :=
  ∀ (g g' : Stage) (K n : Nat) (h v : Nat → Word) (out : List Word),
    1 ≤ K → 2 * K ≤ g.c → g.dnE = Ring.fresh g.c → g.dnO = Ring.fresh g.c →
    g.otaps = (List.range (2 * K)).map (fun k => h (2 * k)) →
    g.etaps = (List.range (2 * K - 1)).map (fun k => h (2 * k + 1)) →
    g.downEach? ((List.range (2 * (n + 1))).map v) = some (g', out) →
    (∑ k ∈ Finset.range (2 * K - 1), units (g.etaps.getD k 0#32) * units (g'.dnE.tap g.c k)) +
      (∑ k ∈ Finset.range (2 * K), units (g.otaps.getD k 0#32) * units (g'.dnO.tap g.c k)) =
    ∑ i ∈ Finset.range (4 * K - 1),
      units (h i) * (if i ≤ 2 * n + 1 then units (v (2 * n + 1 - i)) else 0)

/-! ### The oversampler -/

/-- Rules R131, R143: the capacity of a stage is the least power of two that holds 2K samples, and more
than K. -/
def Obligations.CapacityIsLeastPowerOfTwo : Prop :=
  ∀ K : Nat, 1 ≤ K →
    (∃ m, nextPow2 (2 * K) = 2 ^ m) ∧ 2 * K ≤ nextPow2 (2 * K) ∧ K < nextPow2 (2 * K) ∧
    ∀ m, 2 * K ≤ 2 ^ m → nextPow2 (2 * K) ≤ 2 ^ m

/-- Rules R183 to R185: the effect of an accepted `SETF`, every stage and register, and nothing else.
(Where a staging byte it takes was never written, that the command goes on, with an unknown value, is the
model's choice, log 2: rule R271 and U8 call it a fault of the model.) -/
def Obligations.SetfConstructs : Prop :=
  ∀ (s : State) (imm8 : Byte) (n : Nat), 1 ≤ n → n ≤ 4 → imm8.toNat = 2 ^ n →
    (∀ j < n, ¬ BadLength (stagedLength s j)) →
    exec (.setf imm8) s = .next { s with
      stages := (List.range n).map (builtStage s)
      factor := BitVec.ofNat 5 (2 ^ n)
      latOs := BitVec.ofNat 32 (stagedLatOs s n)
      latency := BitVec.ofNat 32 ((stagedLatOs s n + 2 ^ n / 2) / 2 ^ n)
      osr := true }

/-- Rules R128, R187: `UPS` inside the domain, and outside it, when the calls of the rule's loops do not
exist with every value finite (log 1, 6, 7); nothing else changes. -/
def Obligations.UpsEffect : Prop :=
  ∀ s : State, s.osr = true →
    (∀ gs vec, upChain? s.stages [s.x] = some (gs, vec) →
      exec .ups s = .next { s with stages := gs, v := writeFrame s.v vec }) ∧
    ((¬ ∃ G L, UpsCalls s.stages s.x G L) → ∃ t, exec .ups s = .next t ∧ s.free < t.free ∧
      t = { s with stages := t.stages, v := t.v, free := t.free } ∧
      List.Forall₂ (fun g h => g.sameFilter h ∧ g.sameDown h) s.stages t.stages ∧
      ∀ (i : Nat) (hi : i < 16), 2 ^ s.stages.length ≤ i → t.v[i] = s.v[i])

/-- Rule R187. For every S: G i j is stage i after j calls and L i j sample j of level i; when each call
is the call of `stage_up` that the rule's two loops make, in rising time order in each stage, `UPS` leaves
the last stages and the last level. And for S = 1, 2, 3, where scratch registers suffice, `UPS` is the
sequence of `STUP` commands it spells out. -/
def Obligations.UpsIsStupSequence : Prop :=
  (∀ (s : State) (G : Nat → Nat → Stage) (L : Nat → Nat → Word), s.osr = true →
    UpsCalls s.stages s.x G L →
    exec .ups s = .next { s with
      stages := (List.range s.stages.length).map fun i => G i (2 ^ i)
      v := Vector.ofFn fun r : Fin 16 =>
        if r.val < 2 ^ s.stages.length then L s.stages.length r.val else s.v[r] }) ∧
  ∀ s : State, s.osr = true → 1 ≤ s.stages.length → s.stages.length ≤ 3 →
    (upChain? s.stages [s.x]).isSome = true →
    ∃ t u, exec .ups s = .next t ∧
      runCommands (stupSequence s.stages.length) (s.writeV 8#4 s.x) = .next u ∧
      u.stages = t.stages ∧ ∀ r : VReg, r.toNat < 2 ^ s.stages.length → u.readV r = t.readV r

/-- Rules R128, R188: `DNS` inside the domain, and outside it, when the calls of the rule's loops do not
exist with every value finite (log 1, 6, 7); nothing else changes. -/
def Obligations.DnsEffect : Prop :=
  ∀ s : State, s.osr = true →
    (∀ gs mid y, downChain? s.stages (s.v.toList.take (2 ^ s.stages.length)) = some (gs, y :: mid) →
      exec .dns s = .next { s with stages := gs, y := y }) ∧
    ((¬ ∃ G L, DnsCalls s.stages s.v.toList G L) → ∃ t, exec .dns s = .next t ∧ s.free < t.free ∧
      t = { s with stages := t.stages, y := t.y, free := t.free } ∧
      List.Forall₂ (fun g h => g.sameFilter h ∧ g.sameUp h) s.stages t.stages)

/-- Rule R188. For every S: G i j is stage i after j calls and L i j sample j of level i; when each call
is the call of `stage_down` that the rule's two loops make, in rising time order in each stage, `DNS`
leaves the last stages and level 0 in Y. And for S = 1, 2, 3, where scratch registers suffice, `DNS` is the
sequence of `STDN` commands it spells out. -/
def Obligations.DnsIsStdnSequence : Prop :=
  (∀ (s : State) (G : Nat → Nat → Stage) (L : Nat → Nat → Word), s.osr = true →
    DnsCalls s.stages s.v.toList G L →
    exec .dns s = .next { s with
      stages := (List.range s.stages.length).map fun i => G i (2 ^ i), y := L 0 0 }) ∧
  ∀ s : State, s.osr = true → 1 ≤ s.stages.length → s.stages.length ≤ 3 →
    (downChain? s.stages (s.v.toList.take (2 ^ s.stages.length))).isSome = true →
    ∃ t u, exec .dns s = .next t ∧
      runCommands (stdnSequence s.stages.length).1 s = .next u ∧
      u.stages = t.stages ∧ u.readV (stdnSequence s.stages.length).2 = t.y

/-! ### The waveshaper -/

/-- Rule R212: the effect of an accepted `SHINIT`, and nothing else. -/
def Obligations.ShinitConstructs : Prop :=
  ∀ (s : State) (v : Variant), isfinite s.eps = true → flt s.eps 0#32 = false →
    exec (.shinit v) s = .next { s with
      shape := v, epsa := s.eps, xprev := 0#32, adprev := shapeAD v 0#32, wsr := true }

/-- Rules R124, R125, R132, R213, R214, R220: on a step whose exact size is greater than the threshold
`SHP` gives the difference quotient and updates the tracker, AD(x) being fmul(0.5, fmul(x, x)) for
`IDENT`; with a legal threshold the divisor is never zero. -/
def Obligations.ShpQuotientPath : Prop :=
  ∀ (s : State) (vd va : VReg) (ad : Word), s.wsr = true →
    isfinite s.epsa = true → 0 ≤ units s.epsa →
    let x := s.readV va
    let dx := fsub x s.xprev
    isfinite s.xprev = true → isfinite dx = true → ShapeADCall s.shape x ad →
    units s.epsa < |units dx| →
    isfinite s.adprev = true → isfinite (fsub ad s.adprev) = true →
    isfinite (fdiv (fsub ad s.adprev) dx) = true →
    units dx ≠ 0 ∧
    exec (.shp vd va) s = .next { s with
      v := s.v.set vd.toNat (fdiv (fsub ad s.adprev) dx) vd.isLt, xprev := x, adprev := ad }

/-- Rules R124, R125, R132, R213, R214, R215: on any other step, one of exactly the threshold among them,
`SHP` gives f at the midpoint, the midpoint itself for `IDENT`, and updates the tracker all the same; no
flag is touched. (That a step on this path is inside the domain also when ADPREV, which its formula does
not name, is not finite rests on log 8.) -/
def Obligations.ShpMidpointPath : Prop :=
  ∀ (s : State) (vd va : VReg) (ad y : Word), s.wsr = true → isfinite s.epsa = true →
    let x := s.readV va
    let dx := fsub x s.xprev
    isfinite s.xprev = true → isfinite dx = true → ShapeADCall s.shape x ad →
    |units dx| ≤ units s.epsa → isfinite (fadd x s.xprev) = true →
    ShapeFCall s.shape (fmul 0x3F000000#32 (fadd x s.xprev)) y →
    exec (.shp vd va) s = .next { s with
      v := s.v.set vd.toNat y vd.isLt, xprev := x, adprev := ad }

/-- Rules R128, R285: outside the domain, when there is no step of rule R213 with every value it reads or
makes finite, `SHP` goes on; V[vd], XPREV and ADPREV are free words (log 1) and nothing else changes.
(That ADPREV is read on the quotient path only rests on log 8.) -/
def Obligations.ShpOutsideDomain : Prop :=
  ∀ (s : State) (vd va : VReg), s.wsr = true →
    (¬ ∃ k y, AdaaCall s.shape s.epsa (trackerOf s) (s.readV va) k y) →
    exec (.shp vd va) s = .next { s with
      v := s.v.set vd.toNat (Config.freeWord s.channel s.free) vd.isLt
      xprev := Config.freeWord s.channel (s.free + 1)
      adprev := Config.freeWord s.channel (s.free + 2)
      free := s.free + 3 }

/-! ### The pipeline -/

/-- Rule R230: `PROC` inside the domain is the cascade up, the waveshaper on each sample earliest first,
the cascade down; nothing else changes. (Which steps are inside the domain rests on log 8 where ADPREV is
not finite, and on log 16.) -/
def Obligations.ProcEffect : Prop :=
  ∀ (s : State) (up down : List Stage) (vec shaped mid : List Word) (k : Tracker) (y : Word),
    s.osr = true → s.wsr = true → upChain? s.stages [s.x] = some (up, vec) →
    shapeFrame? s.shape s.epsa { xprev := s.xprev, adprev := s.adprev } vec = some (k, shaped) →
    downChain? up shaped = some (down, y :: mid) →
    exec .proc s = .next { s with
      stages := down, v := writeFrame s.v shaped, xprev := k.xprev, adprev := k.adprev, y := y }

/-- Rule R230: what `PROC` never writes, inside the domain and outside it. -/
def Obligations.ProcLeavesRest : Prop :=
  ∀ s t : State, s.osr = true → s.wsr = true → exec .proc s = .next t →
    t = { s with
      stages := t.stages, v := t.v, xprev := t.xprev, adprev := t.adprev, y := t.y,
      free := t.free } ∧
    (∀ (i : Nat) (hi : i < 16), 2 ^ s.stages.length ≤ i → t.v[i] = s.v[i]) ∧
    List.Forall₂ Stage.sameFilter s.stages t.stages

/-- Rule R231: inside the domain `PROC` leaves, in every bit but CMD, what the sequence `UPS`; `SHP V0,
V0`; ...; `SHP V(F-1), V(F-1)`; `DNS` leaves. With OSR = 1 and WSR = 0 `PROC` is rejected whole, while
the sequence runs `UPS` and then fails at the first `SHP`. (Which steps are inside the domain rests on
log 8 where ADPREV is not finite, and on log 16.) (That `UPS` in the second half goes on outside the
finite domain rests on log 1.) -/
def Obligations.ProcIsItsSequence : Prop :=
  (∀ s : State, s.Inv → s.osr = true → s.wsr = true → s.process?.isSome = true →
    ∃ t, runCommand 0x23000000#32 s = .next t ∧
      runWords (0x20000000#32 ::
        ((List.range (2 ^ s.stages.length)).map fun i =>
          BitVec.ofNat 32 (0x22000000 + 0x100 * i + i)) ++ [0x21000000#32]) s
        = .next { t with cmd := 0x21000000#32 }) ∧
  ∀ s : State, s.osr = true → s.wsr = false →
    runCommand 0x23000000#32 s = .next { s with
      cmd := 0x23000000#32, errflags := s.errflags ||| 0x00000010#32,
      lasterr := 0x00020004#32 } ∧
    ∃ t, runCommand 0x20000000#32 s = .next t ∧ t.errflags = s.errflags ∧
      runWords [0x20000000#32, 0x22000000#32] s = .next { t with
        cmd := 0x22000000#32, errflags := s.errflags ||| 0x00000010#32,
        lasterr := 0x00020004#32 }

/-! ### What cannot reach what -/

/-- Rules R33, R165: the upsampling commands never touch a D buffer, the downsampling commands never
touch a U buffer, and no command but `SETF` touches a tap array or the chain's shape. (The commands include
the pairs that run past V15, log 14.) -/
def Obligations.SignalPathsSeparate : Prop :=
  ∀ (i : Instr) (s t : State), exec i s = .next t →
    ((∀ imm8, i ≠ .setf imm8) → List.Forall₂ Stage.sameFilter s.stages t.stages) ∧
    ((i = .ups ∨ (∃ st vd va, i = .stup st vd va) ∨ ∃ st b va, i = .push .up st b va) →
      List.Forall₂ Stage.sameDown s.stages t.stages) ∧
    ((i = .dns ∨ (∃ st vd va, i = .stdn st vd va) ∨ ∃ st b va, i = .push .down st b va) →
      List.Forall₂ Stage.sameUp s.stages t.stages)

/-- Rules R71, R281: staging is not live: whatever stands in TAPS, TAPLEN and EPS, every command but the
two constructors does the same. (The commands include the pairs that run past V15, log 14.) (Outside the
finite domain, that the command goes on, with the same free words, rests on log 1.) -/
def Obligations.StagingIsNotLive : Prop :=
  ∀ (i : Instr) (s t : State) (m : Memory) (l : Vector (BitVec 16) 4) (e : Word),
    (∀ imm8, i ≠ .setf imm8) → (∀ v, i ≠ .shinit v) → exec i s = .next t →
    exec i { s with taps := m, taplen := l, eps := e } =
      .next { t with taps := m, taplen := l, eps := e }

/-- Rules R181, R212, R283: `SETF` leaves the waveshaper, the sample registers and staging as they are;
`SHINIT` leaves the oversampler, the sample registers and staging as they are. -/
def Obligations.ConstructorsIndependent : Prop :=
  (∀ (imm8 : Byte) (s t : State), exec (.setf imm8) s = .next t →
    t = { s with
      stages := t.stages, factor := t.factor, latOs := t.latOs, latency := t.latency, osr := t.osr,
      errflags := t.errflags, lasterr := t.lasterr }) ∧
  ∀ (v : Variant) (s t : State), exec (.shinit v) s = .next t →
    t = { s with
      shape := t.shape, epsa := t.epsa, xprev := t.xprev, adprev := t.adprev, wsr := t.wsr,
      errflags := t.errflags, lasterr := t.lasterr }

/-- Rules R66, R234, R262: an access to one channel changes no other channel, and what it leaves of its
own channel depends on that channel alone. Device address 0x2000 c + 4 a is word a of channel c: a read
there answers that channel's word and changes nothing else, a write there is that channel's write. An
address past the last window is no channel's and faults (the model's choice, log 19). (That a read of an
unwritten TAPS word, and a command outside the finite domain or on unwritten staging, answer a next state
rests on log 1 and 2.) -/
def Obligations.ChannelsIsolated : Prop :=
  (∀ (D D' E : Device) (c : Nat) (e : Access), D.serveAt c e = .next D' →
    (∀ c', c' ≠ c → D'.channels[c']? = D.channels[c']?) ∧
    (E.channels[c]? = D.channels[c]? →
      ∃ E', E.serveAt c e = .next E' ∧ E'.channels[c]? = D'.channels[c]?)) ∧
  (∀ (D : Device) (c : Nat) (a : PortAddr) (s : State), D.channels[c]? = some s →
    D.serveEvent (.read (0x2000 * c + 4 * a.toNat))
      = .next ⟨D.channels.set c { s with answers := s.hostRead a :: s.answers }⟩ ∧
    ∀ v : Word,
      (a = 0#11 → ∃ t, runCommand v s = .next t ∧
        D.serveEvent (.write (0x2000 * c + 4 * a.toNat) v)
          = .next ⟨D.channels.set c t⟩) ∧
      (a ≠ 0#11 → D.serveEvent (.write (0x2000 * c + 4 * a.toNat) v)
        = .next ⟨D.channels.set c (s.hostWrite a v)⟩)) ∧
  ∀ (D : Device) (address : Nat), 0x2000 * D.channels.length ≤ address →
    D.serveEvent (.read address) = .fault .noSuchChannel ∧
    ∀ v : Word, D.serveEvent (.write address v) = .fault .noSuchChannel

/-! ### Arithmetic -/

/-- Rule R121: the sum and the difference of finite operands, correctly rounded, ties to even; an exact
zero is +0 unless both terms are -0. -/
def Obligations.SumsCorrectlyRounded : Prop :=
  ∀ a b : Word, isfinite a = true → isfinite b = true →
    RoundsTo (units a + units b) 1 (fadd a b) ∧
    RoundsTo (units a - units b) 1 (fsub a b) ∧
    (units a + units b = 0 →
      fadd a b = if a = 0x80000000#32 ∧ b = 0x80000000#32 then 0x80000000#32 else 0#32) ∧
    (units a - units b = 0 →
      fsub a b = if a = 0x80000000#32 ∧ b = 0#32 then 0x80000000#32 else 0#32)

/-- Rule R122: the product of finite operands, correctly rounded, with the exclusive-or of the signs,
zeros too; twice a value is exact when it does not overflow. -/
def Obligations.ProductsCorrectlyRounded : Prop :=
  ∀ a b : Word, isfinite a = true → isfinite b = true →
    RoundsTo (units a * units b) (2 ^ 149) (fmul a b) ∧
    (fmul a b).msb = (a.msb ^^ b.msb) ∧
    (isfinite (fmul 0x40000000#32 a) = true → units (fmul 0x40000000#32 a) = 2 * units a)

/-- Rule R123: the quotient of a finite value by a finite non-zero one, correctly rounded, with the
exclusive-or of the signs. -/
def Obligations.QuotientsCorrectlyRounded : Prop :=
  ∀ a b : Word, isfinite a = true → isfinite b = true → units b ≠ 0 →
    RoundsTo (units a * 2 ^ 149 * (units b).sign) |units b| (fdiv a b) ∧
    (fdiv a b).msb = (a.msb ^^ b.msb)

/-! ### The device, recovery, and the spec's own model -/

/-- Rules R262, R270: RESET is common to all channels: one pulse completes and leaves every channel of the
device in the reset state, and their number as it was. (The queues, answers and counters are the model's
own and stay, log 9.) -/
def Obligations.ResetReachesEveryChannel : Prop :=
  ∀ D : Device, ∃ D', D.serveEvent .reset = .next D' ∧ D'.channels.length = D.channels.length ∧
    ∀ (c : Nat) (s : State), D.channels[c]? = some s →
      D'.channels[c]? = some { State.reset with
        pending := s.pending, answers := s.answers, free := s.free, epoch := s.epoch + 1,
        channel := s.channel }

/-- Rules R253, R285: from every state nine accesses, none of them a reset, lead to one and the same
working configuration, in which every flag that exists is clear and the next `PROC` is inside the finite
domain: no state is one that further accesses cannot leave. -/
def Obligations.RecoveryByAccesses : Prop :=
  ∀ (s : State) (rest : List PortEvent), ∃ t,
    runSteps 9 { s with pending := recovery ++ rest } = .next t ∧ t.pending = rest ∧
    t.osr = true ∧ t.wsr = true ∧ t.factor = 2#5 ∧ t.latOs = 2#32 ∧ t.latency = 1#32 ∧
    t.stages = [{
      k := 1, c := 2, etaps := [0x3F000000#32], otaps := [0x3E800000#32, 0x3E800000#32]
      upE := ⟨[0#32, 0#32], 0⟩, upO := ⟨[0#32, 0#32], 0⟩
      dnE := ⟨[0#32, 0#32], 0⟩, dnO := ⟨[0#32, 0#32], 0⟩ }] ∧
    t.shape = .ident ∧ t.epsa = 0#32 ∧ t.xprev = 0#32 ∧ t.adprev = 0#32 ∧ t.x = 0#32 ∧
    t.errflags = s.errflags &&& ~~~0x0000003E#32 ∧ (s.Inv → t.errflags = 0#32) ∧
    t.process?.isSome = true

/-- Rules R128, R271, U1 to U3, U8: the model that the spec asks for, with the domain as this model reads
it. It faults exactly on an access that takes an unwritten staging byte and on an accepted processing
command outside its finite domain, and is `step` everywhere else. (`step` itself goes on in both cases: the
model's choice, log 1, 2. That ADPREV is read on the quotient path only rests on log 8, that `SHINIT` never
leaves the domain, whatever AD(+0.0) is, on log 17.) -/
def Obligations.StrictStepIsSpecModel : Prop :=
  ∀ s : State,
    (strictStep s = .fault .unwrittenTaps ↔
      ∃ e rest, s.pending = e :: rest ∧ ReadsUnwritten s e) ∧
    (strictStep s = .fault .outsideDomain ↔
      ∃ w i rest, s.pending = .write 0#11 w :: rest ∧ decode w = .ok i ∧ OutsideDomain s i) ∧
    ((∀ e rest, s.pending = e :: rest → ¬ ReadsUnwritten s e) →
      (∀ w i rest, s.pending = .write 0#11 w :: rest → decode w = .ok i → ¬ OutsideDomain s i) →
      strictStep s = step s)
end

