-- ==== Sys2Proof/Laws/Float.lean ====
section
/-! SUPPORT. The primitives inside the finite domain, each said once: when they answer, and what. -/

namespace Sys2Proof.Machine

/-- A value inside the domain is the value itself, finite (rule R128). -/
theorem finite?_iff (a b : Word) : finite? a = some b ↔ isfinite a = true ∧ b = a := by
  unfold finite?
  split
  · simp only [*, true_and, Option.some.injEq]; exact eq_comm
  · simp_all

/-- `fadd` inside the domain: finite operands and a finite sum (rules R121, R128). -/
theorem fadd?_iff (a b y : Word) : fadd? a b = some y ↔
    isfinite a = true ∧ isfinite b = true ∧ y = fadd a b ∧ isfinite y = true := by
  unfold fadd?
  split
  · rw [finite?_iff]; constructor
    · rintro ⟨h, rfl⟩; simp_all
    · rintro ⟨_, _, rfl, h⟩; exact ⟨h, rfl⟩
  · rename_i h; simp at h; simp; intro h1 h2; simp [h h1] at h2

/-- `fsub` inside the domain (rules R121, R128). -/
theorem fsub?_iff (a b y : Word) : fsub? a b = some y ↔
    isfinite a = true ∧ isfinite b = true ∧ y = fsub a b ∧ isfinite y = true := by
  unfold fsub?
  split
  · rw [finite?_iff]; constructor
    · rintro ⟨h, rfl⟩; simp_all
    · rintro ⟨_, _, rfl, h⟩; exact ⟨h, rfl⟩
  · rename_i h; simp at h; simp; intro h1 h2; simp [h h1] at h2

/-- `fmul` inside the domain (rules R122, R128). -/
theorem fmul?_iff (a b y : Word) : fmul? a b = some y ↔
    isfinite a = true ∧ isfinite b = true ∧ y = fmul a b ∧ isfinite y = true := by
  unfold fmul?
  split
  · rw [finite?_iff]; constructor
    · rintro ⟨h, rfl⟩; simp_all
    · rintro ⟨_, _, rfl, h⟩; exact ⟨h, rfl⟩
  · rename_i h; simp at h; simp; intro h1 h2; simp [h h1] at h2

/-- `fdiv` inside the domain, its divisor not zero (rules R123, R128). -/
theorem fdiv?_iff (a b y : Word) : fdiv? a b = some y ↔
    isfinite a = true ∧ isfinite b = true ∧ magnitude b ≠ 0 ∧ y = fdiv a b ∧ isfinite y = true := by
  unfold fdiv?
  split
  · rw [finite?_iff]; constructor
    · rintro ⟨h, rfl⟩; simp_all
    · rintro ⟨_, _, _, rfl, h⟩; exact ⟨h, rfl⟩
  · rename_i h; simp at h; simp; intro h1 h2 h3; exact absurd (h h1 h2) h3

/-- `fabs` is the absolute value, exactly (rule R124). -/
theorem units_fabs (a : Word) : units (fabs a) = |units a| := by
  have h1 : (fabs a).msb = false := by simp [fabs, BitVec.msb_eq_getLsbD_last]
  have h2 : magnitude (fabs a) = magnitude a := by
    have e1 : (fabs a).extractLsb' 23 8 = a.extractLsb' 23 8 := by
      ext i hi; simp [fabs]; intro _; interval_cases i <;> rfl
    have e2 : (fabs a).extractLsb' 0 23 = a.extractLsb' 0 23 := by
      ext i hi; simp [fabs]; intro _; interval_cases i <;> rfl
    unfold magnitude expField fracField; rw [e1, e2]
  unfold units
  rw [h1, h2]
  by_cases h : a.msb <;> simp [h]

/-- A finite pattern is a zero exactly when its magnitude is. -/
theorem units_eq_zero (a : Word) : units a = 0 ↔ magnitude a = 0 := by
  unfold units; split <;> simp

/-- What `convolve` gives inside the domain is finite (rule R128). -/
theorem convolve?_finite {c : Nat} {B : Ring} {T : List Word} {q : Word}
    (h : B.convolve? c T = some q) : isfinite q = true := by
  simp only [Ring.convolve?, Lanes.sum?, Option.bind_eq_bind, Option.bind_eq_some_iff] at h
  obtain ⟨_, _, _, _, _, _, h⟩ := h
  exact ((fadd?_iff _ _ _).mp h).2.2.2

end Sys2Proof.Machine
end

