-- ==== Sys2Proof/Laws/State.lean ====
section
/-! SUPPORT. One lemma per field per update of State, each true by rfl. -/

namespace Sys2Proof.Machine

/-! ### writeV -/

@[simp] theorem State.writeV_x (s : State) (r : VReg) (a : Word) :
    (s.writeV r a).x = s.x := rfl
@[simp] theorem State.writeV_y (s : State) (r : VReg) (a : Word) :
    (s.writeV r a).y = s.y := rfl
@[simp] theorem State.writeV_v (s : State) (r : VReg) (a : Word) :
    (s.writeV r a).v = s.v.set r.toNat a r.isLt := rfl
@[simp] theorem State.writeV_cmd (s : State) (r : VReg) (a : Word) :
    (s.writeV r a).cmd = s.cmd := rfl
@[simp] theorem State.writeV_osr (s : State) (r : VReg) (a : Word) :
    (s.writeV r a).osr = s.osr := rfl
@[simp] theorem State.writeV_wsr (s : State) (r : VReg) (a : Word) :
    (s.writeV r a).wsr = s.wsr := rfl
@[simp] theorem State.writeV_errflags (s : State) (r : VReg) (a : Word) :
    (s.writeV r a).errflags = s.errflags := rfl
@[simp] theorem State.writeV_lasterr (s : State) (r : VReg) (a : Word) :
    (s.writeV r a).lasterr = s.lasterr := rfl
@[simp] theorem State.writeV_factor (s : State) (r : VReg) (a : Word) :
    (s.writeV r a).factor = s.factor := rfl
@[simp] theorem State.writeV_latency (s : State) (r : VReg) (a : Word) :
    (s.writeV r a).latency = s.latency := rfl
@[simp] theorem State.writeV_latOs (s : State) (r : VReg) (a : Word) :
    (s.writeV r a).latOs = s.latOs := rfl
@[simp] theorem State.writeV_eps (s : State) (r : VReg) (a : Word) :
    (s.writeV r a).eps = s.eps := rfl
@[simp] theorem State.writeV_shape (s : State) (r : VReg) (a : Word) :
    (s.writeV r a).shape = s.shape := rfl
@[simp] theorem State.writeV_epsa (s : State) (r : VReg) (a : Word) :
    (s.writeV r a).epsa = s.epsa := rfl
@[simp] theorem State.writeV_xprev (s : State) (r : VReg) (a : Word) :
    (s.writeV r a).xprev = s.xprev := rfl
@[simp] theorem State.writeV_adprev (s : State) (r : VReg) (a : Word) :
    (s.writeV r a).adprev = s.adprev := rfl
@[simp] theorem State.writeV_taplen (s : State) (r : VReg) (a : Word) :
    (s.writeV r a).taplen = s.taplen := rfl
@[simp] theorem State.writeV_taps (s : State) (r : VReg) (a : Word) :
    (s.writeV r a).taps = s.taps := rfl
@[simp] theorem State.writeV_stages (s : State) (r : VReg) (a : Word) :
    (s.writeV r a).stages = s.stages := rfl
@[simp] theorem State.writeV_pending (s : State) (r : VReg) (a : Word) :
    (s.writeV r a).pending = s.pending := rfl
@[simp] theorem State.writeV_answers (s : State) (r : VReg) (a : Word) :
    (s.writeV r a).answers = s.answers := rfl
@[simp] theorem State.writeV_free (s : State) (r : VReg) (a : Word) :
    (s.writeV r a).free = s.free := rfl
@[simp] theorem State.writeV_epoch (s : State) (r : VReg) (a : Word) :
    (s.writeV r a).epoch = s.epoch := rfl
@[simp] theorem State.writeV_channel (s : State) (r : VReg) (a : Word) :
    (s.writeV r a).channel = s.channel := rfl

/-! ### setStage -/

@[simp] theorem State.setStage_x (s : State) (st : StageIx) (g : Stage) :
    (s.setStage st g).x = s.x := rfl
@[simp] theorem State.setStage_y (s : State) (st : StageIx) (g : Stage) :
    (s.setStage st g).y = s.y := rfl
@[simp] theorem State.setStage_v (s : State) (st : StageIx) (g : Stage) :
    (s.setStage st g).v = s.v := rfl
@[simp] theorem State.setStage_cmd (s : State) (st : StageIx) (g : Stage) :
    (s.setStage st g).cmd = s.cmd := rfl
@[simp] theorem State.setStage_osr (s : State) (st : StageIx) (g : Stage) :
    (s.setStage st g).osr = s.osr := rfl
@[simp] theorem State.setStage_wsr (s : State) (st : StageIx) (g : Stage) :
    (s.setStage st g).wsr = s.wsr := rfl
@[simp] theorem State.setStage_errflags (s : State) (st : StageIx) (g : Stage) :
    (s.setStage st g).errflags = s.errflags := rfl
@[simp] theorem State.setStage_lasterr (s : State) (st : StageIx) (g : Stage) :
    (s.setStage st g).lasterr = s.lasterr := rfl
@[simp] theorem State.setStage_factor (s : State) (st : StageIx) (g : Stage) :
    (s.setStage st g).factor = s.factor := rfl
@[simp] theorem State.setStage_latency (s : State) (st : StageIx) (g : Stage) :
    (s.setStage st g).latency = s.latency := rfl
@[simp] theorem State.setStage_latOs (s : State) (st : StageIx) (g : Stage) :
    (s.setStage st g).latOs = s.latOs := rfl
@[simp] theorem State.setStage_eps (s : State) (st : StageIx) (g : Stage) :
    (s.setStage st g).eps = s.eps := rfl
@[simp] theorem State.setStage_shape (s : State) (st : StageIx) (g : Stage) :
    (s.setStage st g).shape = s.shape := rfl
@[simp] theorem State.setStage_epsa (s : State) (st : StageIx) (g : Stage) :
    (s.setStage st g).epsa = s.epsa := rfl
@[simp] theorem State.setStage_xprev (s : State) (st : StageIx) (g : Stage) :
    (s.setStage st g).xprev = s.xprev := rfl
@[simp] theorem State.setStage_adprev (s : State) (st : StageIx) (g : Stage) :
    (s.setStage st g).adprev = s.adprev := rfl
@[simp] theorem State.setStage_taplen (s : State) (st : StageIx) (g : Stage) :
    (s.setStage st g).taplen = s.taplen := rfl
@[simp] theorem State.setStage_taps (s : State) (st : StageIx) (g : Stage) :
    (s.setStage st g).taps = s.taps := rfl
@[simp] theorem State.setStage_stages (s : State) (st : StageIx) (g : Stage) :
    (s.setStage st g).stages = s.stages.set st.toNat g := rfl
@[simp] theorem State.setStage_pending (s : State) (st : StageIx) (g : Stage) :
    (s.setStage st g).pending = s.pending := rfl
@[simp] theorem State.setStage_answers (s : State) (st : StageIx) (g : Stage) :
    (s.setStage st g).answers = s.answers := rfl
@[simp] theorem State.setStage_free (s : State) (st : StageIx) (g : Stage) :
    (s.setStage st g).free = s.free := rfl
@[simp] theorem State.setStage_epoch (s : State) (st : StageIx) (g : Stage) :
    (s.setStage st g).epoch = s.epoch := rfl
@[simp] theorem State.setStage_channel (s : State) (st : StageIx) (g : Stage) :
    (s.setStage st g).channel = s.channel := rfl

/-! ### useFree -/

@[simp] theorem State.useFree_x (s : State) (n : Nat) :
    (s.useFree n).x = s.x := rfl
@[simp] theorem State.useFree_y (s : State) (n : Nat) :
    (s.useFree n).y = s.y := rfl
@[simp] theorem State.useFree_v (s : State) (n : Nat) :
    (s.useFree n).v = s.v := rfl
@[simp] theorem State.useFree_cmd (s : State) (n : Nat) :
    (s.useFree n).cmd = s.cmd := rfl
@[simp] theorem State.useFree_osr (s : State) (n : Nat) :
    (s.useFree n).osr = s.osr := rfl
@[simp] theorem State.useFree_wsr (s : State) (n : Nat) :
    (s.useFree n).wsr = s.wsr := rfl
@[simp] theorem State.useFree_errflags (s : State) (n : Nat) :
    (s.useFree n).errflags = s.errflags := rfl
@[simp] theorem State.useFree_lasterr (s : State) (n : Nat) :
    (s.useFree n).lasterr = s.lasterr := rfl
@[simp] theorem State.useFree_factor (s : State) (n : Nat) :
    (s.useFree n).factor = s.factor := rfl
@[simp] theorem State.useFree_latency (s : State) (n : Nat) :
    (s.useFree n).latency = s.latency := rfl
@[simp] theorem State.useFree_latOs (s : State) (n : Nat) :
    (s.useFree n).latOs = s.latOs := rfl
@[simp] theorem State.useFree_eps (s : State) (n : Nat) :
    (s.useFree n).eps = s.eps := rfl
@[simp] theorem State.useFree_shape (s : State) (n : Nat) :
    (s.useFree n).shape = s.shape := rfl
@[simp] theorem State.useFree_epsa (s : State) (n : Nat) :
    (s.useFree n).epsa = s.epsa := rfl
@[simp] theorem State.useFree_xprev (s : State) (n : Nat) :
    (s.useFree n).xprev = s.xprev := rfl
@[simp] theorem State.useFree_adprev (s : State) (n : Nat) :
    (s.useFree n).adprev = s.adprev := rfl
@[simp] theorem State.useFree_taplen (s : State) (n : Nat) :
    (s.useFree n).taplen = s.taplen := rfl
@[simp] theorem State.useFree_taps (s : State) (n : Nat) :
    (s.useFree n).taps = s.taps := rfl
@[simp] theorem State.useFree_stages (s : State) (n : Nat) :
    (s.useFree n).stages = s.stages := rfl
@[simp] theorem State.useFree_pending (s : State) (n : Nat) :
    (s.useFree n).pending = s.pending := rfl
@[simp] theorem State.useFree_answers (s : State) (n : Nat) :
    (s.useFree n).answers = s.answers := rfl
@[simp] theorem State.useFree_free (s : State) (n : Nat) :
    (s.useFree n).free = s.free + n := rfl
@[simp] theorem State.useFree_epoch (s : State) (n : Nat) :
    (s.useFree n).epoch = s.epoch := rfl
@[simp] theorem State.useFree_channel (s : State) (n : Nat) :
    (s.useFree n).channel = s.channel := rfl

/-! ### reject -/

@[simp] theorem State.reject_x (s : State) (c : Cause) :
    (s.reject c).x = s.x := rfl
@[simp] theorem State.reject_y (s : State) (c : Cause) :
    (s.reject c).y = s.y := rfl
@[simp] theorem State.reject_v (s : State) (c : Cause) :
    (s.reject c).v = s.v := rfl
@[simp] theorem State.reject_cmd (s : State) (c : Cause) :
    (s.reject c).cmd = s.cmd := rfl
@[simp] theorem State.reject_osr (s : State) (c : Cause) :
    (s.reject c).osr = s.osr := rfl
@[simp] theorem State.reject_wsr (s : State) (c : Cause) :
    (s.reject c).wsr = s.wsr := rfl
@[simp] theorem State.reject_errflags (s : State) (c : Cause) :
    (s.reject c).errflags = s.errflags ||| c.flag := rfl
@[simp] theorem State.reject_lasterr (s : State) (c : Cause) :
    (s.reject c).lasterr = c.word := rfl
@[simp] theorem State.reject_factor (s : State) (c : Cause) :
    (s.reject c).factor = s.factor := rfl
@[simp] theorem State.reject_latency (s : State) (c : Cause) :
    (s.reject c).latency = s.latency := rfl
@[simp] theorem State.reject_latOs (s : State) (c : Cause) :
    (s.reject c).latOs = s.latOs := rfl
@[simp] theorem State.reject_eps (s : State) (c : Cause) :
    (s.reject c).eps = s.eps := rfl
@[simp] theorem State.reject_shape (s : State) (c : Cause) :
    (s.reject c).shape = s.shape := rfl
@[simp] theorem State.reject_epsa (s : State) (c : Cause) :
    (s.reject c).epsa = s.epsa := rfl
@[simp] theorem State.reject_xprev (s : State) (c : Cause) :
    (s.reject c).xprev = s.xprev := rfl
@[simp] theorem State.reject_adprev (s : State) (c : Cause) :
    (s.reject c).adprev = s.adprev := rfl
@[simp] theorem State.reject_taplen (s : State) (c : Cause) :
    (s.reject c).taplen = s.taplen := rfl
@[simp] theorem State.reject_taps (s : State) (c : Cause) :
    (s.reject c).taps = s.taps := rfl
@[simp] theorem State.reject_stages (s : State) (c : Cause) :
    (s.reject c).stages = s.stages := rfl
@[simp] theorem State.reject_pending (s : State) (c : Cause) :
    (s.reject c).pending = s.pending := rfl
@[simp] theorem State.reject_answers (s : State) (c : Cause) :
    (s.reject c).answers = s.answers := rfl
@[simp] theorem State.reject_free (s : State) (c : Cause) :
    (s.reject c).free = s.free := rfl
@[simp] theorem State.reject_epoch (s : State) (c : Cause) :
    (s.reject c).epoch = s.epoch := rfl
@[simp] theorem State.reject_channel (s : State) (c : Cause) :
    (s.reject c).channel = s.channel := rfl

/-! ### clearErrors -/

@[simp] theorem State.clearErrors_x (s : State) (a : Word) :
    (s.clearErrors a).x = s.x := rfl
@[simp] theorem State.clearErrors_y (s : State) (a : Word) :
    (s.clearErrors a).y = s.y := rfl
@[simp] theorem State.clearErrors_v (s : State) (a : Word) :
    (s.clearErrors a).v = s.v := rfl
@[simp] theorem State.clearErrors_cmd (s : State) (a : Word) :
    (s.clearErrors a).cmd = s.cmd := rfl
@[simp] theorem State.clearErrors_osr (s : State) (a : Word) :
    (s.clearErrors a).osr = s.osr := rfl
@[simp] theorem State.clearErrors_wsr (s : State) (a : Word) :
    (s.clearErrors a).wsr = s.wsr := rfl
@[simp] theorem State.clearErrors_errflags (s : State) (a : Word) :
    (s.clearErrors a).errflags = s.errflags &&& ~~~a := rfl
@[simp] theorem State.clearErrors_lasterr (s : State) (a : Word) :
    (s.clearErrors a).lasterr = s.lasterr := rfl
@[simp] theorem State.clearErrors_factor (s : State) (a : Word) :
    (s.clearErrors a).factor = s.factor := rfl
@[simp] theorem State.clearErrors_latency (s : State) (a : Word) :
    (s.clearErrors a).latency = s.latency := rfl
@[simp] theorem State.clearErrors_latOs (s : State) (a : Word) :
    (s.clearErrors a).latOs = s.latOs := rfl
@[simp] theorem State.clearErrors_eps (s : State) (a : Word) :
    (s.clearErrors a).eps = s.eps := rfl
@[simp] theorem State.clearErrors_shape (s : State) (a : Word) :
    (s.clearErrors a).shape = s.shape := rfl
@[simp] theorem State.clearErrors_epsa (s : State) (a : Word) :
    (s.clearErrors a).epsa = s.epsa := rfl
@[simp] theorem State.clearErrors_xprev (s : State) (a : Word) :
    (s.clearErrors a).xprev = s.xprev := rfl
@[simp] theorem State.clearErrors_adprev (s : State) (a : Word) :
    (s.clearErrors a).adprev = s.adprev := rfl
@[simp] theorem State.clearErrors_taplen (s : State) (a : Word) :
    (s.clearErrors a).taplen = s.taplen := rfl
@[simp] theorem State.clearErrors_taps (s : State) (a : Word) :
    (s.clearErrors a).taps = s.taps := rfl
@[simp] theorem State.clearErrors_stages (s : State) (a : Word) :
    (s.clearErrors a).stages = s.stages := rfl
@[simp] theorem State.clearErrors_pending (s : State) (a : Word) :
    (s.clearErrors a).pending = s.pending := rfl
@[simp] theorem State.clearErrors_answers (s : State) (a : Word) :
    (s.clearErrors a).answers = s.answers := rfl
@[simp] theorem State.clearErrors_free (s : State) (a : Word) :
    (s.clearErrors a).free = s.free := rfl
@[simp] theorem State.clearErrors_epoch (s : State) (a : Word) :
    (s.clearErrors a).epoch = s.epoch := rfl
@[simp] theorem State.clearErrors_channel (s : State) (a : Word) :
    (s.clearErrors a).channel = s.channel := rfl

/-! ### construct -/

@[simp] theorem State.construct_x (s : State) (n : Nat) :
    (s.construct n).x = s.x := rfl
@[simp] theorem State.construct_y (s : State) (n : Nat) :
    (s.construct n).y = s.y := rfl
@[simp] theorem State.construct_v (s : State) (n : Nat) :
    (s.construct n).v = s.v := rfl
@[simp] theorem State.construct_cmd (s : State) (n : Nat) :
    (s.construct n).cmd = s.cmd := rfl
@[simp] theorem State.construct_osr (s : State) (n : Nat) :
    (s.construct n).osr = true := rfl
@[simp] theorem State.construct_wsr (s : State) (n : Nat) :
    (s.construct n).wsr = s.wsr := rfl
@[simp] theorem State.construct_errflags (s : State) (n : Nat) :
    (s.construct n).errflags = s.errflags := rfl
@[simp] theorem State.construct_lasterr (s : State) (n : Nat) :
    (s.construct n).lasterr = s.lasterr := rfl
@[simp] theorem State.construct_factor (s : State) (n : Nat) :
    (s.construct n).factor = BitVec.ofNat 5 (2 ^ n) := rfl
@[simp] theorem State.construct_latency (s : State) (n : Nat) :
    (s.construct n).latency = BitVec.ofNat 32 (latencyOf (2 ^ n) (latOsOf (s.buildStages n))) := rfl
@[simp] theorem State.construct_latOs (s : State) (n : Nat) :
    (s.construct n).latOs = BitVec.ofNat 32 (latOsOf (s.buildStages n)) := rfl
@[simp] theorem State.construct_eps (s : State) (n : Nat) :
    (s.construct n).eps = s.eps := rfl
@[simp] theorem State.construct_shape (s : State) (n : Nat) :
    (s.construct n).shape = s.shape := rfl
@[simp] theorem State.construct_epsa (s : State) (n : Nat) :
    (s.construct n).epsa = s.epsa := rfl
@[simp] theorem State.construct_xprev (s : State) (n : Nat) :
    (s.construct n).xprev = s.xprev := rfl
@[simp] theorem State.construct_adprev (s : State) (n : Nat) :
    (s.construct n).adprev = s.adprev := rfl
@[simp] theorem State.construct_taplen (s : State) (n : Nat) :
    (s.construct n).taplen = s.taplen := rfl
@[simp] theorem State.construct_taps (s : State) (n : Nat) :
    (s.construct n).taps = s.taps := rfl
@[simp] theorem State.construct_stages (s : State) (n : Nat) :
    (s.construct n).stages = s.buildStages n := rfl
@[simp] theorem State.construct_pending (s : State) (n : Nat) :
    (s.construct n).pending = s.pending := rfl
@[simp] theorem State.construct_answers (s : State) (n : Nat) :
    (s.construct n).answers = s.answers := rfl
@[simp] theorem State.construct_free (s : State) (n : Nat) :
    (s.construct n).free = s.free := rfl
@[simp] theorem State.construct_epoch (s : State) (n : Nat) :
    (s.construct n).epoch = s.epoch := rfl
@[simp] theorem State.construct_channel (s : State) (n : Nat) :
    (s.construct n).channel = s.channel := rfl

/-! ### resetInput -/

@[simp] theorem State.resetInput_x (s : State) :
    s.resetInput.x = State.reset.x := rfl
@[simp] theorem State.resetInput_y (s : State) :
    s.resetInput.y = State.reset.y := rfl
@[simp] theorem State.resetInput_v (s : State) :
    s.resetInput.v = State.reset.v := rfl
@[simp] theorem State.resetInput_cmd (s : State) :
    s.resetInput.cmd = State.reset.cmd := rfl
@[simp] theorem State.resetInput_osr (s : State) :
    s.resetInput.osr = State.reset.osr := rfl
@[simp] theorem State.resetInput_wsr (s : State) :
    s.resetInput.wsr = State.reset.wsr := rfl
@[simp] theorem State.resetInput_errflags (s : State) :
    s.resetInput.errflags = State.reset.errflags := rfl
@[simp] theorem State.resetInput_lasterr (s : State) :
    s.resetInput.lasterr = State.reset.lasterr := rfl
@[simp] theorem State.resetInput_factor (s : State) :
    s.resetInput.factor = State.reset.factor := rfl
@[simp] theorem State.resetInput_latency (s : State) :
    s.resetInput.latency = State.reset.latency := rfl
@[simp] theorem State.resetInput_latOs (s : State) :
    s.resetInput.latOs = State.reset.latOs := rfl
@[simp] theorem State.resetInput_eps (s : State) :
    s.resetInput.eps = State.reset.eps := rfl
@[simp] theorem State.resetInput_shape (s : State) :
    s.resetInput.shape = State.reset.shape := rfl
@[simp] theorem State.resetInput_epsa (s : State) :
    s.resetInput.epsa = State.reset.epsa := rfl
@[simp] theorem State.resetInput_xprev (s : State) :
    s.resetInput.xprev = State.reset.xprev := rfl
@[simp] theorem State.resetInput_adprev (s : State) :
    s.resetInput.adprev = State.reset.adprev := rfl
@[simp] theorem State.resetInput_taplen (s : State) :
    s.resetInput.taplen = State.reset.taplen := rfl
@[simp] theorem State.resetInput_taps (s : State) :
    s.resetInput.taps = State.reset.taps := rfl
@[simp] theorem State.resetInput_stages (s : State) :
    s.resetInput.stages = State.reset.stages := rfl
@[simp] theorem State.resetInput_pending (s : State) :
    s.resetInput.pending = s.pending := rfl
@[simp] theorem State.resetInput_answers (s : State) :
    s.resetInput.answers = s.answers := rfl
@[simp] theorem State.resetInput_free (s : State) :
    s.resetInput.free = s.free := rfl
@[simp] theorem State.resetInput_epoch (s : State) :
    s.resetInput.epoch = s.epoch + 1 := rfl
@[simp] theorem State.resetInput_channel (s : State) :
    s.resetInput.channel = s.channel := rfl

end Sys2Proof.Machine
end

