-- ==== Sys2Proof/Laws/Ops.lean ====
section
/-! SUPPORT. What the named operations over registers, frames and buffers can do, each said once. -/

namespace Sys2Proof.Machine

/-- Reading a vector register after a write to one. -/
theorem State.readV_writeV (s : State) (r q : VReg) (a : Word) :
    (s.writeV r a).readV q = if q = r then a else s.readV q := by
  unfold State.readV State.writeV
  by_cases h : q = r
  · subst h; simp
  · have : r.toNat ≠ q.toNat := fun e => h (BitVec.eq_of_toNat_eq e.symm)
    simp [h, this]

@[simp] theorem State.readV_writeV_same (s : State) (r : VReg) (a : Word) :
    (s.writeV r a).readV r = a := by
  simp [State.readV_writeV]

/-- Two writes to vector registers commute unless they name the same one. -/
theorem State.writeV_comm (s : State) (r q : VReg) (a b : Word) (h : r ≠ q) :
    (s.writeV r a).writeV q b = (s.writeV q b).writeV r a := by
  have : r.toNat ≠ q.toNat := fun e => h (BitVec.eq_of_toNat_eq e)
  unfold State.writeV
  congr 1
  exact Vector.set_comm _ _ this

/-- A frame is written to the registers below its length and to no other. -/
theorem writeFrame_getElem (v : Vector Word 16) (frame : List Word) (i : Nat) (hi : i < 16) :
    (writeFrame v frame)[i] = frame.getD i v[i] := by
  simp [writeFrame]

/-- A register past the frame keeps its value. -/
theorem writeFrame_past (v : Vector Word 16) (frame : List Word) (i : Nat) (hi : i < 16)
    (h : frame.length ≤ i) : (writeFrame v frame)[i] = v[i] := by
  simp [writeFrame_getElem, h]

/-- The frame of F registers has F samples, for F up to 16. -/
theorem State.frame_length (s : State) (n : Nat) (h : n ≤ 16) : (s.frame n).length = n := by
  simp [State.frame, h]

/-- The frame of F registers, sample by sample. -/
theorem State.frame_getElem? (s : State) (n i : Nat) (hn : n ≤ 16) (hi : i < n) :
    (s.frame n)[i]? = some (s.v[i]'(by omega)) := by
  have h16 : i < 16 := by omega
  simp only [State.frame, List.getElem?_take, hi, if_true]
  simp [h16]

/-- A buffer just replaced is the new one. -/
@[simp] theorem Stage.ring_setRing_same (g : Stage) (d : Dir) (b : Branch) (r : Ring) :
    (g.setRing d b r).ring d b = r := by
  cases d <;> cases b <;> rfl

/-- Every other buffer is as it was. -/
theorem Stage.ring_setRing_other (g : Stage) (d d' : Dir) (b b' : Branch) (r : Ring)
    (h : ¬ (d' = d ∧ b' = b)) : (g.setRing d b r).ring d' b' = g.ring d' b' := by
  cases d <;> cases b <;> cases d' <;> cases b' <;> first | rfl | exact absurd ⟨rfl, rfl⟩ h

@[simp] theorem Stage.setRing_k (g : Stage) (d : Dir) (b : Branch) (r : Ring) :
    (g.setRing d b r).k = g.k := by cases d <;> cases b <;> rfl
@[simp] theorem Stage.setRing_c (g : Stage) (d : Dir) (b : Branch) (r : Ring) :
    (g.setRing d b r).c = g.c := by cases d <;> cases b <;> rfl
@[simp] theorem Stage.setRing_etaps (g : Stage) (d : Dir) (b : Branch) (r : Ring) :
    (g.setRing d b r).etaps = g.etaps := by cases d <;> cases b <;> rfl
@[simp] theorem Stage.setRing_otaps (g : Stage) (d : Dir) (b : Branch) (r : Ring) :
    (g.setRing d b r).otaps = g.otaps := by cases d <;> cases b <;> rfl

/-- The free words of a command, counted. -/
@[simp] theorem State.freeWords_length (s : State) (skip n : Nat) :
    (s.freeWords skip n).length = n := by simp [State.freeWords]

/-- A rejection leaves everything but ERRFLAGS and LASTERR (rule R243). -/
theorem State.reject_eq (s : State) (c : Cause) :
    s.reject c = { s with errflags := s.errflags ||| c.flag, lasterr := c.word } := rfl

/-- The cause code stands in LASTERR[7:0] and is one of 1 .. 5 (rules R26, R240). -/
theorem Cause.word_cause (c : Cause) : (c.word.extractLsb' 0 8).toNat = c.code := by
  unfold Cause.word
  rw [BitVec.extractLsb'_append_eq_right]
  cases c <;> rfl

theorem Cause.code_le (c : Cause) : c.code ≤ 5 := by cases c <;> simp [Cause.code]

/-- The flag of a cause is one of the bits that exist (rule R25). -/
theorem Cause.flag_res0 (c : Cause) : c.flag &&& ~~~errflagsMask = 0#32 := by
  cases c <;> simp only [Cause.flag, Cause.code, errflagsMask] <;> decide

end Sys2Proof.Machine
end

