-- ==== Sys2Proof/Laws/Ring.lean ====
section
/-! SUPPORT. push, tap and convolve: the window moves by one at each push, and sizes are kept. -/

namespace Sys2Proof.Machine

theorem Ring.wellSized_iff (c : Nat) (B : Ring) :
    B.wellSized c = true ↔ B.mem.length = c ∧ B.w < c := by
  simp [Ring.wellSized]

theorem Ring.wellSized_fresh (c : Nat) (h : 0 < c) : (Ring.fresh c).wellSized c = true := by
  simp [Ring.wellSized, Ring.fresh, h]

/-- A push keeps the sizes (rule R34). -/
theorem Ring.wellSized_push {c : Nat} {B : Ring} (v : Word) (h : B.wellSized c = true) :
    (B.push c v).wellSized c = true := by
  rw [Ring.wellSized_iff] at *
  exact ⟨by simp [Ring.push, h.1], Nat.mod_lt _ (by omega)⟩

theorem Ring.wellSized_pushAll {c : Nat} (vs : List Word) {B : Ring} (h : B.wellSized c = true) :
    (B.pushAll c vs).wellSized c = true := by
  induction vs generalizing B with
  | nil => exact h
  | cons v vs ih => exact ih (Ring.wellSized_push v h)

/-- A cursor that is lost is still a cursor (rule R34). -/
theorem Ring.wellSized_loseCursor {c : Nat} {B : Ring} (cursor : Word) (h : B.wellSized c = true) :
    (B.loseCursor c cursor).wellSized c = true := by
  rw [Ring.wellSized_iff] at *
  exact ⟨h.1, Nat.mod_lt _ (by omega)⟩

@[simp] theorem Ring.loseCursor_mem (c : Nat) (B : Ring) (cursor : Word) :
    (B.loseCursor c cursor).mem = B.mem := rfl

@[simp] theorem Ring.pushAll_nil (c : Nat) (B : Ring) : B.pushAll c [] = B := rfl
@[simp] theorem Ring.pushAll_cons (c : Nat) (B : Ring) (v : Word) (vs : List Word) :
    B.pushAll c (v :: vs) = (B.push c v).pushAll c vs := rfl

theorem Ring.pushAll_append (c : Nat) (B : Ring) (vs ws : List Word) :
    B.pushAll c (vs ++ ws) = (B.pushAll c vs).pushAll c ws := by
  induction vs generalizing B with
  | nil => rfl
  | cons v vs ih => exact ih (B.push c v)

/-- The slot `tap` reads, in the whole numbers of rule R141. -/
theorem Ring.tap_slot {c : Nat} {B : Ring} (k : Nat) (hk : k < c) :
    ((B.w + c - 1 - k) % c : Nat) = (((B.w : Int) - 1 - k) % c) := by
  have : ((B.w + c - 1 - k : Nat) : Int) = ((B.w : Int) - 1 - k) + c := by omega
  rw [Int.natCast_mod, this, Int.add_emod_right]

end Sys2Proof.Machine
end

