-- ==== Sys2Proof/Laws/Stage.lean ====
section
/-! SUPPORT. What one stage call can do, said once; a valid stage stays valid. -/

namespace Sys2Proof.Machine

@[simp] theorem Stage.pushUp_k (g : Stage) (a b : List Word) : (g.pushUp a b).k = g.k := rfl
@[simp] theorem Stage.pushUp_c (g : Stage) (a b : List Word) : (g.pushUp a b).c = g.c := rfl
@[simp] theorem Stage.pushUp_etaps (g : Stage) (a b : List Word) :
    (g.pushUp a b).etaps = g.etaps := rfl
@[simp] theorem Stage.pushUp_otaps (g : Stage) (a b : List Word) :
    (g.pushUp a b).otaps = g.otaps := rfl
@[simp] theorem Stage.pushUp_upE (g : Stage) (a b : List Word) :
    (g.pushUp a b).upE = g.upE.pushAll g.c a := rfl
@[simp] theorem Stage.pushUp_upO (g : Stage) (a b : List Word) :
    (g.pushUp a b).upO = g.upO.pushAll g.c b := rfl
@[simp] theorem Stage.pushUp_dnE (g : Stage) (a b : List Word) : (g.pushUp a b).dnE = g.dnE := rfl
@[simp] theorem Stage.pushUp_dnO (g : Stage) (a b : List Word) : (g.pushUp a b).dnO = g.dnO := rfl
@[simp] theorem Stage.pushDown_k (g : Stage) (a b : List Word) : (g.pushDown a b).k = g.k := rfl
@[simp] theorem Stage.pushDown_c (g : Stage) (a b : List Word) : (g.pushDown a b).c = g.c := rfl
@[simp] theorem Stage.pushDown_etaps (g : Stage) (a b : List Word) :
    (g.pushDown a b).etaps = g.etaps := rfl
@[simp] theorem Stage.pushDown_otaps (g : Stage) (a b : List Word) :
    (g.pushDown a b).otaps = g.otaps := rfl
@[simp] theorem Stage.pushDown_upE (g : Stage) (a b : List Word) :
    (g.pushDown a b).upE = g.upE := rfl
@[simp] theorem Stage.pushDown_upO (g : Stage) (a b : List Word) :
    (g.pushDown a b).upO = g.upO := rfl
@[simp] theorem Stage.pushDown_dnE (g : Stage) (a b : List Word) :
    (g.pushDown a b).dnE = g.dnE.pushAll g.c a := rfl
@[simp] theorem Stage.pushDown_dnO (g : Stage) (a b : List Word) :
    (g.pushDown a b).dnO = g.dnO.pushAll g.c b := rfl

/-- A value inside the domain is the value itself. -/
theorem finite?_eq_some {a b : Word} (h : finite? a = some b) : isfinite a = true ∧ b = a := by
  unfold finite? at h
  split at h
  · exact ⟨‹_›, by simpa using h.symm⟩
  · simp at h

/-- What `stage_up` does inside the domain (rule R163). -/
theorem Stage.up?_eq_some {g g' : Stage} {a o0 o1 : Word} (h : g.up? a = some (g', o0, o1)) :
    isfinite a = true ∧ g' = g.pushUp [a] [a] ∧ o0 = g'.delayed ∧ isfinite o0 = true ∧
      ∃ q, g'.upO.convolve? g.c g.otaps = some q ∧ fmul? Config.upGain q = some o1 := by
  simp only [Stage.up?, Option.bind_eq_bind, Option.bind_eq_some_iff] at h
  obtain ⟨a', ha, d, hd, q, hq, p, hp, he⟩ := h
  obtain ⟨hfa, rfl⟩ := finite?_eq_some ha
  obtain ⟨hfd, rfl⟩ := finite?_eq_some hd
  simp only [Option.some.injEq, Prod.mk.injEq] at he
  obtain ⟨rfl, rfl, rfl⟩ := he
  exact ⟨hfa, rfl, rfl, hfd, q, hq, hp⟩

/-- What `stage_down` does inside the domain (rule R164). -/
theorem Stage.down?_eq_some {g g' : Stage} {a0 a1 y : Word} (h : g.down? a0 a1 = some (g', y)) :
    isfinite a0 = true ∧ isfinite a1 = true ∧ g' = g.pushDown [a0] [a1] ∧
      ∃ e o, g'.dnE.convolve? g.c g.etaps = some e ∧ g'.dnO.convolve? g.c g.otaps = some o ∧
        fadd? e o = some y := by
  simp only [Stage.down?, Option.bind_eq_bind, Option.bind_eq_some_iff] at h
  obtain ⟨b0, h0, b1, h1, e, he, o, ho, q, hq, heq⟩ := h
  obtain ⟨hf0, rfl⟩ := finite?_eq_some h0
  obtain ⟨hf1, rfl⟩ := finite?_eq_some h1
  simp only [Option.some.injEq, Prod.mk.injEq] at heq
  obtain ⟨rfl, rfl⟩ := heq
  exact ⟨hf0, hf1, rfl, e, o, he, ho, hq⟩

/-- The nine parts of a valid stage (rules R33, R34). -/
theorem Stage.valid_iff (g : Stage) : g.valid = true ↔
    1 ≤ g.k ∧ g.k ≤ 64 ∧ g.c = nextPow2 (2 * g.k) ∧ g.etaps.length = 2 * g.k - 1 ∧
      g.otaps.length = 2 * g.k ∧ g.upE.wellSized g.c = true ∧ g.upO.wellSized g.c = true ∧
      g.dnE.wellSized g.c = true ∧ g.dnO.wellSized g.c = true := by
  simp [Stage.valid, and_assoc]

theorem Stage.valid_pushUp {g : Stage} (a b : List Word) (h : g.valid = true) :
    (g.pushUp a b).valid = true := by
  rw [Stage.valid_iff] at *
  obtain ⟨h1, h2, h3, h4, h5, h6, h7, h8, h9⟩ := h
  exact ⟨h1, h2, h3, h4, h5, Ring.wellSized_pushAll a h6, Ring.wellSized_pushAll b h7, h8, h9⟩

theorem Stage.valid_pushDown {g : Stage} (a b : List Word) (h : g.valid = true) :
    (g.pushDown a b).valid = true := by
  rw [Stage.valid_iff] at *
  obtain ⟨h1, h2, h3, h4, h5, h6, h7, h8, h9⟩ := h
  exact ⟨h1, h2, h3, h4, h5, h6, h7, Ring.wellSized_pushAll a h8, Ring.wellSized_pushAll b h9⟩

theorem Stage.valid_freeUp {g : Stage} (a b : List Word) (x y : Word) (h : g.valid = true) :
    (g.freeUp a b x y).valid = true := by
  have hp := Stage.valid_pushUp a b h
  rw [Stage.valid_iff] at *
  obtain ⟨h1, h2, h3, h4, h5, h6, h7, h8, h9⟩ := hp
  exact ⟨h1, h2, h3, h4, h5, Ring.wellSized_loseCursor x h6, Ring.wellSized_loseCursor y h7, h8, h9⟩

theorem Stage.valid_freeDown {g : Stage} (a b : List Word) (x y : Word) (h : g.valid = true) :
    (g.freeDown a b x y).valid = true := by
  have hp := Stage.valid_pushDown a b h
  rw [Stage.valid_iff] at *
  obtain ⟨h1, h2, h3, h4, h5, h6, h7, h8, h9⟩ := hp
  exact ⟨h1, h2, h3, h4, h5, h6, h7, Ring.wellSized_loseCursor x h8, Ring.wellSized_loseCursor y h9⟩

theorem Stage.valid_setRing {g : Stage} (d : Dir) (b : Branch) {r : Ring} (h : g.valid = true)
    (hr : r.wellSized g.c = true) : (g.setRing d b r).valid = true := by
  rw [Stage.valid_iff] at *
  obtain ⟨h1, h2, h3, h4, h5, h6, h7, h8, h9⟩ := h
  cases d <;> cases b
  · exact ⟨h1, h2, h3, h4, h5, hr, h7, h8, h9⟩
  · exact ⟨h1, h2, h3, h4, h5, h6, hr, h8, h9⟩
  · exact ⟨h1, h2, h3, h4, h5, h6, h7, hr, h9⟩
  · exact ⟨h1, h2, h3, h4, h5, h6, h7, h8, hr⟩

theorem Stage.wellSized_ring {g : Stage} (d : Dir) (b : Branch) (h : g.valid = true) :
    (g.ring d b).wellSized g.c = true := by
  rw [Stage.valid_iff] at h
  obtain ⟨h1, h2, h3, h4, h5, h6, h7, h8, h9⟩ := h
  cases d <;> cases b
  · exact h6
  · exact h7
  · exact h8
  · exact h9

end Sys2Proof.Machine
end

