-- ==== Sys2Proof/Laws/Calls.lean ====
section
/-! SUPPORT. One call of a stage or of the waveshaper answers inside the finite domain exactly when every value that its rule reads or makes is finite, and then it answers what the rule says. -/

open Sys2Proof.Stated

namespace Sys2Proof.Machine

/-- `stage_up` inside the domain, in the words of rules R128 and R163. -/
theorem Stage.up?_iff (g g' : Stage) (a o0 o1 : Word) :
    g.up? a = some (g', o0, o1) ↔ StageUpCall g a g' o0 o1 := by
  constructor
  · intro h
    obtain ⟨h1, rfl, rfl, h4, q, h5, h6⟩ := Stage.up?_eq_some h
    obtain ⟨_, _, h7, h8⟩ := (fmul?_iff _ _ _).mp h6
    exact ⟨h1, rfl, rfl, h4, q, h5, h7, h8⟩
  · rintro ⟨h1, rfl, rfl, h4, q, h5, h7, h8⟩
    simp only [Stage.up?, Option.bind_eq_bind, Option.bind_eq_some_iff]
    refine ⟨a, (finite?_iff _ _).mpr ⟨h1, rfl⟩, _, (finite?_iff _ _).mpr ⟨h4, rfl⟩, q, h5, o1,
      (fmul?_iff _ _ _).mpr ⟨by decide, convolve?_finite h5, h7, h8⟩, rfl⟩

/-- `stage_down` inside the domain, in the words of rules R128 and R164. -/
theorem Stage.down?_iff (g g' : Stage) (a0 a1 y : Word) :
    g.down? a0 a1 = some (g', y) ↔ StageDownCall g a0 a1 g' y := by
  constructor
  · intro h
    obtain ⟨h1, h2, rfl, e, o, h4, h5, h6⟩ := Stage.down?_eq_some h
    obtain ⟨_, _, h7, h8⟩ := (fadd?_iff _ _ _).mp h6
    exact ⟨h1, h2, rfl, e, o, h4, h5, h7, h8⟩
  · rintro ⟨h1, h2, rfl, e, o, h4, h5, h7, h8⟩
    simp only [Stage.down?, Option.bind_eq_bind, Option.bind_eq_some_iff]
    exact ⟨a0, (finite?_iff _ _).mpr ⟨h1, rfl⟩, a1, (finite?_iff _ _).mpr ⟨h2, rfl⟩, e, h4, o, h5, y,
      (fadd?_iff _ _ _).mpr ⟨convolve?_finite h4, convolve?_finite h5, h7, h8⟩, rfl⟩

/-- `shape_AD` inside the domain, in the words of rules R128 and R132. -/
theorem shapeAD?_iff (v : Variant) (x ad : Word) : shapeAD? v x = some ad ↔ ShapeADCall v x ad := by
  cases v
  case ident =>
    simp only [shapeAD?, ShapeADCall, Option.bind_eq_bind, Option.bind_eq_some_iff, fmul?_iff]
    constructor
    · rintro ⟨m, ⟨h1, -, rfl, h2⟩, -, -, rfl, h3⟩; exact ⟨h1, h3, h2, rfl⟩
    · rintro ⟨h1, h3, h2, rfl⟩
      exact ⟨_, ⟨h1, h1, rfl, h2⟩, by decide, h2, rfl, h3⟩
  all_goals
    simp only [shapeAD?, ShapeADCall]
    split
    · rw [finite?_iff]; simp only [shapeAD]
      constructor
      · rintro ⟨h, rfl⟩; exact ⟨‹_›, h, rfl⟩
      · rintro ⟨_, h, rfl⟩; exact ⟨h, rfl⟩
    · simp_all

/-- `shape_f` inside the domain, in the words of rules R128 and R132. -/
theorem shapeF?_iff (v : Variant) (x y : Word) : shapeF? v x = some y ↔ ShapeFCall v x y := by
  unfold shapeF? ShapeFCall
  split
  · rw [finite?_iff]
    cases v <;> simp only [shapeF] <;>
    · constructor
      · rintro ⟨h, rfl⟩; exact ⟨‹_›, h, rfl⟩
      · rintro ⟨_, h, rfl⟩; exact ⟨h, rfl⟩
  · simp_all

/-- `adaa_step` inside the domain, in the words of rules R128 and R213. -/
theorem adaaStep?_iff (v : Variant) (e : Word) (k k' : Tracker) (x y : Word) :
    adaaStep? v e k x = some (k', y) ↔ AdaaCall v e k x k' y := by
  obtain ⟨xp, ap⟩ := k'
  have path : fgt (fabs (fsub x k.xprev)) e = true ↔ units e < |units (fsub x k.xprev)| := by
    simp [fgt, units_fabs]
  by_cases hg : fgt (fabs (fsub x k.xprev)) e = true
  all_goals
    simp only [adaaStep?, AdaaCall, Option.bind_eq_bind, Option.bind_eq_some_iff, finite?_iff,
      shapeAD?_iff, fsub?_iff]
    constructor
  · rintro ⟨_, ⟨he, rfl⟩, ad, had, dx, ⟨hx, hk, rfl, hd⟩, h⟩
    simp only [hg, if_true, Option.bind_eq_some_iff, fsub?_iff, fdiv?_iff, Option.some.injEq,
      Prod.mk.injEq, Tracker.mk.injEq] at h
    obtain ⟨_, ⟨_, ha, rfl, hs⟩, _, ⟨_, _, hm, rfl, hf⟩, ⟨rfl, rfl⟩, rfl⟩ := h
    exact ⟨he, hk, hd, hf, rfl, had, .inl ⟨path.mp hg, by rwa [Ne, units_eq_zero], ha, hs, rfl⟩⟩
  · rintro ⟨he, hk, hd, hf, rfl, had, h⟩
    refine ⟨e, ⟨he, rfl⟩, ap, had, _, ⟨had.1, hk, rfl, hd⟩, ?_⟩
    obtain ⟨-, hn, ha, hs, rfl⟩ | ⟨hl, -⟩ := h
    · simp only [hg, if_true, Option.bind_eq_some_iff, fsub?_iff, fdiv?_iff]
      exact ⟨_, ⟨had.2.1, ha, rfl, hs⟩, _,
        ⟨hs, hd, by rwa [Ne, units_eq_zero] at hn, rfl, hf⟩, rfl⟩
    · exact absurd (path.mp hg) (not_lt.mpr hl)
  · rintro ⟨_, ⟨he, rfl⟩, ad, had, dx, ⟨hx, hk, rfl, hd⟩, h⟩
    simp only [hg, if_false, Bool.false_eq_true, Option.bind_eq_some_iff, fadd?_iff, fmul?_iff,
      shapeF?_iff, Option.some.injEq, Prod.mk.injEq, Tracker.mk.injEq] at h
    obtain ⟨_, ⟨_, _, rfl, hs⟩, _, ⟨_, _, rfl, hm⟩, _, hF, ⟨rfl, rfl⟩, rfl⟩ := h
    exact ⟨he, hk, hd, hF.2.1, rfl, had, .inr ⟨not_lt.mp (path.not.mp hg), hs, hF⟩⟩
  · rintro ⟨he, hk, hd, hf, rfl, had, h⟩
    refine ⟨e, ⟨he, rfl⟩, ap, had, _, ⟨had.1, hk, rfl, hd⟩, ?_⟩
    obtain ⟨hl, -⟩ | ⟨-, hs, hF⟩ := h
    · exact absurd (path.mpr hl) hg
    · simp only [hg, if_false, Bool.false_eq_true, Option.bind_eq_some_iff, fadd?_iff, fmul?_iff,
        shapeF?_iff]
      exact ⟨_, ⟨had.1, hk, rfl, hs⟩, _, ⟨by decide, hs, rfl, hF.1⟩, _, hF, rfl⟩

end Sys2Proof.Machine
end

