-- ==== Sys2Proof/Laws/Chain.lean ====
section
/-! SUPPORT. What the cascade can do, said once: lengths, the filters and the other direction untouched, validity kept. -/

namespace Sys2Proof.Machine

/-- What any upsampling work may do to a stage: reach its U buffers only (rules R163, R165). -/
def Stage.UpWork (g h : Stage) : Prop :=
  g.sameFilter h ∧ g.sameDown h ∧ (g.valid = true → h.valid = true)

/-- What any downsampling work may do to a stage: reach its D buffers only (rules R164, R165). -/
def Stage.DownWork (g h : Stage) : Prop :=
  g.sameFilter h ∧ g.sameUp h ∧ (g.valid = true → h.valid = true)

theorem Stage.UpWork.refl (g : Stage) : g.UpWork g :=
  ⟨⟨rfl, rfl, rfl, rfl⟩, ⟨rfl, rfl⟩, id⟩

theorem Stage.DownWork.refl (g : Stage) : g.DownWork g :=
  ⟨⟨rfl, rfl, rfl, rfl⟩, ⟨rfl, rfl⟩, id⟩

theorem Stage.UpWork.trans {a b c : Stage} (h1 : a.UpWork b) (h2 : b.UpWork c) : a.UpWork c := by
  obtain ⟨⟨p1, p2, p3, p4⟩, ⟨p5, p6⟩, p7⟩ := h1
  obtain ⟨⟨q1, q2, q3, q4⟩, ⟨q5, q6⟩, q7⟩ := h2
  exact ⟨⟨q1.trans p1, q2.trans p2, q3.trans p3, q4.trans p4⟩, ⟨q5.trans p5, q6.trans p6⟩,
    fun h => q7 (p7 h)⟩

theorem Stage.DownWork.trans {a b c : Stage} (h1 : a.DownWork b) (h2 : b.DownWork c) :
    a.DownWork c := by
  obtain ⟨⟨p1, p2, p3, p4⟩, ⟨p5, p6⟩, p7⟩ := h1
  obtain ⟨⟨q1, q2, q3, q4⟩, ⟨q5, q6⟩, q7⟩ := h2
  exact ⟨⟨q1.trans p1, q2.trans p2, q3.trans p3, q4.trans p4⟩, ⟨q5.trans p5, q6.trans p6⟩,
    fun h => q7 (p7 h)⟩

theorem Stage.upWork_pushUp (g : Stage) (a b : List Word) : g.UpWork (g.pushUp a b) :=
  ⟨⟨rfl, rfl, rfl, rfl⟩, ⟨rfl, rfl⟩, Stage.valid_pushUp a b⟩

theorem Stage.downWork_pushDown (g : Stage) (a b : List Word) : g.DownWork (g.pushDown a b) :=
  ⟨⟨rfl, rfl, rfl, rfl⟩, ⟨rfl, rfl⟩, Stage.valid_pushDown a b⟩

theorem Stage.upWork_freeUp (g : Stage) (a b : List Word) (x y : Word) :
    g.UpWork (g.freeUp a b x y) :=
  ⟨⟨rfl, rfl, rfl, rfl⟩, ⟨rfl, rfl⟩, Stage.valid_freeUp a b x y⟩

theorem Stage.downWork_freeDown (g : Stage) (a b : List Word) (x y : Word) :
    g.DownWork (g.freeDown a b x y) :=
  ⟨⟨rfl, rfl, rfl, rfl⟩, ⟨rfl, rfl⟩, Stage.valid_freeDown a b x y⟩

theorem Stage.upWork_up {g g' : Stage} {a o0 o1 : Word} (h : g.up? a = some (g', o0, o1)) :
    g.UpWork g' := by
  obtain ⟨-, rfl, -⟩ := Stage.up?_eq_some h
  exact Stage.upWork_pushUp g _ _

theorem Stage.downWork_down {g g' : Stage} {a0 a1 y : Word} (h : g.down? a0 a1 = some (g', y)) :
    g.DownWork g' := by
  obtain ⟨-, -, rfl, -⟩ := Stage.down?_eq_some h
  exact Stage.downWork_pushDown g _ _

/-- The first call of a level, and the rest of it. -/
theorem Stage.upEach?_cons {g g' : Stage} {a : Word} {rest out : List Word}
    (h : g.upEach? (a :: rest) = some (g', out)) : ∃ g1 o0 o1 tail,
      g.up? a = some (g1, o0, o1) ∧ g1.upEach? rest = some (g', tail) ∧ out = o0 :: o1 :: tail := by
  simp only [Stage.upEach?, Option.bind_eq_bind, Option.bind_eq_some_iff] at h
  obtain ⟨⟨g1, o0, o1⟩, h1, ⟨g2, tail⟩, h2, he⟩ := h
  simp only [Option.some.injEq, Prod.mk.injEq] at he
  obtain ⟨rfl, rfl⟩ := he
  exact ⟨g1, o0, o1, tail, h1, h2, rfl⟩

/-- The first call of a level going down, and the rest of it. -/
theorem Stage.downEach?_cons {g g' : Stage} {a0 a1 : Word} {rest out : List Word}
    (h : g.downEach? (a0 :: a1 :: rest) = some (g', out)) : ∃ g1 y tail,
      g.down? a0 a1 = some (g1, y) ∧ g1.downEach? rest = some (g', tail) ∧ out = y :: tail := by
  simp only [Stage.downEach?, Option.bind_eq_bind, Option.bind_eq_some_iff] at h
  obtain ⟨⟨g1, y⟩, h1, ⟨g2, tail⟩, h2, he⟩ := h
  simp only [Option.some.injEq, Prod.mk.injEq] at he
  obtain ⟨rfl, rfl⟩ := he
  exact ⟨g1, y, tail, h1, h2, rfl⟩

/-- One level up gives two samples for one and only pushes to the U buffers. -/
theorem Stage.upEach?_spec {vec : List Word} {g g' : Stage} {out : List Word}
    (h : g.upEach? vec = some (g', out)) : out.length = 2 * vec.length ∧ g.UpWork g' := by
  induction vec generalizing g out with
  | nil =>
    simp only [Stage.upEach?, Option.some.injEq, Prod.mk.injEq] at h
    obtain ⟨rfl, rfl⟩ := h
    exact ⟨rfl, Stage.UpWork.refl g⟩
  | cons a rest ih =>
    obtain ⟨g1, o0, o1, tail, h1, h2, rfl⟩ := Stage.upEach?_cons h
    obtain ⟨hl, hw⟩ := ih h2
    exact ⟨by simp [hl]; omega, (Stage.upWork_up h1).trans hw⟩

/-- One level down gives one sample for two and only pushes to the D buffers. -/
theorem Stage.downEach?_spec {n : Nat} {vec : List Word} {g g' : Stage} {out : List Word}
    (hn : vec.length = 2 * n) (h : g.downEach? vec = some (g', out)) :
    out.length = n ∧ g.DownWork g' := by
  induction n generalizing g vec out with
  | zero =>
    obtain rfl : vec = [] := List.length_eq_zero_iff.mp (by omega)
    simp only [Stage.downEach?, Option.some.injEq, Prod.mk.injEq] at h
    obtain ⟨rfl, rfl⟩ := h
    exact ⟨rfl, Stage.DownWork.refl g⟩
  | succ n ih =>
    match vec, hn with
    | a0 :: a1 :: rest, hn =>
      obtain ⟨g1, y, tail, h1, h2, rfl⟩ := Stage.downEach?_cons h
      obtain ⟨hl, hw⟩ := ih (by simp at hn; omega) h2
      exact ⟨by simp [hl], (Stage.downWork_down h1).trans hw⟩

/-- Outside any length condition: one level down only pushes to the D buffers. -/
theorem Stage.downEach?_work : ∀ {vec : List Word} {g g' : Stage} {out : List Word},
    g.downEach? vec = some (g', out) → g.DownWork g'
  | [], g, _, _, h => by
    simp only [Stage.downEach?, Option.some.injEq, Prod.mk.injEq] at h
    exact h.1 ▸ Stage.DownWork.refl g
  | [_], g, _, _, h => by
    simp only [Stage.downEach?, Option.some.injEq, Prod.mk.injEq] at h
    exact h.1 ▸ Stage.DownWork.refl g
  | _ :: _ :: _, _, _, _, h => by
    obtain ⟨g1, y, tail, h1, h2, rfl⟩ := Stage.downEach?_cons h
    exact (Stage.downWork_down h1).trans (Stage.downEach?_work h2)

/-- The outermost stage of a cascade going up, and the rest of it. -/
theorem upChain?_cons {g : Stage} {gs gs' : List Stage} {vec out : List Word}
    (h : upChain? (g :: gs) vec = some (gs', out)) : ∃ g1 nxt rest,
      g.upEach? vec = some (g1, nxt) ∧ upChain? gs nxt = some (rest, out) ∧ gs' = g1 :: rest := by
  simp only [upChain?, Option.bind_eq_bind, Option.bind_eq_some_iff] at h
  obtain ⟨⟨g1, nxt⟩, h1, ⟨rest, out'⟩, h2, he⟩ := h
  simp only [Option.some.injEq, Prod.mk.injEq] at he
  obtain ⟨rfl, rfl⟩ := he
  exact ⟨g1, nxt, rest, h1, h2, rfl⟩

/-- The outermost stage of a cascade going down comes last. -/
theorem downChain?_cons {g : Stage} {gs gs' : List Stage} {vec out : List Word}
    (h : downChain? (g :: gs) vec = some (gs', out)) : ∃ rest mid g1,
      downChain? gs vec = some (rest, mid) ∧ g.downEach? mid = some (g1, out) ∧
        gs' = g1 :: rest := by
  simp only [downChain?, Option.bind_eq_bind, Option.bind_eq_some_iff] at h
  obtain ⟨⟨rest, mid⟩, h1, ⟨g1, out'⟩, h2, he⟩ := h
  simp only [Option.some.injEq, Prod.mk.injEq] at he
  obtain ⟨rfl, rfl⟩ := he
  exact ⟨rest, mid, g1, h1, h2, rfl⟩

/-- The cascade up multiplies the samples by 2^S and only pushes to U buffers (rule R187). -/
theorem upChain?_spec {gs gs' : List Stage} {vec out : List Word}
    (h : upChain? gs vec = some (gs', out)) :
    out.length = 2 ^ gs.length * vec.length ∧ List.Forall₂ Stage.UpWork gs gs' := by
  induction gs generalizing gs' vec out with
  | nil =>
    simp only [upChain?, Option.some.injEq, Prod.mk.injEq] at h
    obtain ⟨rfl, rfl⟩ := h
    exact ⟨by simp, .nil⟩
  | cons g gs ih =>
    obtain ⟨g1, nxt, rest, h1, h2, rfl⟩ := upChain?_cons h
    obtain ⟨hl1, hw1⟩ := Stage.upEach?_spec h1
    obtain ⟨hl2, hw2⟩ := ih h2
    exact ⟨by rw [hl2, hl1, List.length_cons, pow_succ]; ring, .cons hw1 hw2⟩

/-- The cascade down divides the samples by 2^S and only pushes to D buffers (rule R188). -/
theorem downChain?_spec {gs gs' : List Stage} {vec out : List Word} {n : Nat}
    (hn : vec.length = 2 ^ gs.length * n) (h : downChain? gs vec = some (gs', out)) :
    out.length = n ∧ List.Forall₂ Stage.DownWork gs gs' := by
  induction gs generalizing gs' vec out n with
  | nil =>
    simp only [downChain?, Option.some.injEq, Prod.mk.injEq] at h
    obtain ⟨rfl, rfl⟩ := h
    exact ⟨by simpa using hn, .nil⟩
  | cons g gs ih =>
    obtain ⟨rest, mid, g1, h1, h2, rfl⟩ := downChain?_cons h
    obtain ⟨hl1, hw1⟩ := ih (n := 2 * n) (by rw [hn, List.length_cons, pow_succ]; ring) h1
    obtain ⟨hl2, hw2⟩ := Stage.downEach?_spec hl1 h2
    exact ⟨hl2, .cons hw2 hw1⟩

/-- Whatever the frame: the cascade down only pushes to D buffers. -/
theorem downChain?_work {gs gs' : List Stage} {vec out : List Word}
    (h : downChain? gs vec = some (gs', out)) : List.Forall₂ Stage.DownWork gs gs' := by
  induction gs generalizing gs' vec out with
  | nil =>
    simp only [downChain?, Option.some.injEq, Prod.mk.injEq] at h
    obtain ⟨rfl, rfl⟩ := h
    exact .nil
  | cons g gs ih =>
    obtain ⟨rest, mid, g1, h1, h2, rfl⟩ := downChain?_cons h
    exact .cons (Stage.downEach?_work h2) (ih h1)

/-- What `downsample` gives (rule R188). -/
theorem downsample?_eq_some {gs gs' : List Stage} {vec : List Word} {y : Word}
    (h : downsample? gs vec = some (gs', y)) : ∃ out,
      downChain? gs vec = some (gs', out) ∧ out.head? = some y := by
  simp only [downsample?, Option.bind_eq_bind, Option.bind_eq_some_iff] at h
  obtain ⟨⟨gs1, out⟩, h1, a, h2, he⟩ := h
  simp only [Option.some.injEq, Prod.mk.injEq] at he
  obtain ⟨rfl, rfl⟩ := he
  exact ⟨out, h1, h2⟩

/-- Outside the domain the cascade up still only touches U buffers (rule R128; log 6). -/
theorem State.freeUpChain_work (s : State) (gs : List Stage) (n skip : Nat) :
    List.Forall₂ Stage.UpWork gs (s.freeUpChain gs n skip) := by
  induction gs generalizing n skip with
  | nil => exact .nil
  | cons g gs ih => exact .cons (Stage.upWork_freeUp g _ _ _ _) (ih _ _)

/-- Outside the domain the cascade down still only touches D buffers (rule R128; log 6). -/
theorem State.freeDownChain_work (s : State) (gs : List Stage) (n skip : Nat) :
    List.Forall₂ Stage.DownWork gs (s.freeDownChain gs n skip) := by
  induction gs generalizing n skip with
  | nil => exact .nil
  | cons g gs ih => exact .cons (Stage.downWork_freeDown g _ _ _ _) (ih _ _)

/-- What `PROC` computes inside the domain: up, shape, down (rule R230). -/
theorem State.process?_eq_some {s : State} {r : ProcResult} (h : s.process? = some r) :
    ∃ up vec, s.upsample? = some (up, vec) ∧
      shapeFrame? s.shape s.epsa s.tracker vec = some (r.tracker, r.frame) ∧
      downsample? up r.frame = some (r.stages, r.y) := by
  simp only [State.process?, Option.bind_eq_bind, Option.bind_eq_some_iff] at h
  obtain ⟨⟨up, vec⟩, h1, ⟨t, shaped⟩, h2, ⟨down, y⟩, h3, he⟩ := h
  simp only [Option.some.injEq] at he
  subst he
  exact ⟨up, vec, h1, h2, h3⟩

/-- The waveshaper gives one sample for one. -/
theorem shapeFrame?_length {v : Variant} {e : Word} {xs ys : List Word} {t t' : Tracker}
    (h : shapeFrame? v e t xs = some (t', ys)) : ys.length = xs.length := by
  induction xs generalizing t ys with
  | nil =>
    simp only [shapeFrame?, Option.some.injEq, Prod.mk.injEq] at h
    rw [← h.2]
  | cons x xs ih =>
    simp only [shapeFrame?, Option.bind_eq_bind, Option.bind_eq_some_iff] at h
    obtain ⟨⟨t1, y⟩, h1, ⟨t2, tail⟩, h2, he⟩ := h
    simp only [Option.some.injEq, Prod.mk.injEq] at he
    obtain ⟨rfl, rfl⟩ := he
    rw [List.length_cons, List.length_cons, ih h2]

end Sys2Proof.Machine
end

