-- ==== Sys2Proof/Laws/Device.lean ====
section
/-! SUPPORT. What one access to a device can do, said once. -/

namespace Sys2Proof.Machine

/-- A next device is the same device with the one channel that was served replaced (rule R262). -/
theorem Device.serveAt_eq_next {D D' : Device} {c : Nat} {e : Access} (h : D.serveAt c e = .next D') :
    ∃ s t, D.channels[c]? = some s ∧ serve e.event s = .next t ∧
      D' = { channels := D.channels.set c t } := by
  unfold Device.serveAt at h
  split at h
  · cases h
  · split at h
    · cases h
      exact ⟨_, _, ‹_›, ‹_›, rfl⟩
    · cases h
    · cases h

/-- A channel served by a device is the channel served alone (rule R262). -/
theorem Device.serveAt_of_serve {D : Device} {c : Nat} {e : Access} {s t : State}
    (hc : D.channels[c]? = some s) (h : serve e.event s = .next t) :
    D.serveAt c e = .next { channels := D.channels.set c t } := by
  simp [Device.serveAt, hc, h]

@[simp] theorem Device.serveEvent_reset (D : Device) : D.serveEvent .reset = .next D.resetInput := rfl
@[simp] theorem Device.resetInput_channels (D : Device) :
    D.resetInput.channels = D.channels.map State.resetInput := rfl

end Sys2Proof.Machine
end

