-- ==== Sys2Proof/Laws/Exec.lean ====
section
/-! SUPPORT. What each command can do, and what one step can do: one inversion lemma each, every case with its condition. -/

namespace Sys2Proof.Machine

/-- The two ways `PUSH` ends (rule R147). -/
theorem exec_push_cases {d : Dir} {st : StageIx} {b : Branch} {va : VReg} {s t : State}
    (h : exec (.push d st b va) s = .next t) :
    (s.stage? st = none ∧ t = s.reject (.notConfigured st true false)) ∨
    ∃ g, s.stage? st = some g ∧
      t = s.setStage st (g.setRing d b ((g.ring d b).push g.c (s.readV va))) := by
  simp only [exec, execPush] at h
  split at h
  · exact .inl ⟨‹_›, by simpa [rejected] using h.symm⟩
  · exact .inr ⟨_, ‹_›, by simpa using h.symm⟩

/-- The three ways `CONV` ends (rules R128, R148). -/
theorem exec_conv_cases {d : Dir} {st : StageIx} {b tb : Branch} {vd : VReg} {s t : State}
    (h : exec (.conv d st b tb vd) s = .next t) :
    (s.stage? st = none ∧ t = s.reject (.notConfigured st true false)) ∨
    ∃ g, s.stage? st = some g ∧
      ((∃ a, (g.ring d b).convolve? g.c (g.taps tb) = some a ∧ t = s.writeV vd a) ∨
       ((g.ring d b).convolve? g.c (g.taps tb) = none ∧
          t = (s.writeV vd (s.freeAt 0)).useFree 1)) := by
  simp only [exec, execConv] at h
  split at h
  · exact .inl ⟨‹_›, by simpa [rejected] using h.symm⟩
  · refine .inr ⟨_, ‹_›, ?_⟩
    split at h
    · exact .inl ⟨_, ‹_›, by simpa using h.symm⟩
    · exact .inr ⟨‹_›, by simpa using h.symm⟩

/-- The three ways `STUP` ends (rules R128, R166). -/
theorem exec_stup_cases {st : StageIx} {vd va : VReg} {s t : State}
    (h : exec (.stup st vd va) s = .next t) :
    (s.stage? st = none ∧ t = s.reject (.notConfigured st true false)) ∨
    ∃ g, s.stage? st = some g ∧
      ((∃ g' o0 o1, g.up? (s.readV va) = some (g', o0, o1) ∧
          t = ((s.setStage st g').writeV vd o0).writeV (pairNext vd) o1) ∨
       (g.up? (s.readV va) = none ∧
          t = (((s.setStage st
              (g.freeUp [s.freeAt 0] [s.freeAt 1] (s.freeAt 3) (s.freeAt 4))).writeV vd
            (g.pushUp [s.freeAt 0] [s.freeAt 1]).delayed).writeV (pairNext vd)
            (s.freeAt 2)).useFree 5)) := by
  simp only [exec, execStup] at h
  split at h
  · exact .inl ⟨‹_›, by simpa [rejected] using h.symm⟩
  · refine .inr ⟨_, ‹_›, ?_⟩
    split at h
    · exact .inl ⟨_, _, _, ‹_›, by simpa using h.symm⟩
    · exact .inr ⟨‹_›, by simpa using h.symm⟩

/-- The three ways `STDN` ends (rules R128, R167). -/
theorem exec_stdn_cases {st : StageIx} {vd va : VReg} {s t : State}
    (h : exec (.stdn st vd va) s = .next t) :
    (s.stage? st = none ∧ t = s.reject (.notConfigured st true false)) ∨
    ∃ g, s.stage? st = some g ∧
      ((∃ g' y, g.down? (s.readV va) (s.readV (pairNext va)) = some (g', y) ∧
          t = (s.setStage st g').writeV vd y) ∨
       (g.down? (s.readV va) (s.readV (pairNext va)) = none ∧
          t = ((s.setStage st
              (g.freeDown [s.freeAt 0] [s.freeAt 1] (s.freeAt 3) (s.freeAt 4))).writeV vd
            (s.freeAt 2)).useFree 5)) := by
  simp only [exec, execStdn] at h
  split at h
  · exact .inl ⟨‹_›, by simpa [rejected] using h.symm⟩
  · refine .inr ⟨_, ‹_›, ?_⟩
    split at h
    · exact .inl ⟨_, _, ‹_›, by simpa using h.symm⟩
    · exact .inr ⟨‹_›, by simpa using h.symm⟩

/-- The three ways `SETF` ends (rules R182, R183). -/
theorem exec_setf_cases {imm8 : Byte} {s t : State} (h : exec (.setf imm8) s = .next t) :
    (stageCount? imm8 = none ∧ t = s.reject (.invalidFactor imm8)) ∨
    ∃ n, stageCount? imm8 = some n ∧
      ((∃ st, s.firstBadStage n = some st ∧
          t = s.reject (.invalidTapLength st (s.tapLength st))) ∨
       (s.firstBadStage n = none ∧ t = s.construct n)) := by
  simp only [exec, execSetf] at h
  split at h
  · exact .inl ⟨‹_›, by simpa [rejected] using h.symm⟩
  · refine .inr ⟨_, ‹_›, ?_⟩
    split at h
    · exact .inl ⟨_, ‹_›, by simpa [rejected] using h.symm⟩
    · exact .inr ⟨‹_›, by simpa using h.symm⟩

/-- The two ways `SHINIT` ends (rules R211, R212). -/
theorem exec_shinit_cases {v : Variant} {s t : State} (h : exec (.shinit v) s = .next t) :
    (badEpsilon s.eps = true ∧ t = s.reject .invalidEpsilon) ∨
    (badEpsilon s.eps = false ∧
      t = { s with
        shape := v, epsa := s.eps, xprev := 0#32, adprev := shapeAD v 0#32, wsr := true }) := by
  simp only [exec, execShinit] at h
  split at h
  · exact .inl ⟨‹_›, by simpa [rejected] using h.symm⟩
  · exact .inr ⟨Bool.eq_false_iff.mpr ‹_›, by simpa using h.symm⟩

/-- The three ways `SHP` ends (rules R128, R214). -/
theorem exec_shp_cases {vd va : VReg} {s t : State} (h : exec (.shp vd va) s = .next t) :
    (s.wsr = false ∧ t = s.reject (.notConfigured 0#2 false true)) ∨
    (s.wsr = true ∧
      ((∃ k y, adaaStep? s.shape s.epsa s.tracker (s.readV va) = some (k, y) ∧
          t = { s.writeV vd y with xprev := k.xprev, adprev := k.adprev }) ∨
       (adaaStep? s.shape s.epsa s.tracker (s.readV va) = none ∧
          t = { s.writeV vd (s.freeAt 0) with
            xprev := s.freeAt 1, adprev := s.freeAt 2, free := s.free + 3 }))) := by
  simp only [exec, execShp] at h
  split at h
  · refine .inr ⟨‹_›, ?_⟩
    split at h
    · exact .inl ⟨_, _, ‹_›, by simpa using h.symm⟩
    · exact .inr ⟨‹_›, by simpa using h.symm⟩
  · exact .inl ⟨Bool.eq_false_iff.mpr ‹_›, by simpa [rejected] using h.symm⟩

/-- The three ways `UPS` ends (rules R128, R187). -/
theorem exec_ups_cases {s t : State} (h : exec .ups s = .next t) :
    (s.osr = false ∧ t = s.reject (.notConfigured 0#2 true false)) ∨
    (s.osr = true ∧
      ((∃ gs vec, s.upsample? = some (gs, vec) ∧
          t = { s with stages := gs, v := writeFrame s.v vec }) ∨
       (s.upsample? = none ∧
          t = { s with
            stages := s.freeUpChain s.stages 1 0
            v := writeFrame s.v (s.freeWords (chainFree s.S) s.chainFactor)
            free := s.free + chainFree s.S + s.chainFactor }))) := by
  simp only [exec, execUps] at h
  split at h
  · refine .inr ⟨‹_›, ?_⟩
    split at h
    · exact .inl ⟨_, _, ‹_›, by simpa using h.symm⟩
    · exact .inr ⟨‹_›, by simpa using h.symm⟩
  · exact .inl ⟨Bool.eq_false_iff.mpr ‹_›, by simpa [rejected] using h.symm⟩

/-- The three ways `DNS` ends (rules R128, R188). -/
theorem exec_dns_cases {s t : State} (h : exec .dns s = .next t) :
    (s.osr = false ∧ t = s.reject (.notConfigured 0#2 true false)) ∨
    (s.osr = true ∧
      ((∃ gs a, downsample? s.stages (s.frame s.chainFactor) = some (gs, a) ∧
          t = { s with stages := gs, y := a }) ∨
       (downsample? s.stages (s.frame s.chainFactor) = none ∧
          t = { s with
            stages := s.freeDownChain s.stages 1 0
            y := s.freeAt (chainFree s.S)
            free := s.free + chainFree s.S + 1 }))) := by
  simp only [exec, execDns] at h
  split at h
  · refine .inr ⟨‹_›, ?_⟩
    split at h
    · exact .inl ⟨_, _, ‹_›, by simpa using h.symm⟩
    · exact .inr ⟨‹_›, by simpa using h.symm⟩
  · exact .inl ⟨Bool.eq_false_iff.mpr ‹_›, by simpa [rejected] using h.symm⟩

/-- The three ways `PROC` ends (rules R128, R230). -/
theorem exec_proc_cases {s t : State} (h : exec .proc s = .next t) :
    (¬ (s.osr = true ∧ s.wsr = true) ∧
        t = s.reject (.notConfigured 0#2 (!s.osr) (!s.wsr))) ∨
    ((s.osr = true ∧ s.wsr = true) ∧
      ((∃ r, s.process? = some r ∧
          t = { s with
            stages := r.stages, v := writeFrame s.v r.frame, xprev := r.tracker.xprev,
            adprev := r.tracker.adprev, y := r.y }) ∨
       (s.process? = none ∧
          t = { s with
            stages := s.freeDownChain (s.freeUpChain s.stages 1 0) 1 (chainFree s.S)
            v := writeFrame s.v (s.freeWords (2 * chainFree s.S) s.chainFactor)
            xprev := s.freeAt (2 * chainFree s.S + s.chainFactor)
            adprev := s.freeAt (2 * chainFree s.S + s.chainFactor + 1)
            y := s.freeAt (2 * chainFree s.S + s.chainFactor + 2)
            free := s.free + 2 * chainFree s.S + s.chainFactor + 3 }))) := by
  simp only [exec, execProc] at h
  split at h
  · rename_i hc
    refine .inr ⟨by simpa using hc, ?_⟩
    split at h
    · exact .inl ⟨_, ‹_›, by simpa using h.symm⟩
    · exact .inr ⟨‹_›, by simpa using h.symm⟩
  · rename_i hc
    exact .inl ⟨by simpa using hc, by simpa [rejected] using h.symm⟩

/-- A command word runs the command it spells, or is rejected (rule R91). -/
theorem runCommand_cases {w : Word} {s t : State} (h : runCommand w s = .next t) :
    (∃ i, decode w = .ok i ∧ exec i { s with cmd := w } = .next t) ∨
    (∃ e, decode w = .error e ∧ t = ({ s with cmd := w } : State).reject .illegalCommand) := by
  simp only [runCommand] at h
  split at h
  · exact .inl ⟨_, ‹_›, h⟩
  · exact .inr ⟨_, ‹_›, by simpa [rejected] using h.symm⟩

/-- The five things a step can be (rules R13, R62, R63, R91, R264, R270). -/
theorem step_cases {s t : State} (h : step s = .next t) :
    (s.pending = [] ∧ t = s) ∨
    ∃ e rest, s.pending = e :: rest ∧
      ((∃ a, e = .read a ∧
          t = { s with pending := rest,
                       answers := ({ s with pending := rest } : State).hostRead a :: s.answers }) ∨
       (∃ w, e = .write cmdAddr w ∧ runCommand w { s with pending := rest } = .next t) ∨
       (∃ a v, e = .write a v ∧ a ≠ cmdAddr ∧
          t = ({ s with pending := rest } : State).hostWrite a v) ∨
       (e = .reset ∧ t = ({ s with pending := rest } : State).resetInput)) := by
  simp only [step, serveNext] at h
  split at h
  · exact .inl ⟨‹_›, by simpa using h.symm⟩
  · rename_i e rest he
    refine .inr ⟨e, rest, he, ?_⟩
    cases e with
    | read a => exact .inl ⟨a, rfl, by simpa [serve] using h.symm⟩
    | write a v =>
      simp only [serve] at h
      split at h
      · subst_vars
        exact .inr (.inl ⟨v, rfl, h⟩)
      · exact .inr (.inr (.inl ⟨a, v, rfl, ‹_›, by simpa using h.symm⟩))
    | reset => exact .inr (.inr (.inr ⟨rfl, by simpa [serve] using h.symm⟩))

end Sys2Proof.Machine
end

