-- ==== Sys2Proof/Laws/Memory.lean ====
section
/-! SUPPORT. The laws of staging memory: read after write, and the canonical form is kept. -/

namespace Sys2Proof.Machine

/-- Read after write: the byte written is read back, every other byte is as before. -/
theorem Memory.byte?_setByte (m : Memory) (a b : Nat) (v : Byte) :
    Memory.byte? (Memory.setByte m a v) b = if b = a then some v else Memory.byte? m b := by
  induction m with
  | nil =>
    by_cases h : b = a
    · subst h; simp [Memory.setByte, Memory.byte?]
    · have h' : a ≠ b := Ne.symm h
      simp [Memory.setByte, Memory.byte?, h, h']
  | cons cell rest ih =>
    obtain ⟨c, w⟩ := cell
    unfold Memory.setByte
    split
    · by_cases h : b = a
      · subst h; simp [Memory.byte?]
      · have h' : a ≠ b := Ne.symm h
        simp [Memory.byte?, h, h']
    · split
      · rename_i heq
        subst heq
        by_cases h : b = a
        · subst h; simp [Memory.byte?]
        · have h' : a ≠ b := Ne.symm h
          simp [Memory.byte?, h, h']
      · by_cases h : b = a
        · subst h
          have hc : c ≠ b := by omega
          simp [Memory.byte?, ih, hc]
        · simp [Memory.byte?, ih, h]

/-- Writing one byte keeps the offsets rising. -/
theorem Memory.risingFrom_setByte (m : Memory) (low a : Nat) (v : Byte)
    (hm : Memory.risingFrom low m = true) (ha : low ≤ a) :
    Memory.risingFrom low (Memory.setByte m a v) = true := by
  induction m generalizing low with
  | nil => simpa [Memory.setByte, Memory.risingFrom] using ha
  | cons cell rest ih =>
    obtain ⟨c, w⟩ := cell
    simp only [Memory.risingFrom, Bool.and_eq_true, decide_eq_true_eq] at hm
    unfold Memory.setByte
    split
    · simp only [Memory.risingFrom, Bool.and_eq_true, decide_eq_true_eq]
      exact ⟨ha, by omega, hm.2⟩
    · split
      · simpa [Memory.risingFrom] using hm
      · simp only [Memory.risingFrom, Bool.and_eq_true, decide_eq_true_eq]
        exact ⟨hm.1, ih (c + 1) hm.2 (by omega)⟩

/-- Writing one byte lists no offset but the one written and those listed before. -/
theorem Memory.mem_setByte {m : Memory} {a : Nat} {v : Byte} {cell : Host.Cell}
    (h : cell ∈ Memory.setByte m a v) : cell.1 = a ∨ cell ∈ m := by
  induction m with
  | nil => simp only [Memory.setByte, List.mem_singleton] at h; exact .inl (by rw [h])
  | cons c0 rest ih =>
    obtain ⟨c, w⟩ := c0
    unfold Memory.setByte at h
    split at h
    · simp only [List.mem_cons] at h ⊢
      rcases h with rfl | h | h <;> simp_all
    · split at h
      · simp only [List.mem_cons] at h ⊢
        rcases h with rfl | h
        · left; simp_all
        · exact .inr (.inr h)
      · simp only [List.mem_cons] at h ⊢
        rcases h with rfl | h
        · exact .inr (.inl rfl)
        · exact (ih h).imp id .inr

/-- The canonical form is kept by a write of one byte inside `TAPS`. -/
theorem Memory.wf_setByte {m : Memory} {a : Nat} (v : Byte) (hm : Memory.wf m = true)
    (hlow : 0x400 ≤ a) (hhigh : a < 0x1400) : Memory.wf (Memory.setByte m a v) = true := by
  simp only [Memory.wf, Bool.and_eq_true, List.all_eq_true, decide_eq_true_eq] at hm ⊢
  refine ⟨Memory.risingFrom_setByte m _ a v hm.1 hlow, fun cell hc => ?_⟩
  rcases Memory.mem_setByte hc with h | h
  · omega
  · exact hm.2 cell h

/-- The canonical form is kept by a write of one word inside `TAPS`. -/
theorem Memory.wf_setWord {m : Memory} {a : Nat} (v : Word) (hm : Memory.wf m = true)
    (hlow : 0x400 ≤ a) (hhigh : a + 3 < 0x1400) : Memory.wf (Memory.setWord m a v) = true := by
  unfold Memory.setWord
  exact Memory.wf_setByte _ (Memory.wf_setByte _ (Memory.wf_setByte _
    (Memory.wf_setByte _ hm hlow (by omega)) (by omega) (by omega)) (by omega) (by omega))
    (by omega) (by omega)

/-- After a write of one word: its four bytes are the word's, little-endian, the others as before. -/
theorem Memory.byte?_setWord (m : Memory) (a b : Nat) (v : Word) :
    Memory.byte? (Memory.setWord m a v) b =
      if b = a then some (v.extractLsb' 0 8)
      else if b = a + 1 then some (v.extractLsb' 8 8)
      else if b = a + 2 then some (v.extractLsb' 16 8)
      else if b = a + 3 then some (v.extractLsb' 24 8)
      else Memory.byte? m b := by
  simp only [Memory.setWord, Memory.byte?_setByte]
  split_ifs <;> first | rfl | omega

/-- Four bytes of a word, put together again. -/
theorem word_of_bytes (v : Word) :
    v.extractLsb' 24 8 ++ v.extractLsb' 16 8 ++ v.extractLsb' 8 8 ++ v.extractLsb' 0 8 = v := by
  ext i hi
  simp only [BitVec.getElem_append, BitVec.getElem_extractLsb']
  split_ifs with h0 h1 h2
  · simp [BitVec.getLsbD_eq_getElem hi]
  · have e : 8 + (i - 8) = i := by omega
    simp [e, BitVec.getLsbD_eq_getElem hi]
  · have e : 16 + (i - 8 - 8) = i := by omega
    simp [e, BitVec.getLsbD_eq_getElem hi]
  · have e : 24 + (i - 8 - 8 - 8) = i := by omega
    simp [e, BitVec.getLsbD_eq_getElem hi]

/-- A staging word that was just written reads back. -/
theorem State.tapWordAt_setWord_same (s : State) (a : Nat) (v : Word) :
    ({ s with taps := Memory.setWord s.taps a v } : State).tapWordAt a = v := by
  simp [State.tapWordAt, State.tapByte, Memory.byte?_setWord, word_of_bytes]

/-- A staging word that does not overlap the one written reads as before. -/
theorem State.tapWordAt_setWord_other (s : State) (a b : Nat) (v : Word)
    (h : b + 3 < a ∨ a + 3 < b) :
    ({ s with taps := Memory.setWord s.taps a v } : State).tapWordAt b = s.tapWordAt b := by
  have h0 : ∀ j, j < 4 → Memory.byte? (Memory.setWord s.taps a v) (b + j) = Memory.byte? s.taps (b + j) := by
    intro j hj
    rw [Memory.byte?_setWord]
    split_ifs <;> first | rfl | omega
  have e0 := h0 0 (by omega)
  have e1 := h0 1 (by omega)
  have e2 := h0 2 (by omega)
  have e3 := h0 3 (by omega)
  simp only [Nat.add_zero] at e0
  simp [State.tapWordAt, State.tapByte, e0, e1, e2, e3]

end Sys2Proof.Machine
end

