-- ==== Sys2Proof/Laws/PerInstr.lean ====
section
/-! SUPPORT. One statement about the encoding, command by command: the word of a command lies in the row of rule R95 that names it. -/

namespace Sys2Proof

/-- The opcode of each command (rule R95). -/
def Instr.opcode : Instr → Opcode
  | .setf _ => .setf
  | .shinit _ => .shinit
  | .push _ _ _ _ => .push
  | .conv _ _ _ _ _ => .conv
  | .stup _ _ _ => .stup
  | .stdn _ _ _ => .stdn
  | .ups => .ups
  | .dns => .dns
  | .shp _ _ => .shp
  | .proc => .proc

end Sys2Proof

namespace Sys2Proof.Laws

/-- The word of i matches the row of the opcode map that belongs to i, at every operand value. -/
def EncodesOpcode.Statement (i : Instr) : Prop :=
  ∃ row ∈ opcodeMap, row.opcode = i.opcode ∧ encode i &&& row.mask = row.pattern

theorem EncodesOpcode.setf (imm8 : Byte) : EncodesOpcode.Statement (.setf imm8) :=
  ⟨⟨.setf, 0x01000000#32, 0xFFFFFF00#32⟩, by decide, rfl, by revert imm8; decide +kernel⟩

theorem EncodesOpcode.shinit (v : Variant) : EncodesOpcode.Statement (.shinit v) :=
  ⟨⟨.shinit, 0x02000000#32, 0xFFFFFFFC#32⟩, by decide, rfl, by cases v <;> decide⟩

theorem EncodesOpcode.push (d : Dir) (st : StageIx) (b : Branch) (va : VReg) :
    EncodesOpcode.Statement (.push d st b va) :=
  ⟨⟨.push, 0x10000000#32, 0xFF0FFFF0#32⟩, by decide, rfl, by
    cases d <;> cases b <;> revert st va <;> decide +kernel⟩

theorem EncodesOpcode.conv (d : Dir) (st : StageIx) (b tb : Branch) (vd : VReg) :
    EncodesOpcode.Statement (.conv d st b tb vd) :=
  ⟨⟨.conv, 0x11000000#32, 0xFF07F0FF#32⟩, by decide, rfl, by
    cases d <;> cases b <;> cases tb <;> revert st vd <;> decide +kernel⟩

theorem EncodesOpcode.stup (st : StageIx) (vd va : VReg) :
    EncodesOpcode.Statement (.stup st vd va) :=
  ⟨⟨.stup, 0x12000000#32, 0xFF9FF0F0#32⟩, by decide, rfl, by
    revert st vd va; decide +kernel⟩

theorem EncodesOpcode.stdn (st : StageIx) (vd va : VReg) :
    EncodesOpcode.Statement (.stdn st vd va) :=
  ⟨⟨.stdn, 0x13000000#32, 0xFF9FF0F0#32⟩, by decide, rfl, by
    revert st vd va; decide +kernel⟩

theorem EncodesOpcode.ups : EncodesOpcode.Statement .ups :=
  ⟨⟨.ups, 0x20000000#32, 0xFFFFFFFF#32⟩, by decide, rfl, by decide⟩

theorem EncodesOpcode.dns : EncodesOpcode.Statement .dns :=
  ⟨⟨.dns, 0x21000000#32, 0xFFFFFFFF#32⟩, by decide, rfl, by decide⟩

theorem EncodesOpcode.shp (vd va : VReg) : EncodesOpcode.Statement (.shp vd va) :=
  ⟨⟨.shp, 0x22000000#32, 0xFFFFF0F0#32⟩, by decide, rfl, by revert vd va; decide +kernel⟩

theorem EncodesOpcode.proc : EncodesOpcode.Statement .proc :=
  ⟨⟨.proc, 0x23000000#32, 0xFFFFFFFF#32⟩, by decide, rfl, by decide⟩

end Sys2Proof.Laws
end

