-- ==== Sys2Proof/Laws/Strict.lean ====
section
/-! SUPPORT. What the strict step can do, said once. -/

namespace Sys2Proof.Machine

/-- A next state of the strict step is the next state of the step, reached without a free word and without
an unwritten staging word (rules R128, R271). -/
theorem strictStep_eq_next {s t : State} (h : strictStep s = .next t) :
    s.pending.head?.any s.eventMissing = false ∧ step s = .next t ∧ t.free = s.free := by
  unfold strictStep at h
  split at h
  · cases h
  · split at h
    · split at h
      · cases h
        exact ⟨Bool.eq_false_iff.mpr ‹_›, ‹_›, ‹_›⟩
      · cases h
    · cases h
    · cases h

/-- Where the step uses no free word and no unwritten staging word, the strict step is the step. -/
theorem strictStep_of_inside {s t : State} (hm : s.pending.head?.any s.eventMissing = false)
    (h : step s = .next t) (hf : t.free = s.free) : strictStep s = .next t := by
  simp [strictStep, hm, h, hf]

/-- Where it uses a free word, the strict step faults (rule R128). -/
theorem strictStep_of_outside {s t : State} (hm : s.pending.head?.any s.eventMissing = false)
    (h : step s = .next t) (hf : t.free ≠ s.free) : strictStep s = .fault .outsideDomain := by
  simp [strictStep, hm, h, hf]

/-- Where the event takes an unwritten staging word, the strict step faults (rule R271, U8). -/
theorem strictStep_of_missing {s : State} (hm : s.pending.head?.any s.eventMissing = true) :
    strictStep s = .fault .unwrittenTaps := by
  simp [strictStep, hm]

end Sys2Proof.Machine
end

