-- ==== Sys2Proof/Tests/Slice0.lean ====
section
/-! SUPPORT. Tests on fixed values (their results from spec/95_test_vectors.md and the encoding tables) and, for each obligation with hypotheses, a witness that meets them. -/

open Sys2Proof Sys2Proof.Machine Sys2Proof.Stated Host

namespace Sys2Proof.Tests

/-! ### Well-formedness and decoding -/

theorem test_wf_stup_v15 : (Instr.stup 0#2 15#4 0#4).wellFormed = false := by decide
theorem test_wf_stdn_v15 : (Instr.stdn 0#2 0#4 15#4).wellFormed = false := by decide
theorem test_wf_stup_source_v15 : (Instr.stup 0#2 14#4 15#4).wellFormed = true := by decide
theorem test_wf_stdn_dest_v15 : (Instr.stdn 0#2 15#4 14#4).wellFormed = true := by decide

/- Every word below is written from the layouts of rule R93: opcode, d, s, b, tb, zeros, vd, zeros, va. -/
theorem test_dec_setf : decode 0b00000001_0000000000000000_10000001#32 = .ok (.setf 0x81#8) := by
  decide
theorem test_dec_shinit : decode 0b00000010_0000000000000000_00000010#32 = .ok (.shinit .diode) := by
  decide
theorem test_dec_push :
    decode 0b00010000_1_10_1_0000000000000000_1001#32 = .ok (.push .down 2#2 .odd 9#4) := by decide
theorem test_dec_conv :
    decode 0b00010001_0_11_0_1_0000000_1010_00000000#32 = .ok (.conv .up 3#2 .even .odd 10#4) := by
  decide
theorem test_dec_stup :
    decode 0b00010010_0_01_000000000_1110_0000_1111#32 = .ok (.stup 1#2 14#4 15#4) := by decide
theorem test_dec_stdn :
    decode 0b00010011_0_10_000000000_1111_0000_1110#32 = .ok (.stdn 2#2 15#4 14#4) := by decide
theorem test_dec_ups : decode 0b00100000_000000000000000000000000#32 = .ok .ups := by decide
theorem test_dec_dns : decode 0b00100001_000000000000000000000000#32 = .ok .dns := by decide
theorem test_dec_shp : decode 0b00100010_000000000000_0101_0000_1100#32 = .ok (.shp 5#4 12#4) := by
  decide
theorem test_dec_proc : decode 0b00100011_000000000000000000000000#32 = .ok .proc := by decide

/-- Step 4 of rule R91. -/
theorem test_dec_stup_pair : decode 0x12000F00#32 = .error .pairPastV15 := by decide
theorem test_dec_stdn_pair : decode 0x1300000F#32 = .error .pairPastV15 := by decide
/-- Step 3: `SHINIT 4`, a bit of imm8[7:2]. -/
theorem test_dec_shinit_mbz : decode 0x02000004#32 = .error (.mustBeZero 0x00000004#32) := by decide
/-- Step 2. -/
theorem test_dec_no_opcode : decode 0x14000000#32 = .error (.unknownOpcode 0x14#8) := by decide

/-! ### Small states -/

/-- What an outcome's next state shows of itself. -/
def seen {α : Type} (o : Outcome State Fault Refusal) (f : State → α) : Option α :=
  match o with
  | .next t => some (f t)
  | .fault _ => none
  | .refused _ => none

/-- A stage of length K = k with fresh buffers. -/
def freshStage (k c : Nat) (etaps otaps : List Word) : Stage :=
  { k := k, c := c, etaps := etaps, otaps := otaps
    upE := Ring.fresh c, upO := Ring.fresh c, dnE := Ring.fresh c, dnO := Ring.fresh c }

/-- H3 of the spec's test arrays: 0.25, 0.5, 0.25. -/
def h3 : Stage := freshStage 1 2 [0x3F000000#32] [0x3E800000#32, 0x3E800000#32]
/-- DEC7 of the spec's test arrays: the even taps are 1, 10, 100. -/
def dec7 : Stage :=
  freshStage 2 4 [0x3F800000#32, 0x41200000#32, 0x42C80000#32] [0#32, 0#32, 0#32, 0#32]

/-- One stage H3 and `IDENT`, epsilon 2^-10, X = V0 = 1.0. -/
def one : State :=
  { State.reset with
    stages := [h3], osr := true, factor := 2#5, latOs := 2#32, latency := 1#32
    wsr := true, shape := .ident, eps := 0x3A800000#32, epsa := 0x3A800000#32
    x := 0x3F800000#32, v := (Vector.replicate 16 0#32).set 0 0x3F800000#32 }

/-- Two stages H3, else as `one`. -/
def two : State :=
  { one with stages := [h3, h3], factor := 4#5, latOs := 6#32, latency := 2#32 }

/-- As `one`, but X and V0 hold a NaN: outside the finite domain. -/
def oneNaN : State :=
  { one with x := 0x7FC00000#32, v := (Vector.replicate 16 0#32).set 0 0x7FC00000#32 }

/-- A NaN in both D buffers, as the commands of a host can leave it. -/
def oneDirty : State :=
  { oneNaN with
    stages := [{ h3 with dnE := ⟨[0x7FC00000#32, 0#32], 1⟩, dnO := ⟨[0x7FC00000#32, 0#32], 1⟩ }] }

/-- H3 staged for the four stages: every word that `SETF` takes has been written. -/
def staged : State :=
  { State.reset with
    taplen := Vector.replicate 4 3#16
    taps := (List.range 4).foldl (fun m st =>
      ((m.setWord (tapOffset st 0) 0x3E800000#32).setWord (tapOffset st 1) 0x3F000000#32).setWord
        (tapOffset st 2) 0x3E800000#32) [] }

/-- Lengths 3, 3, 3, 3 staged; the words are unwritten. -/
def unwritten : State := { State.reset with taplen := Vector.replicate 4 3#16 }

/-! ### Arithmetic: rows of T3 and T6 -/

theorem test_fadd_tie_even : fadd 0x4B800001#32 0x3F800000#32 = 0x4B800002#32 := by decide
theorem test_fmul_subnormal_tie : fmul 0x3F000000#32 0x00000003#32 = 0x00000002#32 := by decide
theorem test_fdiv_third : fdiv 0xBF800000#32 0x40400000#32 = 0xBEAAAAAB#32 := by decide
theorem test_ident_ad : shapeAD .ident 0x3F805000#32 = 0x3F00A032#32 := by decide

/-! ### One command each -/

/-- T71: with H3 staged, `SETF 4` gives FACTOR 4, LAT_OS 6, LATENCY 2 and two fresh stages H3. -/
theorem test_setf_four :
    seen (exec (.setf 4#8) staged) (fun t => (t.osr, t.factor, t.latOs, t.latency, t.stages))
      = some (true, 4#5, 6#32, 2#32, [h3, h3]) := by decide
/-- T71: the factor 255. -/
theorem test_setf_bad_factor :
    seen (exec (.setf 255#8) staged) (fun t => (t.errflags, t.lasterr, t.factor))
      = some (0x00000002#32, 0x0000FF01#32, 0#5) := by decide
/-- T40: `SHINIT IDENT` latches the threshold. -/
theorem test_shinit_ident :
    seen (exec (.shinit .ident) { State.reset with eps := 0x3A800000#32 })
      (fun t => (t.wsr, t.shape, t.epsa, t.xprev, t.adprev))
      = some (true, .ident, 0x3A800000#32, 0#32, 0#32) := by decide
/-- T45: the negative subnormal nearest zero is rejected. -/
theorem test_shinit_negative :
    seen (exec (.shinit .ident) { State.reset with eps := 0x80000001#32 })
      (fun t => (t.errflags, t.lasterr, t.wsr))
      = some (0x00000020#32, 0x00000005#32, false) := by decide

/-- T10: the fifth push overwrites the first sample. -/
theorem test_push_wraps :
    seen (exec (.push .down 0#2 .even 0#4)
      { one with
        stages := [{ dec7 with
          dnE := ⟨[0x3F800000#32, 0x40000000#32, 0x40400000#32, 0x40800000#32], 0⟩ }]
        v := (Vector.replicate 16 0#32).set 0 0x40A00000#32 })
      (fun t => t.stages.map (fun g => (g.dnE, g.dnO.w)))
      = some [(⟨[0x40A00000#32, 0x40000000#32, 0x40400000#32, 0x40800000#32], 1⟩, 0)] := by
  decide
/-- T10: the newest sample meets the first tap: 5 + 10*4 + 100*3 = 345. -/
theorem test_conv_newest_first :
    seen (exec (.conv .down 0#2 .even .even 9#4)
      { one with
        stages := [{ dec7 with
          dnE := ⟨[0x40A00000#32, 0x40000000#32, 0x40400000#32, 0x40800000#32], 1⟩ }] })
      (fun t => t.readV 9#4) = some 0x43AC8000#32 := by decide
/-- T2: lane 0 loses its 1 and lane 1 does not; a sum in tap order would give 0x4B800000. -/
theorem test_conv_lane_order :
    Ring.convolve? 8 ⟨[0#32, 0#32, 0x3F800000#32, 0x3F800000#32, 0#32, 0#32, 0x3F800000#32,
      0x4B800000#32], 0⟩ (List.replicate 8 0x3F800000#32) = some 0x4B800001#32 := by decide

/-- T20 row 0: (o0, o1) = (+0.0, 0.5), both U buffers pushed. -/
theorem test_stup_impulse :
    seen (exec (.stup 0#2 2#4 0#4) one)
      (fun t => (t.readV 2#4, t.readV 3#4, t.stages.map (fun g => (g.upE.w, g.upO.w, g.dnE.w))))
      = some (0#32, 0x3F000000#32, [(1, 1, 0)]) := by decide
/-- T21: `STUP 0, V4, V5` reads V5 before it writes it. -/
theorem test_stup_alias :
    seen (exec (.stup 0#2 4#4 5#4)
      { one with
        stages := [{ h3 with upE := ⟨[0x3F800000#32, 0#32], 1⟩, upO := ⟨[0x3F800000#32, 0#32], 1⟩ }]
        v := (Vector.replicate 16 0#32).set 5 0x40000000#32 })
      (fun t => (t.readV 4#4, t.readV 5#4)) = some (0x3F800000#32, 0x3FC00000#32) := by decide
/-- T21: `STDN 0, V1, V0` with V0 = 0, V1 = 0.5 writes V1 = 0.125. -/
theorem test_stdn_alias :
    seen (exec (.stdn 0#2 1#4 0#4)
      { one with v := (Vector.replicate 16 0#32).set 1 0x3F000000#32 })
      (fun t => (t.readV 0#4, t.readV 1#4)) = some (0#32, 0x3E000000#32) := by decide
/-- T24, n = 0: RAMP7, a pair (1, 0) gives h[1] = 2. -/
theorem test_stdn_ramp :
    seen (exec (.stdn 0#2 2#4 0#4)
      { one with
        stages := [freshStage 2 4 [0x40000000#32, 0x40800000#32, 0x40C00000#32]
          [0x3F800000#32, 0x40400000#32, 0x40A00000#32, 0x40E00000#32]] })
      (fun t => t.readV 2#4) = some 0x40000000#32 := by decide

/-- T30, frame 0: V0..V3 = 0, 0, 0, 0.25. -/
theorem test_ups_impulse :
    seen (exec .ups two) (fun t => (List.range 4).map fun i => t.readV (BitVec.ofNat 4 i))
      = some [0#32, 0#32, 0#32, 0x3E800000#32] := by decide
/-- T36: with F = 2, V2 is untouched. -/
theorem test_ups_leaves_rest :
    seen (exec .ups { one with v := (Vector.replicate 16 0#32).set 2 0x40E00000#32 })
      (fun t => (t.readV 0#4, t.readV 1#4, t.readV 2#4))
      = some (0#32, 0x3F000000#32, 0x40E00000#32) := by decide
/-- T30, frame 0: Y = 0.015625. -/
theorem test_dns_impulse :
    seen (exec .dns { two with v := (Vector.replicate 16 0#32).set 3 0x3E800000#32 })
      (fun t => t.y) = some 0x3C800000#32 := by decide

/-- T40, step 1: the quotient path. -/
theorem test_shp_quotient :
    seen (exec (.shp 1#4 0#4) one) (fun t => (t.readV 1#4, t.xprev, t.adprev))
      = some (0x3F000000#32, 0x3F800000#32, 0x3F000000#32) := by decide
/-- T41: a step equal to the threshold takes the midpoint. -/
theorem test_shp_boundary :
    seen (exec (.shp 1#4 0#4)
      { one with
        epsa := 0x39800000#32, xprev := 0x3F800000#32, adprev := 0x3F000000#32
        v := (Vector.replicate 16 0#32).set 0 0x3F800800#32 })
      (fun t => (t.readV 1#4, t.xprev, t.adprev))
      = some (0x3F800400#32, 0x3F800800#32, 0x3F001000#32) := by decide
/-- T51 (a), frame 0: (V0, V1, Y) = (0, 0.25, 0.0625); XPREV is the unshaped sample. -/
theorem test_proc_impulse :
    seen (exec .proc one) (fun t => (t.readV 0#4, t.readV 1#4, t.y, t.xprev, t.adprev))
      = some (0#32, 0x3E800000#32, 0x3D800000#32, 0x3F000000#32, 0x3E000000#32) := by decide
/-- T52: without a waveshaper `PROC` is rejected whole. -/
theorem test_proc_rejected :
    seen (exec .proc { one with wsr := false }) (fun t => (t.lasterr, t.readV 1#4, t.stages))
      = some (0x00020004#32, 0#32, [h3]) := by decide

/-- A first command after reset, through the port: T70, `UPS` with nothing built. -/
theorem test_step_from_reset :
    seen (step (State.reset.withFetchWord 32 0x20000000)) (fun t => (t.cmd, t.lasterr, t.pending))
      = some (0x20000000#32, 0x00010004#32, []) := by decide

/-! ### Witnesses: concrete values that meet the hypotheses of each obligation together -/

/-- The state that a step, if it answers one, leaves. -/
def left (o : Outcome State Fault Refusal) : State := (seen o id).getD State.reset

theorem witness_DecodeEncodeAgree : (Instr.stup 3#2 14#4 15#4).wellFormed = true := by decide
theorem witness_EncodeDecodeAgree : decode 0x12600E0F#32 = .ok (.stup 3#2 14#4 15#4) := by decide

theorem witness_StepRunsDecodedCommand :
    (one.withFetchWord 32 0x20000000).pending = .write 0#11 0x20000000#32 :: [] ∧
    decode 0x20000000#32 = .ok .ups := by decide

/-- Each of the three ways to be illegal, at a boundary, and a word beside them that is legal. -/
theorem witness_IllegalWordsRejected :
    ({ one with pending := [.write 0#11 0x12000F00#32] } : State).pending
      = [.write 0#11 0x12000F00#32] ∧
    IllegalWord 0x12000F00#32 ∧ IllegalWord 0x1300000F#32 ∧ IllegalWord 0x20000001#32 ∧
    ¬ IllegalWord 0x12600E0F#32 ∧ ¬ IllegalWord 0x1360000E#32 := by
  unfold IllegalWord; decide

theorem witness_HostReadFollowsMap :
    ({ one with pending := [.read 0x7FF#11] } : State).pending = [.read 0x7FF#11] ∧
    (∀ a ∈ [0x00E#11, 0x00F#11, 0x024#11, 0x0FF#11, 0x500#11, 0x7FF#11], a.toNat = 0x00E ∨
      a.toNat = 0x00F ∨ (0x024 ≤ a.toNat ∧ a.toNat < 0x100) ∨ 0x500 ≤ a.toNat) := by decide

theorem witness_HostWriteReachesOnlyItsWord :
    ({ one with pending := [.write 0x001#11 5#32] } : State).pending = [.write 0x001#11 5#32] ∧
    (0x001#11 : PortAddr) ≠ 0#11 ∧ (0x7FF#11 : PortAddr) ≠ 0x001#11 := by decide

/-- The ends of every range that ignores writes, and the writable words next to them. -/
theorem witness_ReadOnlyAndReservedIgnoreWrites :
    ({ one with pending := [.write 0x001#11 5#32] } : State).pending = [.write 0x001#11 5#32] ∧
    (∀ a ∈ [0x001#11, 0x003#11, 0x006#11, 0x008#11, 0x00B#11, 0x00E#11, 0x00F#11, 0x024#11,
      0x0FF#11, 0x500#11, 0x7FF#11], IgnoresWrites a) ∧
    ∀ a ∈ [0x000#11, 0x002#11, 0x007#11, 0x00C#11, 0x00D#11, 0x010#11, 0x01F#11, 0x020#11,
      0x023#11, 0x100#11, 0x4FF#11], ¬ IgnoresWrites a := by
  simp only [IgnoresWrites]; decide

theorem witness_ErrorFlagsAreSticky :
    step (State.reset.withFetchWord 32 0x20000000)
      = .next (left (step (State.reset.withFetchWord 32 0x20000000))) ∧
    (∀ v rest, (State.reset.withFetchWord 32 0x20000000).pending ≠ .write 0x002#11 v :: rest) ∧
    ∀ rest, (State.reset.withFetchWord 32 0x20000000).pending ≠ .reset :: rest :=
  ⟨rfl, fun _ _ h => by injection h with h _; injection h with h _; exact absurd h (by decide),
    fun _ h => by injection h with h _; cases h⟩

theorem witness_IdleCoreHolds : one.pending = [] := rfl

theorem witness_ResetReadsZero :
    ∀ a ∈ [0x000#11, 0x0FF#11, 0x500#11, 0x7FF#11], ¬ (0x100 ≤ a.toNat ∧ a.toNat < 0x500) := by
  decide

theorem witness_ResetInputRestoresReset :
    ({ one with pending := [.reset, .read 0#11] } : State).pending = .reset :: [.read 0#11] := rfl

/-- A built state satisfies the invariant. -/
theorem two_inv : two.Inv where
  few_stages := by decide
  valid_stages := by decide
  osr_built := by decide
  factor_built := by decide
  latOs_built := by decide
  latency_built := by decide
  errflags_res0 := by decide
  cause_legal := by decide
  epsa_legal := by decide
  taps_canonical := by decide

/-- The same with a command waiting. -/
theorem two_ups_inv : (two.withFetchWord 32 0x20000000).Inv :=
  { two_inv with }

theorem witness_InvariantKeptByStep :
    (two.withFetchWord 32 0x20000000).Inv ∧
    step (two.withFetchWord 32 0x20000000)
      = .next (left (step (two.withFetchWord 32 0x20000000))) :=
  ⟨two_ups_inv, rfl⟩

theorem witness_TrackerKeepsAntiderivative :
    (one.withFetchWord 32 0x22000100).TrackerInv ∧
    step (one.withFetchWord 32 0x22000100) = .next (left (step (one.withFetchWord 32 0x22000100))) ∧
    stayedInDomain (one.withFetchWord 32 0x22000100)
      (left (step (one.withFetchWord 32 0x22000100))) := by
  refine ⟨?_, rfl, ?_⟩
  · intro _; decide
  · unfold stayedInDomain; decide

/-- Nothing built, and the greatest chain of all: four stages of 255 taps. -/
def greatest : State :=
  { one with
    stages := List.replicate 4
      (freshStage 64 128 (List.replicate 127 0#32) (List.replicate 128 0#32))
    factor := 16#5, latOs := 3810#32, latency := 238#32 }

theorem witness_LatencyIsNearestAndBounded : greatest.Inv ∧ greatest.osr = true ∧ two.Inv :=
  ⟨⟨by decide, by decide +kernel, by decide, by decide, by decide, by decide, by decide, by decide,
    by decide, by decide⟩, rfl, two_inv⟩

theorem witness_LatencyChangesOnlyAtConstruction :
    step (staged.withFetchWord 32 0x01000010)
      = .next (left (step (staged.withFetchWord 32 0x01000010))) ∧
    (∀ rest, (staged.withFetchWord 32 0x01000010).pending ≠ .reset :: rest) ∧
    (left (step (staged.withFetchWord 32 0x01000010))).latency = 2#32 :=
  ⟨rfl, fun _ h => (by injection h with h _; cases h), by decide⟩

/-- One stage and stage field 1; nothing built; one component built and the other not. -/
theorem witness_NotConfiguredReported :
    one.stages.length ≤ (1#2).toNat ∧ State.reset.stages.length ≤ (0#2).toNat ∧
    State.reset.osr = false ∧ State.reset.wsr = false ∧ ({ one with wsr := false } : State).wsr = false :=
  by decide

theorem witness_InvalidFactorReported :
    ∀ imm8 ∈ [0#8, 1#8, 3#8, 17#8, 255#8],
      imm8.toNat ≠ 2 ∧ imm8.toNat ≠ 4 ∧ imm8.toNat ≠ 8 ∧ imm8.toNat ≠ 16 := by decide

/-- The last stage of four is the one that fails, its length just past the greatest. -/
theorem witness_InvalidTapLengthReported :
    (16#8).toNat = 2 ^ 4 ∧
    BadLength (stagedLength { staged with taplen := staged.taplen.set 3 259#16 } 3) ∧
    (∀ i < 3, ¬ BadLength (stagedLength { staged with taplen := staged.taplen.set 3 259#16 } i)) ∧
    BadLength 2 ∧ ¬ BadLength 3 ∧ BadLength 4 ∧ ¬ BadLength 255 ∧ BadLength 256 := by
  unfold BadLength; decide

theorem witness_InvalidEpsilonReported :
    (0x7F800000#32).extractLsb' 23 8 = 0xFF#8 ∧
    ((0x80000001#32).msb = true ∧ 0x80000001#32 ≠ 0x80000000#32) ∧
    ¬ ((0x80000000#32).extractLsb' 23 8 = 0xFF#8 ∨
      ((0x80000000#32).msb = true ∧ 0x80000000#32 ≠ 0x80000000#32)) ∧
    ¬ ((0x7F7FFFFF#32).extractLsb' 23 8 = 0xFF#8 ∨
      ((0x7F7FFFFF#32).msb = true ∧ 0x7F7FFFFF#32 ≠ 0x80000000#32)) := by decide

theorem witness_RejectionIsAtomic :
    runCommand 0x01000003#32 one = .next (left (runCommand 0x01000003#32 one)) := rfl

theorem witness_PerSamplePathNeverFails :
    one.osr = true ∧ one.wsr = true ∧ (0#2).toNat < one.stages.length ∧
    greatest.osr = true ∧ (3#2).toNat < greatest.stages.length ∧
    step one = .next one ∧ ∀ rest, one.pending ≠ .reset :: rest :=
  ⟨rfl, rfl, by decide, rfl, by decide, rfl, fun _ h => by cases h⟩

theorem witness_PushEffect :
    two.stages[(1#2).toNat]? = some h3 ∧ two.stages[(0#2).toNat]? = some h3 := by decide

theorem witness_PushMovesWindow :
    (Ring.fresh 2).mem.length = 2 ∧ (Ring.fresh 2).w < 2 ∧ 0 + 1 < 2 ∧
    ({ mem := [1#32, 2#32], w := 1 } : Ring).w < 2 := by decide

theorem witness_WindowIsNewestFirst : 1 < 2 ∧ 0 < 2 := by decide

/-- A buffer of four and three taps, which one tap of padding extends to the capacity. -/
theorem witness_ConvolvePaddingInvisible :
    Ring.convolve? 4 ⟨[0x40A00000#32, 0x40000000#32, 0x40400000#32, 0x40800000#32], 1⟩ dec7.etaps
      = some 0x43AC8000#32 ∧
    dec7.etaps.length + 1 ≤ 4 ∧
    ∀ k < dec7.etaps.length + 1,
      isfinite (Ring.tap 4 ⟨[0x40A00000#32, 0x40000000#32, 0x40400000#32, 0x40800000#32], 1⟩ k)
        = true := by decide

/-- The same window meets the hypothesis of the first clause of `ConvolveLaneOrder`. -/
theorem witness_ConvolveLaneOrder :
    Ring.convolve? 4 ⟨[0x40A00000#32, 0x40000000#32, 0x40400000#32, 0x40800000#32], 1⟩ dec7.etaps
      = some 0x43AC8000#32 := by decide

theorem witness_ConvEffect :
    one.stages[(0#2).toNat]? = some h3 ∧
    (h3.ring .down .even).convolve? h3.c (h3.taps .even) = some 0#32 := by decide

theorem witness_ConvEffect_outside :
    oneDirty.stages.map (fun g => (g.ring .down .even).convolve? g.c (g.taps .even)) = [none] := by
  decide

/-- Between the two: a read, a host write, an illegal word, a `CONV`, a `SETF` that is rejected, `DNS`. -/
def between : List PortEvent :=
  [.read 0x010#11, .write 0x010#11 5#32, .write 0x000#11 0#32, .write 0x000#11 0x11800600#32,
    .write 0x000#11 0x01000003#32, .write 0x000#11 0x21000000#32]

/-- The state after `between`, one event at a time. -/
def served (s : State) : List PortEvent → State
  | [] => s
  | e :: es => served (left (serve e s)) es

theorem witness_ConvRepeats :
    exec (.conv .up 0#2 .odd .odd 5#4) one = .next (one.writeV 5#4 0#32) ∧
    (one.writeV 5#4 0#32).free = one.free ∧ (0#2).toNat < one.stages.length ∧
    QuietRun .up 0#2 .odd between (one.writeV 5#4 0#32) (served (one.writeV 5#4 0#32) between) ∧
    exec (.conv .up 0#2 .odd .odd 7#4) (served (one.writeV 5#4 0#32) between)
      = .next ((served (one.writeV 5#4 0#32) between).writeV 7#4 0#32) := by
  refine ⟨rfl, rfl, by decide, ⟨id, _, rfl, ?_, _, rfl, ?_, _, rfl, ?_, _, rfl, ?_, _, rfl, ?_, _, rfl,
    rfl⟩, rfl⟩
  · exact fun h => absurd h.1 (by decide)
  · rintro ⟨-, i, h, -⟩; cases h
  · rintro ⟨-, i, h, hd⟩
    obtain rfl : Instr.conv .down 0#2 .even .even 6#4 = i := by injection h
    exact hd
  · rintro ⟨-, i, h, hd⟩
    obtain rfl : Instr.setf 3#8 = i := by injection h
    obtain ⟨n, h1, h4, hn, -⟩ := hd
    interval_cases n <;> simp at hn
  · rintro ⟨-, i, h, hd⟩
    obtain rfl : Instr.dns = i := by injection h
    exact absurd hd.1 (by decide)

/-- Register 14 is the last that has a pair. -/
theorem witness_StupEffect :
    (14#4 : VReg) ≠ 15#4 ∧ one.stages[(0#2).toNat]? = some h3 ∧
    isfinite (one.readV 0#4) = true ∧ isfinite ((h3.upE.push 2 (one.readV 0#4)).tap 2 1) = true ∧
    (h3.upO.push 2 (one.readV 0#4)).convolve? 2 h3.otaps = some 0x3E800000#32 ∧
    isfinite (fmul 0x40000000#32 0x3E800000#32) = true := by decide

/-- The source is a NaN, so there is no call with every value finite. -/
theorem witness_StupEffect_outside :
    oneNaN.stages[(0#2).toNat]? = some h3 ∧
    ¬ ∃ g' o0 o1, StageUpCall h3 (oneNaN.readV 0#4) g' o0 o1 :=
  ⟨by decide, fun ⟨_, _, _, h⟩ => absurd h.1 (by decide)⟩

theorem witness_StupEvenBranchDelays :
    h3.upE = Ring.fresh h3.c ∧ h3.k < h3.c ∧
    (h3.upEach? [0x3F800000#32, 0x40000000#32]).map Prod.snd
      = some [0#32, 0x3F000000#32, 0x3F800000#32, 0x3FC00000#32] := by decide

theorem witness_StdnEffect :
    (14#4 : VReg) ≠ 15#4 ∧ one.stages[(0#2).toNat]? = some h3 ∧
    isfinite (one.readV 0#4) = true ∧ isfinite (one.readV 1#4) = true ∧
    (h3.dnE.push 2 (one.readV 0#4)).convolve? 2 h3.etaps = some 0x3F000000#32 ∧
    (h3.dnO.push 2 (one.readV 1#4)).convolve? 2 h3.otaps = some 0#32 ∧
    isfinite (fadd 0x3F000000#32 0#32) = true := by decide

theorem witness_StdnEffect_outside :
    oneNaN.stages[(0#2).toNat]? = some h3 ∧
    ¬ ∃ g' y, StageDownCall h3 (oneNaN.readV 0#4) (oneNaN.readV (0#4 + 1#4)) g' y :=
  ⟨by decide, fun ⟨_, _, h⟩ => absurd h.1 (by decide)⟩

/-- H3 at calls 0 and 1, with v = 1, 2, 3, 4. -/
theorem witness_StdnIsDirectForm :
    1 ≤ 1 ∧ 2 * 1 ≤ h3.c ∧ h3.dnE = Ring.fresh h3.c ∧ h3.dnO = Ring.fresh h3.c ∧
    h3.otaps = (List.range (2 * 1)).map
      (fun k => [0x3E800000#32, 0x3F000000#32, 0x3E800000#32].getD (2 * k) 0#32) ∧
    h3.etaps = (List.range (2 * 1 - 1)).map
      (fun k => [0x3E800000#32, 0x3F000000#32, 0x3E800000#32].getD (2 * k + 1) 0#32) ∧
    (h3.downEach? ((List.range (2 * (1 + 1))).map
      (fun i => [0x3F800000#32, 0x40000000#32, 0x40400000#32, 0x40800000#32].getD i 0#32))).isSome
      = true := by decide

theorem witness_CapacityIsLeastPowerOfTwo : 1 ≤ 1 ∧ 2 * 1 ≤ 2 ^ 1 := by decide

theorem witness_SetfConstructs :
    (2#8).toNat = 2 ^ 1 ∧ (16#8).toNat = 2 ^ 4 ∧
    (∀ j < 1, ¬ BadLength (stagedLength staged j)) ∧
    ∀ j < 4, ¬ BadLength (stagedLength staged j) := by
  unfold BadLength; decide

/-- X is a NaN, so the first call of the loops does not exist. -/
theorem oneNaN_no_upsCalls : ¬ ∃ G L, UpsCalls oneNaN.stages oneNaN.x G L := by
  rintro ⟨G, L, -, hx, h⟩
  have hf := (h 0 (by decide) 0 (by decide)).1
  rw [hx] at hf
  exact absurd hf (by decide)

theorem witness_UpsEffect :
    two.osr = true ∧ (upChain? two.stages [two.x]).map Prod.snd
      = some [0#32, 0#32, 0#32, 0x3E800000#32] ∧
    oneNaN.osr = true ∧ ¬ ∃ G L, UpsCalls oneNaN.stages oneNaN.x G L :=
  ⟨by decide, by decide, by decide, oneNaN_no_upsCalls⟩

/-- Stage i of `two` after j calls going up: the calls on 1.0, on 0 and on 0.5. -/
def upStage (i j : Nat) : Stage :=
  if i = 0 then
    if j = 0 then h3
    else { h3 with upE := ⟨[0x3F800000#32, 0#32], 1⟩, upO := ⟨[0x3F800000#32, 0#32], 1⟩ }
  else if j = 0 then h3
  else if j = 1 then { h3 with upE := ⟨[0#32, 0#32], 1⟩, upO := ⟨[0#32, 0#32], 1⟩ }
  else { h3 with upE := ⟨[0#32, 0x3F000000#32], 0⟩, upO := ⟨[0#32, 0x3F000000#32], 0⟩ }

/-- Sample j of level i of `two` going up (T30, frame 0). -/
def upLevel (i j : Nat) : Word :=
  ([[0x3F800000#32], [0#32, 0x3F000000#32], [0#32, 0#32, 0#32, 0x3E800000#32]].getD i []).getD j 0#32

theorem witness_UpsIsStupSequence :
    two.osr = true ∧ UpsCalls two.stages two.x upStage upLevel := by
  refine ⟨rfl, by decide, rfl, fun i hi j hj => ?_⟩
  change i < 2 at hi
  interval_cases i <;> interval_cases j
  · exact ⟨by decide, rfl, by decide, by decide, 0x3E800000#32, by decide⟩
  · exact ⟨by decide, rfl, by decide, by decide, 0#32, by decide⟩
  · exact ⟨by decide, rfl, by decide, by decide, 0x3E000000#32, by decide⟩

/-- The ends of the range of the sequences: one stage and three. -/
theorem witness_UpsIsStupSequence_commands :
    one.osr = true ∧ one.stages.length = 1 ∧ (upChain? one.stages [one.x]).isSome = true ∧
    (upChain? [h3, h3, h3] [two.x]).isSome = true := by decide

/-- V0 is a NaN, so the first call of the loops does not exist. -/
theorem oneNaN_no_dnsCalls : ¬ ∃ G L, DnsCalls oneNaN.stages oneNaN.v.toList G L := by
  rintro ⟨G, L, -, hv, h⟩
  have hf := (h 0 (by decide) 0 (by decide)).1
  have h0 := hv 0 (by decide)
  rw [show oneNaN.v.toList[0]? = some 0x7FC00000#32 by decide, Option.some.injEq] at h0
  rw [show L (0 + 1) (2 * 0) = 0x7FC00000#32 from h0.symm] at hf
  exact absurd hf (by decide)

theorem witness_DnsEffect :
    two.osr = true ∧
    (downChain? two.stages (two.v.toList.take (2 ^ two.stages.length))).map Prod.snd
      = some [0x3E800000#32] ∧
    oneNaN.osr = true ∧ ¬ ∃ G L, DnsCalls oneNaN.stages oneNaN.v.toList G L :=
  ⟨by decide, by decide, by decide, oneNaN_no_dnsCalls⟩

/-- Stage i of `two` after j calls going down: the calls on (1.0, 0), on (0, 0) and on (0.5, 0). -/
def downStage (i j : Nat) : Stage :=
  if i = 0 then
    if j = 0 then h3
    else { h3 with dnE := ⟨[0x3F000000#32, 0#32], 1⟩, dnO := ⟨[0#32, 0#32], 1⟩ }
  else if j = 0 then h3
  else if j = 1 then { h3 with dnE := ⟨[0x3F800000#32, 0#32], 1⟩, dnO := ⟨[0#32, 0#32], 1⟩ }
  else { h3 with dnE := ⟨[0x3F800000#32, 0#32], 0⟩, dnO := ⟨[0#32, 0#32], 0⟩ }

/-- Sample j of level i of `two` going down, V0 = 1.0 and the rest 0. -/
def downLevel (i j : Nat) : Word :=
  ([[0x3E800000#32], [0x3F000000#32, 0#32], [0x3F800000#32, 0#32, 0#32, 0#32]].getD i []).getD j 0#32

theorem witness_DnsIsStdnSequence :
    two.osr = true ∧ DnsCalls two.stages two.v.toList downStage downLevel := by
  refine ⟨rfl, by decide, by decide, fun i hi j hj => ?_⟩
  change i < 2 at hi
  interval_cases i <;> interval_cases j
  · exact ⟨by decide, by decide, rfl, 0x3E800000#32, 0#32, by decide⟩
  · exact ⟨by decide, by decide, rfl, 0x3F000000#32, 0#32, by decide⟩
  · exact ⟨by decide, by decide, rfl, 0#32, 0#32, by decide⟩

/-- The ends of the range of the sequences: one stage and three. -/
theorem witness_DnsIsStdnSequence_commands :
    one.osr = true ∧ one.stages.length = 1 ∧
    (downChain? one.stages (one.v.toList.take (2 ^ one.stages.length))).isSome = true ∧
    (downChain? [h3, h3, h3] (one.v.toList.take 8)).isSome = true := by decide

/-- -0.0 and the greatest finite value are legal thresholds. -/
theorem witness_ShinitConstructs :
    isfinite 0x80000000#32 = true ∧ flt 0x80000000#32 0#32 = false ∧
    isfinite 0x7F7FFFFF#32 = true ∧ flt 0x7F7FFFFF#32 0#32 = false := by decide

theorem witness_ShpQuotientPath :
    one.wsr = true ∧ isfinite one.epsa = true ∧ 0 ≤ units one.epsa ∧ isfinite one.xprev = true ∧
    isfinite (fsub (one.readV 0#4) one.xprev) = true ∧
    ShapeADCall one.shape (one.readV 0#4) 0x3F000000#32 ∧
    units one.epsa < |units (fsub (one.readV 0#4) one.xprev)| ∧ isfinite one.adprev = true ∧
    isfinite (fsub 0x3F000000#32 one.adprev) = true ∧
    isfinite (fdiv (fsub 0x3F000000#32 one.adprev) (fsub (one.readV 0#4) one.xprev)) = true :=
  ⟨by decide, by decide, by decide, by decide, by decide,
    ⟨by decide, by decide, by decide, by decide⟩, by decide, by decide, by decide, by decide⟩

/-- A step of exactly the threshold. -/
theorem witness_ShpMidpointPath :
    let s : State := { one with epsa := 0x3F800000#32 }
    s.wsr = true ∧ isfinite s.epsa = true ∧ isfinite s.xprev = true ∧
    isfinite (fsub (s.readV 0#4) s.xprev) = true ∧
    ShapeADCall s.shape (s.readV 0#4) 0x3F000000#32 ∧
    |units (fsub (s.readV 0#4) s.xprev)| = units s.epsa ∧
    isfinite (fadd (s.readV 0#4) s.xprev) = true ∧
    ShapeFCall s.shape (fmul 0x3F000000#32 (fadd (s.readV 0#4) s.xprev)) 0x3F000000#32 :=
  ⟨by decide, by decide, by decide, by decide, ⟨by decide, by decide, by decide, by decide⟩,
    by decide, by decide, ⟨by decide, by decide, by change (_ : Word) = _; decide⟩⟩

theorem witness_ShpOutsideDomain :
    oneNaN.wsr = true ∧
    ¬ ∃ k y, AdaaCall oneNaN.shape oneNaN.epsa (trackerOf oneNaN) (oneNaN.readV 0#4) k y :=
  ⟨by decide, fun ⟨_, _, h⟩ => absurd h.2.2.2.2.2.1.1 (by decide)⟩

theorem witness_ProcEffect :
    one.osr = true ∧ one.wsr = true ∧
    upChain? one.stages [one.x]
      = some ([{ h3 with upE := ⟨[0x3F800000#32, 0#32], 1⟩, upO := ⟨[0x3F800000#32, 0#32], 1⟩ }],
          [0#32, 0x3F000000#32]) ∧
    shapeFrame? one.shape one.epsa { xprev := one.xprev, adprev := one.adprev }
        [0#32, 0x3F000000#32]
      = some ({ xprev := 0x3F000000#32, adprev := 0x3E000000#32 }, [0#32, 0x3E800000#32]) ∧
    (downChain?
        [{ h3 with upE := ⟨[0x3F800000#32, 0#32], 1⟩, upO := ⟨[0x3F800000#32, 0#32], 1⟩ }]
        [0#32, 0x3E800000#32]).map Prod.snd
      = some [0x3D800000#32] := by decide

/-- Inside the domain, and outside it. -/
theorem witness_ProcLeavesRest :
    one.osr = true ∧ one.wsr = true ∧ exec .proc one = .next (left (exec .proc one)) ∧
    oneNaN.osr = true ∧ oneNaN.wsr = true ∧ exec .proc oneNaN = .next (left (exec .proc oneNaN)) :=
  ⟨rfl, rfl, rfl, rfl, rfl, rfl⟩

theorem witness_ProcIsItsSequence :
    two.Inv ∧ two.osr = true ∧ two.wsr = true ∧ two.process?.isSome = true ∧
    ({ two with wsr := false } : State).osr = true ∧ ({ two with wsr := false } : State).wsr = false :=
  ⟨two_inv, rfl, rfl, by decide, rfl, rfl⟩

theorem witness_SignalPathsSeparate :
    exec .ups one = .next (left (exec .ups one)) ∧ exec .dns one = .next (left (exec .dns one)) ∧
    ∀ imm8, Instr.ups ≠ .setf imm8 :=
  ⟨rfl, rfl, fun _ h => by cases h⟩

theorem witness_StagingIsNotLive :
    (∀ imm8, Instr.ups ≠ .setf imm8) ∧ (∀ v, Instr.ups ≠ .shinit v) ∧
    exec .ups one = .next (left (exec .ups one)) :=
  ⟨fun _ h => (by cases h), fun _ h => (by cases h), rfl⟩

theorem witness_ConstructorsIndependent :
    exec (.setf 2#8) staged = .next (left (exec (.setf 2#8) staged)) ∧
    exec (.shinit .ident) staged = .next (left (exec (.shinit .ident) staged)) :=
  ⟨rfl, rfl⟩

/-- Two channels, each reached, and a second device with the same channel 1; the last word of the last
window lies below the first address past it. -/
theorem witness_ChannelsIsolated :
    (∃ D', (Device.reset 2).serveAt 1 (.write 0x00C#11 5#32) = .next D') ∧ (0 : Nat) ≠ 1 ∧
    (Device.reset 3).channels[1]? = (Device.reset 2).channels[1]? ∧
    (Device.reset 2).channels[1]? = some { State.reset with channel := 1 } ∧
    0x2000 * 1 + 4 * (0x7FF#11).toNat + 4 = 0x4000 ∧
    0x2000 * (Device.reset 2).channels.length ≤ 0x4000 :=
  ⟨⟨_, rfl⟩, by decide, by decide, by decide, by decide, by decide⟩

/-- Address 0x2030 is X of channel 1 (rule R66). -/
theorem test_device_address :
    (match (Device.reset 2).write 0x2030 5#32 with
      | .next D => D.channels.map fun s => (s.channel, s.x)
      | .fault _ => []
      | .refused _ => []) = [(0, 0#32), (1, 5#32)] := by decide

/-- Half a last place past the greatest finite value, one unit below it, and an exact zero. -/
theorem witness_SumsCorrectlyRounded :
    isfinite 0x7F7FFFFF#32 = true ∧ isfinite 0x73000000#32 = true ∧
    1 * ((2 ^ 25 - 1) * 2 ^ 252) ≤ |units 0x7F7FFFFF#32 + units 0x73000000#32| ∧
    |units 0x7F7FFFFF#32 + units 0x72FFFFFF#32| < 1 * ((2 ^ 25 - 1) * 2 ^ 252) ∧
    units 0x80000000#32 + units 0x80000000#32 = 0 ∧ units 0x80000000#32 - units 0#32 = 0 := by
  decide

theorem witness_ProductsCorrectlyRounded :
    isfinite 0x7F7FFFFF#32 = true ∧ isfinite 0x3F800001#32 = true ∧
    isfinite (fmul 0x40000000#32 0x7EFFFFFF#32) = true := by decide

theorem witness_QuotientsCorrectlyRounded :
    isfinite 0x7F7FFFFF#32 = true ∧ isfinite 0x00000001#32 = true ∧ units 0x00000001#32 ≠ 0 := by
  decide

theorem witness_ResetReachesEveryChannel :
    (Device.reset 2).channels[0]? = some State.reset ∧
    (Device.reset 2).channels[1]? = some { State.reset with channel := 1 } := by decide

theorem witness_RecoveryByAccesses : oneDirty.errflags = 0#32 ∧ two.Inv := ⟨rfl, two_inv⟩

/-- A word of TAPS at each end, unwritten; an accepted `SETF` on unwritten words; a command outside the
domain; and a state that is none of these. -/
theorem witness_StrictStepIsSpecModel :
    ReadsUnwritten State.reset (.read 0x100#11) ∧ ReadsUnwritten State.reset (.read 0x4FF#11) ∧
    ReadsUnwritten unwritten (.write 0#11 0x01000002#32) ∧
    (decode 0x20000000#32 = .ok .ups ∧ OutsideDomain oneNaN .ups) ∧
    (∀ e rest, one.pending = e :: rest → ¬ ReadsUnwritten one e) ∧
    ∀ w i rest, one.pending = .write 0#11 w :: rest → decode w = .ok i → ¬ OutsideDomain one i := by
  refine ⟨⟨by decide, by decide, 0, by decide, by decide⟩,
    ⟨by decide, by decide, 3, by decide, by decide⟩,
    ⟨rfl, 2#8, 1, by decide, ⟨by decide, by decide, by decide, ?_⟩, 0, by decide, 2, by decide, 3,
      by decide, by decide⟩,
    ⟨by decide, rfl, oneNaN_no_upsCalls⟩, fun _ _ h => (by cases h), fun _ _ _ h => (by cases h)⟩
  unfold BadLength; decide

/-- `strictStep` stops where `step` goes on. -/
theorem test_strict_outside :
    (match strictStep (oneNaN.withFetchWord 32 0x20000000) with
      | .fault r => some r
      | .next _ => none
      | .refused _ => none) = some .outsideDomain := by decide

/-- A RESET reaches both channels of a device. -/
theorem test_device_reset :
    (match ({ channels := [one, two] } : Device).serveEvent .reset with
      | .next D => D.channels.map fun s => (s.osr, s.x, s.stages.length)
      | .fault _ => []
      | .refused _ => []) = [(false, 0#32, 0), (false, 0#32, 0)] := by decide

end Sys2Proof.Tests
end

section
/-! PROOFS. The command word: what a decoded word satisfies, and the step that serves a write to CMD. -/

namespace Sys2Proof

/-- Steps 2 to 4 of rule R91, read backwards: a word that decodes has one of the ten opcodes, no
must-be-zero bit set, and operands that are not refused. -/
theorem decode_eq_ok_iff (w : Word) (i : Instr) :
    decode w = .ok i ↔
      ∃ o, opcodeOf (opField w) = some o ∧ w &&& o.mustBeZero = 0#32 ∧ operands w o = .ok i := by
  unfold decode
  cases opcodeOf (opField w) with
  | none => simp
  | some o => by_cases hz : w &&& o.mustBeZero = 0#32 <;> simp [hz]

/-- Step 4 of rule R91 refuses the only two register pairs that are not well formed. -/
theorem wellFormed_of_operands {w : Word} {o : Opcode} {i : Instr} (h : operands w o = .ok i) :
    i.wellFormed = true := by
  cases o with
  | stup =>
    simp only [operands] at h
    split at h
    · cases h
    · next hvd => cases h; exact bne_iff_ne.mpr hvd
  | stdn =>
    simp only [operands] at h
    split at h
    · cases h
    · next hva => cases h; exact bne_iff_ne.mpr hva
  | setf | shinit | push | conv | ups | dns | shp | proc => cases h; rfl

theorem wellFormed_of_decode {w : Word} {i : Instr} (h : decode w = .ok i) : i.wellFormed = true :=
  let ⟨_, _, _, hoperands⟩ := (decode_eq_ok_iff w i).mp h
  wellFormed_of_operands hoperands

namespace Machine

/-- Step 5 of rule R91. -/
theorem runCommand_of_decode_ok {w : Word} {i : Instr} (h : decode w = .ok i) (s : State) :
    runCommand w s = exec i { s with cmd := w } := by
  simp only [runCommand, h]

theorem step_of_pending {s : State} {e : PortEvent} {rest : List PortEvent}
    (h : s.pending = e :: rest) : step s = serve e { s with pending := rest } := by
  simp only [step, serveNext, h]

@[simp] theorem serve_write_cmdAddr (w : Word) (s : State) :
    serve (.write cmdAddr w) s = runCommand w s := by
  simp only [serve, if_true]

theorem step_of_pending_command {s : State} {w : Word} {rest : List PortEvent}
    (h : s.pending = .write cmdAddr w :: rest) :
    step s = runCommand w { s with pending := rest } :=
  (step_of_pending h).trans (serve_write_cmdAddr w _)

end Machine

/-- Settles O5: the decoder refuses what is not well formed, and the step serves a write to CMD by
`runCommand`, which runs what `decode` gives. -/
theorem stepRunsDecodedCommand : Obligations.StepRunsDecodedCommand := by
  intro s w rest i hpending hdecode
  refine ⟨wellFormed_of_decode hdecode, ?_⟩
  calc Machine.step s
      = Machine.runCommand w { s with pending := rest } := Machine.step_of_pending_command hpending
    _ = Machine.exec i { s with pending := rest, cmd := w } :=
        Machine.runCommand_of_decode_ok hdecode _

end Sys2Proof
end

section
/-! PROOFS. What a command can do to the state, said once for all ten: a command is rejected, or does the
work of its row on the signal path and on nothing else, or builds one of the two components. -/

namespace Sys2Proof.Machine

/-- What every processing command leaves of a stage: its filter, and a valid stage valid (rules R33,
R34). -/
def Stage.Kept (g h : Stage) : Prop := g.sameFilter h ∧ (g.valid = true → h.valid = true)

theorem Stage.sameFilter_refl (g : Stage) : g.sameFilter g := ⟨rfl, rfl, rfl, rfl⟩
theorem Stage.sameUp_refl (g : Stage) : g.sameUp g := ⟨rfl, rfl⟩
theorem Stage.sameDown_refl (g : Stage) : g.sameDown g := ⟨rfl, rfl⟩
theorem Stage.Kept.refl (g : Stage) : g.Kept g := ⟨g.sameFilter_refl, id⟩

theorem Stage.Kept.trans {a b c : Stage} (hab : a.Kept b) (hbc : b.Kept c) : a.Kept c := by
  obtain ⟨⟨k1, c1, e1, o1⟩, v1⟩ := hab
  obtain ⟨⟨k2, c2, e2, o2⟩, v2⟩ := hbc
  exact ⟨⟨k2.trans k1, c2.trans c1, e2.trans e1, o2.trans o1⟩, v2 ∘ v1⟩

theorem Stage.UpWork.kept {g h : Stage} (w : g.UpWork h) : g.Kept h :=
  let ⟨hfilter, _, hvalid⟩ := w
  ⟨hfilter, hvalid⟩

theorem Stage.DownWork.kept {g h : Stage} (w : g.DownWork h) : g.Kept h :=
  let ⟨hfilter, _, hvalid⟩ := w
  ⟨hfilter, hvalid⟩

/-- Downsampling work on the chain that upsampling work left, as in `PROC` (rule R230). -/
theorem forall₂_kept_of_up_down {gs up down : List Stage} (hup : List.Forall₂ Stage.UpWork gs up)
    (hdown : List.Forall₂ Stage.DownWork up down) : List.Forall₂ Stage.Kept gs down := by
  induction hup generalizing down with
  | nil => cases hdown; exact .nil
  | cons hg _ ih =>
    cases hdown with
    | cons hh htail => exact .cons (hg.kept.trans hh.kept) (ih htail)

/-- Replacing one stage of a chain relates the chains when it relates the two stages. -/
theorem forall₂_set {R : Stage → Stage → Prop} (hrefl : ∀ g, R g g) {gs : List Stage} {n : Nat}
    {g g' : Stage} (hget : gs[n]? = some g) (h : R g g') : List.Forall₂ R gs (gs.set n g') := by
  induction gs generalizing n with
  | nil => exact .nil
  | cons a gs ih =>
    cases n with
    | zero =>
      obtain rfl : a = g := by simpa using hget
      exact .cons h (List.forall₂_same.mpr fun g _ => hrefl g)
    | succ n => exact .cons (hrefl a) (ih (by simpa using hget))

/-- A push through the operand form (d, s, b) reaches the buffers of its direction only (rule R147). -/
theorem Stage.upWork_push (g : Stage) (b : Branch) (a : Word) :
    g.UpWork (g.setRing .up b ((g.ring .up b).push g.c a)) := by
  refine ⟨⟨by simp, by simp, by simp, by simp⟩, ?_, fun hg =>
    Stage.valid_setRing .up b hg (Ring.wellSized_push a (Stage.wellSized_ring .up b hg))⟩
  cases b <;> exact ⟨rfl, rfl⟩

theorem Stage.downWork_push (g : Stage) (b : Branch) (a : Word) :
    g.DownWork (g.setRing .down b ((g.ring .down b).push g.c a)) := by
  refine ⟨⟨by simp, by simp, by simp, by simp⟩, ?_, fun hg =>
    Stage.valid_setRing .down b hg (Ring.wellSized_push a (Stage.wellSized_ring .down b hg))⟩
  cases b <;> exact ⟨rfl, rfl⟩

/-- How a command may reach a stage of the chain: by upsampling work, by downsampling work, by both
(`PROC`), or not at all. An accepted `SETF` is no work on a stage: it builds the chain anew. -/
def stageWork : Instr → Stage → Stage → Prop
  | .push .up _ _ _ | .stup _ _ _ | .ups => Stage.UpWork
  | .push .down _ _ _ | .stdn _ _ _ | .dns => Stage.DownWork
  | .proc => Stage.Kept
  | .conv _ _ _ _ _ | .shp _ _ | .setf _ | .shinit _ => Eq

theorem stageWork_kept {i : Instr} {g h : Stage} (w : stageWork i g h) : g.Kept h := by
  cases i with
  | push d =>
    cases d with
    | up => exact Stage.UpWork.kept w
    | down => exact Stage.DownWork.kept w
  | stup | ups => exact Stage.UpWork.kept w
  | stdn | dns => exact Stage.DownWork.kept w
  | proc => exact w
  | conv | shp | setf | shinit => cases w; exact .refl g

/-- Work on the signal path: the stages change as `R` allows, the samples, the tracker and the count of
free words change, and nothing else does. -/
def SignalWork (R : Stage → Stage → Prop) (s t : State) : Prop :=
  ∃ (gs : List Stage) (v : Vector Word 16) (y xprev adprev : Word) (free : Nat),
    t = { s with stages := gs, v := v, y := y, xprev := xprev, adprev := adprev, free := free } ∧
      List.Forall₂ R s.stages gs

/-- The component that a command of the per-sample path needs is built (rules R247, R254). The two
constructors are not on that path. -/
def OnBuiltPath (s : State) : Instr → Prop
  | .push _ st _ _ | .conv _ st _ _ _ | .stup st _ _ | .stdn st _ _ => (s.stage? st).isSome = true
  | .ups | .dns => s.osr = true
  | .shp _ _ => s.wsr = true
  | .proc => s.osr = true ∧ s.wsr = true
  | .setf _ | .shinit _ => False

/-- Every way a command can end. -/
inductive CommandEffect (i : Instr) (s t : State) : Prop
  /-- rejected, which a command of a built path never is (rules R243, R254) -/
  | rejected (c : Cause) (hpath : ¬ OnBuiltPath s i) (ht : t = s.reject c)
  /-- a processing command did its work, inside the finite domain or outside it (rule R128) -/
  | processed (hwork : SignalWork (stageWork i) s t)
  /-- an accepted `SETF` (rule R183) -/
  | oversamplerBuilt (imm8 : Byte) (n : Nat) (hi : i = .setf imm8) (hcount : stageCount? imm8 = some n)
      (hgood : s.firstBadStage n = none) (ht : t = s.construct n)
  /-- an accepted `SHINIT` (rule R212) -/
  | waveshaperBuilt (v : Variant) (hi : i = .shinit v) (hlegal : badEpsilon s.eps = false)
      (ht : t = { s with
        shape := v, epsa := s.eps, xprev := 0#32, adprev := shapeAD v 0#32, wsr := true })

/-- A rejection for want of a stage. -/
theorem CommandEffect.of_missing_stage {i : Instr} {s : State} {st : StageIx}
    (hpath : OnBuiltPath s i → (s.stage? st).isSome = true) (hnone : s.stage? st = none) (c : Cause) :
    CommandEffect i s (s.reject c) :=
  .rejected c (fun h => by simpa [hnone] using hpath h) rfl

/-- Work on one stage of the chain. -/
theorem SignalWork.of_setStage {R : Stage → Stage → Prop} (hrefl : ∀ g, R g g) {s : State}
    {st : StageIx} {g g' : Stage} (hg : s.stage? st = some g) (h : R g g') (v : Vector Word 16)
    (free : Nat) : SignalWork R s { s.setStage st g' with v := v, free := free } :=
  ⟨_, v, _, _, _, free, rfl, forall₂_set hrefl hg h⟩

/-- Work that reaches no stage. -/
theorem SignalWork.of_same_stages (s : State) (v : Vector Word 16) (xprev adprev : Word) (free : Nat) :
    SignalWork Eq s { s with v := v, xprev := xprev, adprev := adprev, free := free } :=
  ⟨_, v, _, xprev, adprev, free, rfl, List.forall₂_same.mpr fun _ _ => rfl⟩

theorem exec_push_effect {d : Dir} {st : StageIx} {b : Branch} {va : VReg} {s t : State}
    (h : exec (.push d st b va) s = .next t) : CommandEffect (.push d st b va) s t := by
  obtain ⟨hnone, rfl⟩ | ⟨g, hg, rfl⟩ := exec_push_cases h
  · exact .of_missing_stage id hnone _
  · cases d with
    | up => exact .processed (.of_setStage Stage.UpWork.refl hg (g.upWork_push b _) s.v s.free)
    | down => exact .processed (.of_setStage Stage.DownWork.refl hg (g.downWork_push b _) s.v s.free)

theorem exec_conv_effect {d : Dir} {st : StageIx} {b tb : Branch} {vd : VReg} {s t : State}
    (h : exec (.conv d st b tb vd) s = .next t) : CommandEffect (.conv d st b tb vd) s t := by
  obtain ⟨hnone, rfl⟩ | ⟨g, hg, ⟨a, _, rfl⟩ | ⟨_, rfl⟩⟩ := exec_conv_cases h
  · exact .of_missing_stage id hnone _
  · exact .processed (.of_same_stages s _ s.xprev s.adprev s.free)
  · exact .processed (.of_same_stages s _ s.xprev s.adprev _)

theorem exec_stup_effect {st : StageIx} {vd va : VReg} {s t : State}
    (h : exec (.stup st vd va) s = .next t) : CommandEffect (.stup st vd va) s t := by
  obtain ⟨hnone, rfl⟩ | ⟨g, hg, ⟨g', _, _, hup, rfl⟩ | ⟨_, rfl⟩⟩ := exec_stup_cases h
  · exact .of_missing_stage id hnone _
  · exact .processed (.of_setStage Stage.UpWork.refl hg (Stage.upWork_up hup) _ s.free)
  · exact .processed (.of_setStage Stage.UpWork.refl hg (g.upWork_freeUp _ _ _ _) _ _)

theorem exec_stdn_effect {st : StageIx} {vd va : VReg} {s t : State}
    (h : exec (.stdn st vd va) s = .next t) : CommandEffect (.stdn st vd va) s t := by
  obtain ⟨hnone, rfl⟩ | ⟨g, hg, ⟨g', _, hdown, rfl⟩ | ⟨_, rfl⟩⟩ := exec_stdn_cases h
  · exact .of_missing_stage id hnone _
  · exact .processed (.of_setStage Stage.DownWork.refl hg (Stage.downWork_down hdown) _ s.free)
  · exact .processed (.of_setStage Stage.DownWork.refl hg (g.downWork_freeDown _ _ _ _) _ _)

theorem exec_ups_effect {s t : State} (h : exec .ups s = .next t) : CommandEffect .ups s t := by
  obtain ⟨hosr, rfl⟩ | ⟨_, ⟨gs, vec, hup, rfl⟩ | ⟨_, rfl⟩⟩ := exec_ups_cases h
  · exact .rejected _ (by simp [OnBuiltPath, hosr]) rfl
  · exact .processed ⟨_, _, _, _, _, _, rfl, (upChain?_spec hup).2⟩
  · exact .processed ⟨_, _, _, _, _, _, rfl, s.freeUpChain_work _ _ _⟩

theorem exec_dns_effect {s t : State} (h : exec .dns s = .next t) : CommandEffect .dns s t := by
  obtain ⟨hosr, rfl⟩ | ⟨_, ⟨gs, a, hdown, rfl⟩ | ⟨_, rfl⟩⟩ := exec_dns_cases h
  · exact .rejected _ (by simp [OnBuiltPath, hosr]) rfl
  · obtain ⟨out, hchain, _⟩ := downsample?_eq_some hdown
    exact .processed ⟨_, _, _, _, _, _, rfl, downChain?_work hchain⟩
  · exact .processed ⟨_, _, _, _, _, _, rfl, s.freeDownChain_work _ _ _⟩

theorem exec_shp_effect {vd va : VReg} {s t : State} (h : exec (.shp vd va) s = .next t) :
    CommandEffect (.shp vd va) s t := by
  obtain ⟨hwsr, rfl⟩ | ⟨_, ⟨k, y, _, rfl⟩ | ⟨_, rfl⟩⟩ := exec_shp_cases h
  · exact .rejected _ (by simp [OnBuiltPath, hwsr]) rfl
  · exact .processed (.of_same_stages s _ _ _ s.free)
  · exact .processed (.of_same_stages s _ _ _ _)

theorem exec_proc_effect {s t : State} (h : exec .proc s = .next t) : CommandEffect .proc s t := by
  obtain ⟨hbuilt, rfl⟩ | ⟨_, ⟨r, hr, rfl⟩ | ⟨_, rfl⟩⟩ := exec_proc_cases h
  · exact .rejected _ hbuilt rfl
  · obtain ⟨up, vec, hup, _, hdown⟩ := State.process?_eq_some hr
    obtain ⟨out, hchain, _⟩ := downsample?_eq_some hdown
    exact .processed ⟨_, _, _, _, _, _, rfl,
      forall₂_kept_of_up_down (upChain?_spec hup).2 (downChain?_work hchain)⟩
  · exact .processed ⟨_, _, _, _, _, _, rfl,
      forall₂_kept_of_up_down (s.freeUpChain_work _ _ _) (s.freeDownChain_work _ _ _)⟩

theorem exec_setf_effect {imm8 : Byte} {s t : State} (h : exec (.setf imm8) s = .next t) :
    CommandEffect (.setf imm8) s t := by
  obtain ⟨_, rfl⟩ | ⟨n, hn, ⟨st, _, rfl⟩ | ⟨hgood, rfl⟩⟩ := exec_setf_cases h
  · exact .rejected _ id rfl
  · exact .rejected _ id rfl
  · exact .oversamplerBuilt imm8 n rfl hn hgood rfl

theorem exec_shinit_effect {v : Variant} {s t : State} (h : exec (.shinit v) s = .next t) :
    CommandEffect (.shinit v) s t := by
  obtain ⟨_, rfl⟩ | ⟨hlegal, rfl⟩ := exec_shinit_cases h
  · exact .rejected _ id rfl
  · exact .waveshaperBuilt v rfl hlegal rfl

/-- Every way any command can end: the one case analysis over the ten commands. -/
theorem exec_effect {i : Instr} {s t : State} (h : exec i s = .next t) : CommandEffect i s t := by
  cases i with
  | setf => exact exec_setf_effect h
  | shinit => exact exec_shinit_effect h
  | push => exact exec_push_effect h
  | conv => exact exec_conv_effect h
  | stup => exact exec_stup_effect h
  | stdn => exact exec_stdn_effect h
  | ups => exact exec_ups_effect h
  | dns => exact exec_dns_effect h
  | shp => exact exec_shp_effect h
  | proc => exact exec_proc_effect h

end Sys2Proof.Machine
end

section
/-! PROOFS. Host writes and the register map: which words ERRFLAGS and TAPS are, and what a write that is
no command leaves unchanged (rules R63, R66). -/

namespace Sys2Proof.Machine

/-- ERRFLAGS stands at offset 0x008 and nowhere else (rule R66). -/
theorem regAt_eq_errflags {a : PortAddr} (h : regAt a = .errflags) : a = 0x002#11 := by
  simp only [regAt, ite_eq_iff, reduceCtorEq, and_true, and_false, false_or, or_false] at h
  exact BitVec.eq_of_toNat_eq (by simp; omega)

/-- Every word of TAPS stands in 0x400 .. 0x13FF (rule R66). -/
theorem regAt_eq_taps {a : PortAddr} {st : StageIx} {i : Byte} (h : regAt a = .taps st i) :
    0x100 ≤ a.toNat ∧ a.toNat < 0x500 := by
  simp only [regAt, ite_eq_iff, reduceCtorEq, and_false, false_or, or_false] at h
  omega

/-- `TAPS[st][i]` lies inside the staging window (rules R32, R66). -/
theorem tapOffset_bounds (st : StageIx) (i : Byte) :
    0x400 ≤ tapOffset st.toNat i.toNat ∧ tapOffset st.toNat i.toNat + 3 < 0x1400 := by
  have hst := st.isLt
  have hi := i.isLt
  unfold tapOffset
  omega

/-! ### What no host write changes -/

@[simp] theorem State.hostWrite_stages (s : State) (a : PortAddr) (v : Word) :
    (s.hostWrite a v).stages = s.stages := by unfold State.hostWrite; cases regAt a <;> rfl
@[simp] theorem State.hostWrite_osr (s : State) (a : PortAddr) (v : Word) :
    (s.hostWrite a v).osr = s.osr := by unfold State.hostWrite; cases regAt a <;> rfl
@[simp] theorem State.hostWrite_wsr (s : State) (a : PortAddr) (v : Word) :
    (s.hostWrite a v).wsr = s.wsr := by unfold State.hostWrite; cases regAt a <;> rfl
@[simp] theorem State.hostWrite_factor (s : State) (a : PortAddr) (v : Word) :
    (s.hostWrite a v).factor = s.factor := by unfold State.hostWrite; cases regAt a <;> rfl
@[simp] theorem State.hostWrite_latOs (s : State) (a : PortAddr) (v : Word) :
    (s.hostWrite a v).latOs = s.latOs := by unfold State.hostWrite; cases regAt a <;> rfl
@[simp] theorem State.hostWrite_latency (s : State) (a : PortAddr) (v : Word) :
    (s.hostWrite a v).latency = s.latency := by unfold State.hostWrite; cases regAt a <;> rfl
@[simp] theorem State.hostWrite_lasterr (s : State) (a : PortAddr) (v : Word) :
    (s.hostWrite a v).lasterr = s.lasterr := by unfold State.hostWrite; cases regAt a <;> rfl
@[simp] theorem State.hostWrite_epsa (s : State) (a : PortAddr) (v : Word) :
    (s.hostWrite a v).epsa = s.epsa := by unfold State.hostWrite; cases regAt a <;> rfl

/-- A host write clears bits of ERRFLAGS when it is a write to ERRFLAGS, and else leaves it (rules R25,
R63). -/
theorem State.hostWrite_errflags (s : State) (a : PortAddr) (v : Word) :
    (a = 0x002#11 ∧ (s.hostWrite a v).errflags = s.errflags &&& ~~~v) ∨
      (s.hostWrite a v).errflags = s.errflags := by
  unfold State.hostWrite
  cases ha : regAt a with
  | errflags => exact .inl ⟨regAt_eq_errflags ha, rfl⟩
  | _ => exact .inr rfl

/-- A host write changes staging when it is a write to one word of TAPS, and else leaves it (rules R32,
R63). -/
theorem State.hostWrite_taps (s : State) (a : PortAddr) (v : Word) :
    (∃ st i, (s.hostWrite a v).taps = Memory.setWord s.taps (tapOffset (BitVec.toNat (w := 2) st)
      (BitVec.toNat (w := 8) i)) v) ∨ (s.hostWrite a v).taps = s.taps := by
  unfold State.hostWrite
  cases regAt a with
  | taps st i => exact .inl ⟨st, i, rfl⟩
  | _ => exact .inr rfl

end Sys2Proof.Machine
end

section
/-! PROOFS. The chain that an accepted `SETF` builds: its lengths, its stages and its latency (rules R131,
R182 to R185). -/

namespace Sys2Proof.Machine

/-- The stages that a legal factor asks for (rules R9, R182). -/
theorem stageCount?_bounds {imm8 : Byte} {n : Nat} (h : stageCount? imm8 = some n) : 1 ≤ n ∧ n ≤ 4 := by
  simp only [stageCount?] at h
  split_ifs at h <;> cases h <;> decide

theorem nextPow2_pos (n : Nat) : 0 < nextPow2 n := by
  unfold nextPow2
  split <;> positivity

/-- A staged length that passes the check gives K in 1 .. 64 (rules R131, R182). -/
theorem k_bounds_of_goodLength {n : Nat} (h : badLength n = false) :
    1 ≤ (n + 1) / 4 ∧ (n + 1) / 4 ≤ 64 := by
  simp [badLength, Config.nMin, Config.nMax] at h
  omega

/-- When no needed stage is reported, every needed length is good (rule R182). -/
theorem State.goodLength_of_firstBadStage {s : State} {n j : Nat} (h : s.firstBadStage n = none)
    (hn : n ≤ 4) (hj : j < n) : badLength (s.tapLength (BitVec.ofNat 2 j)).toNat = false := by
  have hall : ∀ st : StageIx, st ∈ [0#2, 1#2, 2#2, 3#2] := by decide
  have hst := List.find?_eq_none.mp h _ (hall (BitVec.ofNat 2 j))
  have hval : (BitVec.ofNat 2 j).toNat = j := by
    rw [BitVec.toNat_ofNat]; exact Nat.mod_eq_of_lt (by omega)
  simpa [hval, hj] using hst

/-- A stage built from a good length is well formed (rules R33, R34, R183). -/
theorem State.valid_buildStage {s : State} {st : StageIx}
    (h : badLength (s.tapLength st).toNat = false) : (s.buildStage st).valid = true := by
  obtain ⟨hlow, hhigh⟩ := k_bounds_of_goodLength h
  have hring := Ring.wellSized_fresh _ (nextPow2_pos (2 * (((s.tapLength st).toNat + 1) / 4)))
  exact (Stage.valid_iff _).mpr ⟨hlow, hhigh, rfl, by simp [State.buildStage],
    by simp [State.buildStage], hring, hring, hring, hring⟩

@[simp] theorem State.buildStages_length (s : State) (n : Nat) : (s.buildStages n).length = n := by
  simp [State.buildStages]

theorem State.valid_buildStages {s : State} {n : Nat} (h : s.firstBadStage n = none) (hn : n ≤ 4) :
    (s.buildStages n).all Stage.valid = true := by
  simp only [State.buildStages, List.all_eq_true, List.mem_map, List.mem_range]
  rintro _ ⟨j, hj, rfl⟩
  exact State.valid_buildStage (State.goodLength_of_firstBadStage h hn hj)

/-- The greatest latency of a valid chain of S stages, 127 (2 + 4 + ... + 2^S) (rules R131, R184). -/
theorem latOsOf_bound {gs : List Stage} (h : gs.all Stage.valid = true) :
    latOsOf gs + 254 ≤ 127 * 2 ^ (gs.length + 1) := by
  induction gs with
  | nil => simp [latOsOf]
  | cons g gs ih =>
    simp only [List.all_cons, Bool.and_eq_true] at h
    obtain ⟨hg, hgs⟩ := h
    obtain ⟨_, hk, _⟩ := (Stage.valid_iff g).mp hg
    have hterm : (2 * g.k - 1) * 2 ^ (gs.length + 1) ≤ 127 * 2 ^ (gs.length + 1) :=
      Nat.mul_le_mul_right _ (by omega)
    have htail := ih hgs
    rw [List.length_cons, pow_succ, latOsOf]
    omega

/-- LAT_OS of a valid chain of at most four stages (rule R131). -/
theorem latOsOf_le {gs : List Stage} (hlen : gs.length ≤ 4) (h : gs.all Stage.valid = true) :
    latOsOf gs ≤ 3810 := by
  have hbound := latOsOf_bound h
  have hpow : 2 ^ (gs.length + 1) ≤ 2 ^ 5 := Nat.pow_le_pow_right (by decide) (by omega)
  omega

theorem latencyOf_le (factor los : Nat) : latencyOf factor los ≤ los + factor := by
  have hdiv : latencyOf factor los ≤ los + factor / 2 := Nat.div_le_self _ _
  omega

/-- Work that keeps every stage's filter keeps the latency of the chain (rule R35). -/
theorem latOsOf_eq_of_kept {gs hs : List Stage} (h : List.Forall₂ Stage.Kept gs hs) :
    latOsOf hs = latOsOf gs := by
  induction h with
  | nil => rfl
  | cons hg htail ih =>
    obtain ⟨⟨hk, _⟩, _⟩ := hg
    simp only [latOsOf, ih, hk, htail.length_eq]

theorem all_valid_of_kept {gs hs : List Stage} (h : List.Forall₂ Stage.Kept gs hs)
    (hvalid : gs.all Stage.valid = true) : hs.all Stage.valid = true := by
  induction h with
  | nil => rfl
  | cons hg _ ih =>
    simp only [List.all_cons, Bool.and_eq_true] at hvalid ⊢
    exact ⟨hg.2 hvalid.1, ih hvalid.2⟩

end Sys2Proof.Machine
end

section
/-! PROOFS. The machine invariant: it holds at reset and every step keeps it. -/

namespace Sys2Proof

namespace Machine

theorem State.inv_reset : State.reset.Inv where
  few_stages := by decide
  valid_stages := rfl
  osr_built := rfl
  factor_built := rfl
  latOs_built := rfl
  latency_built := by decide
  errflags_res0 := by decide
  cause_legal := by decide
  epsa_legal := by decide
  taps_canonical := rfl

theorem State.trackerInv_reset : State.reset.TrackerInv := fun hwsr => nomatch hwsr

theorem State.Inv.resetInput {s : State} : s.resetInput.Inv := { State.inv_reset with }

/-- A rejection sets a bit that exists and records a cause that exists (rules R25, R240, R243). -/
theorem State.Inv.reject {s : State} (hs : s.Inv) (c : Cause) : (s.reject c).Inv :=
  { hs with
    errflags_res0 := by
      rw [State.reject_errflags, BitVec.and_or_distrib_right, hs.errflags_res0, Cause.flag_res0,
        BitVec.or_self]
    cause_legal := by rw [State.reject_lasterr, Cause.word_cause]; exact c.code_le }

/-- Work on the signal path keeps what the invariant says of the chain (rules R33 to R35). -/
theorem State.Inv.signalWork {s t : State} (hs : s.Inv) (h : SignalWork Stage.Kept s t) : t.Inv := by
  obtain ⟨gs, v, y, xprev, adprev, free, rfl, hgs⟩ := h
  have hlen := hgs.length_eq
  have hempty : gs.isEmpty = s.stages.isEmpty := by
    rw [Bool.eq_iff_iff, List.isEmpty_iff_length_eq_zero, List.isEmpty_iff_length_eq_zero, hlen]
  exact { hs with
    few_stages := hlen ▸ hs.few_stages
    valid_stages := all_valid_of_kept hgs hs.valid_stages
    osr_built := by simp only [hempty, hs.osr_built]
    factor_built := by simp only [hempty, ← hlen, hs.factor_built]
    latOs_built := by simp only [latOsOf_eq_of_kept hgs, hs.latOs_built]
    latency_built := by simp only [latOsOf_eq_of_kept hgs, ← hlen, hs.latency_built] }

/-- An accepted `SETF` builds a chain that the invariant allows (rules R183 to R185). -/
theorem State.Inv.construct {s : State} (hs : s.Inv) {n : Nat} (hpos : 1 ≤ n) (hn : n ≤ 4)
    (hgood : s.firstBadStage n = none) : (s.construct n).Inv := by
  have hvalid := State.valid_buildStages hgood hn
  have hlatOs : latOsOf (s.buildStages n) ≤ 3810 := latOsOf_le (by simpa using hn) hvalid
  have hfactor : 2 ^ n ≤ 2 ^ 4 := Nat.pow_le_pow_right (by decide) hn
  have hlatency := latencyOf_le (2 ^ n) (latOsOf (s.buildStages n))
  have hne : (s.buildStages n).isEmpty = false := by
    rw [Bool.eq_false_iff, Ne, List.isEmpty_iff_length_eq_zero, State.buildStages_length]
    omega
  exact { hs with
    few_stages := by simpa [Config.sMax] using hn
    valid_stages := hvalid
    osr_built := by simp [hne]
    factor_built := by simp [hne]; omega
    latOs_built := (BitVec.toNat_ofNat _ 32).trans (Nat.mod_eq_of_lt (by omega))
    latency_built := by
      rw [State.construct_stages, State.buildStages_length]
      exact (BitVec.toNat_ofNat _ 32).trans (Nat.mod_eq_of_lt (by omega)) }

/-- Every command keeps the invariant, whichever way it ends. -/
theorem State.Inv.exec {i : Instr} {s t : State} (hs : s.Inv) (h : exec i s = .next t) : t.Inv := by
  cases exec_effect h with
  | rejected c _ ht => exact ht ▸ hs.reject c
  | processed hwork =>
    obtain ⟨gs, v, y, xprev, adprev, free, ht, hgs⟩ := hwork
    exact hs.signalWork ⟨gs, v, y, xprev, adprev, free, ht, hgs.imp fun _ _ => stageWork_kept⟩
  | oversamplerBuilt imm8 n _ hcount hgood ht =>
    obtain ⟨hpos, hn⟩ := stageCount?_bounds hcount
    exact ht ▸ hs.construct hpos hn hgood
  | waveshaperBuilt v _ hlegal ht =>
    subst ht
    exact { hs with epsa_legal := hlegal }

theorem State.Inv.runCommand {w : Word} {s t : State} (hs : s.Inv) (h : runCommand w s = .next t) :
    t.Inv := by
  have hcmd : ({ s with cmd := w } : State).Inv := { hs with }
  obtain ⟨i, _, hexec⟩ | ⟨_, _, rfl⟩ := runCommand_cases h
  · exact hcmd.exec hexec
  · exact hcmd.reject _

/-- A host write that is no command clears bits of ERRFLAGS or writes inside TAPS, and reaches nothing
else that the invariant speaks of (rules R25, R32, R63). -/
theorem State.Inv.hostWrite {s : State} (hs : s.Inv) (a : PortAddr) (v : Word) :
    (s.hostWrite a v).Inv where
  few_stages := by simpa using hs.few_stages
  valid_stages := by simpa using hs.valid_stages
  osr_built := by simpa using hs.osr_built
  factor_built := by simpa using hs.factor_built
  latOs_built := by simpa using hs.latOs_built
  latency_built := by simpa using hs.latency_built
  errflags_res0 := by
    obtain ⟨_, herr⟩ | herr := s.hostWrite_errflags a v
    · rw [herr, BitVec.and_assoc, BitVec.and_comm (~~~v), ← BitVec.and_assoc, hs.errflags_res0,
        BitVec.zero_and]
    · rw [herr, hs.errflags_res0]
  cause_legal := by simpa using hs.cause_legal
  epsa_legal := by simpa using hs.epsa_legal
  taps_canonical := by
    obtain ⟨st, i, htaps⟩ | htaps := s.hostWrite_taps a v
    · obtain ⟨hlow, hhigh⟩ := tapOffset_bounds st i
      exact htaps ▸ Memory.wf_setWord v hs.taps_canonical hlow hhigh
    · exact htaps ▸ hs.taps_canonical

end Machine

open Machine in
/-- Settles O17: whatever the step serves, the state it gives satisfies the invariant. -/
theorem invariantKeptByStep : Obligations.InvariantKeptByStep := by
  intro s t hs hstep
  obtain ⟨_, rfl⟩ | ⟨e, rest, _, hserved⟩ := step_cases hstep
  · exact hs
  have hrest : ({ s with pending := rest } : State).Inv := { hs with }
  obtain ⟨a, _, rfl⟩ | ⟨w, _, hrun⟩ | ⟨a, v, _, _, rfl⟩ | ⟨_, rfl⟩ := hserved
  · exact { hs with }
  · exact hrest.runCommand hrun
  · exact hrest.hostWrite a v
  · exact .resetInput

/-- Settles O16, the companion of O17: both invariants hold where every run starts. -/
theorem resetMeetsInvariant : Obligations.ResetMeetsInvariant :=
  ⟨Machine.State.inv_reset, Machine.State.trackerInv_reset⟩

end Sys2Proof
end

section
/-! PROOFS. Ring buffers: a push moves the window by one, and the window is what was pushed, newest first
(rules R140, R141, R144). -/

namespace Sys2Proof

namespace Machine

/-- After a push the newest sample stands just behind the cursor, in the slot written (rule R141). -/
theorem slot_newest_after_push {c w : Nat} (hw : w < c) : ((w + 1) % c + c - 1 - 0) % c = w := by
  rcases Nat.lt_or_ge (w + 1) c with hlt | hge
  · have hsum : w + 1 + c - 1 - 0 = w + c := by omega
    rw [Nat.mod_eq_of_lt hlt, hsum, Nat.add_mod_right, Nat.mod_eq_of_lt hw]
  · obtain rfl : c = w + 1 := by omega
    simp

/-- After a push, tap k + 1 is the slot that was tap k (rule R141). -/
theorem slot_succ_after_push {c w k : Nat} (hw : w < c) (hk : k + 1 < c) :
    ((w + 1) % c + c - 1 - (k + 1)) % c = (w + c - 1 - k) % c := by
  rcases Nat.lt_or_ge (w + 1) c with hlt | hge
  · rw [Nat.mod_eq_of_lt hlt]
    congr 1
    omega
  · obtain rfl : c = w + 1 := by omega
    have hsum : w + (w + 1) - 1 - k = 0 + (w + 1) - 1 - (k + 1) + (w + 1) := by omega
    rw [Nat.mod_self, hsum, Nat.add_mod_right]

/-- No tap but the oldest is the slot that the next push writes (rule R140). -/
theorem slot_ne_cursor {c w k : Nat} (hw : w < c) (hk : k + 1 < c) : (w + c - 1 - k) % c ≠ w := by
  rcases Nat.lt_or_ge k w with hlt | hge
  · have hsum : w + c - 1 - k = w - 1 - k + c := by omega
    rw [hsum, Nat.add_mod_right, Nat.mod_eq_of_lt (by omega)]
    omega
  · rw [Nat.mod_eq_of_lt (by omega)]
    omega

theorem Ring.tap_zero_push {c : Nat} {B : Ring} (v : Word) (hlen : B.mem.length = c) (hw : B.w < c) :
    (B.push c v).tap c 0 = v := by
  have hset : B.w < (B.mem.set B.w v).length := by simpa [hlen] using hw
  simp only [Ring.tap, Ring.push, slot_newest_after_push hw]
  rw [List.getD_eq_getElem _ _ hset, List.getElem_set_self]

theorem Ring.tap_succ_push {c k : Nat} {B : Ring} (v : Word) (hw : B.w < c) (hk : k + 1 < c) :
    (B.push c v).tap c (k + 1) = B.tap c k := by
  simp only [Ring.tap, Ring.push, slot_succ_after_push hw hk, List.getD_eq_getElem?_getD]
  rw [List.getElem?_set_ne (slot_ne_cursor hw hk).symm]

theorem Ring.tap_fresh (c k : Nat) : (Ring.fresh c).tap c k = 0#32 := by
  simp only [Ring.tap, Ring.fresh, List.getD_eq_getElem?_getD, List.getElem?_replicate]
  split <;> rfl

end Machine

open Machine

/-- Settles O28: the window clauses are the two taps after a push, and the sizes are those of R34. -/
theorem pushMovesWindow : Obligations.PushMovesWindow := by
  intro c B v hlen hw
  obtain ⟨hlen', hw'⟩ := (Ring.wellSized_iff c _).mp
    (Ring.wellSized_push v ((Ring.wellSized_iff c B).mpr ⟨hlen, hw⟩))
  exact ⟨Ring.tap_zero_push v hlen hw, fun _ hk => Ring.tap_succ_push v hw hk, hlen', hw'⟩

/-- Settles O29, by induction on the pushes, the last one first: it is tap 0, and what the pushes before
it left has moved back by one. -/
theorem windowIsNewestFirst : Obligations.WindowIsNewestFirst := by
  intro c ws k hk
  induction ws using List.reverseRecOn generalizing k with
  | nil => exact Ring.tap_fresh c k
  | append_singleton vs v ih =>
    obtain ⟨hlen, hw⟩ := (Ring.wellSized_iff c _).mp
      (Ring.wellSized_pushAll vs (Ring.wellSized_fresh c (by omega)))
    rw [Ring.pushAll_append, Ring.pushAll_cons, Ring.pushAll_nil, List.reverse_append]
    cases k with
    | zero => exact Ring.tap_zero_push v hlen hw
    | succ k => exact (Ring.tap_succ_push v hw hk).trans (ih k (by omega))

end Sys2Proof
end

section
/-! PROOFS. The reset state, row by row and as the host reads it (rules R39, R67, R271). -/

namespace Sys2Proof

namespace Machine

@[simp] theorem State.readV_reset (r : VReg) : State.reset.readV r = 0#32 := by
  simp [State.readV, State.reset]

/-- Every register but a staging word holds a zero after reset (rule R39). -/
theorem State.readReg_reset {r : Reg} (h : ∀ st i, r ≠ .taps st i) : State.reset.readReg r = 0#32 := by
  cases r with
  | v i => exact State.readV_reset i
  | taplen st => simp [State.readReg, State.tapLength, State.reset]
  | taps st i => exact absurd rfl (h st i)
  | _ => rfl

end Machine

open Machine

/-- Settles O13: each row is the field of the reset state; the vector registers and the staged lengths are
replicated zeros. -/
theorem resetStateIsTheTable : Obligations.ResetStateIsTheTable := by
  refine ⟨rfl, rfl, State.readV_reset, rfl, rfl, rfl, rfl, rfl, rfl, rfl, rfl, rfl, rfl, rfl, rfl, rfl,
    fun j => ?_, fun _ => rfl, rfl⟩
  simp [State.reset]

/-- Settles O14: outside 0x400 .. 0x13FF no word of the map is a staging word. -/
theorem resetReadsZero : Obligations.ResetReadsZero :=
  fun _ hout => State.readReg_reset fun _ _ htaps => hout (regAt_eq_taps htaps)

end Sys2Proof
end

section
/-! PROOFS. What a step leaves of the error registers, the ready bits and the latency registers (rules R24
to R29). -/

namespace Sys2Proof

namespace Machine

theorem and_not_or_self (a b : Word) : a &&& ~~~(a ||| b) = 0#32 := by
  rw [BitVec.not_or, ← BitVec.and_assoc, BitVec.and_not_self]
  exact BitVec.zero_and

/-- No command clears a bit of ERRFLAGS (rule R25). -/
theorem exec_errflags_sticky {i : Instr} {s t : State} (h : exec i s = .next t) :
    s.errflags &&& ~~~t.errflags = 0#32 := by
  cases exec_effect h with
  | rejected c _ ht => subst ht; exact and_not_or_self _ _
  | processed hwork =>
    obtain ⟨_, _, _, _, _, _, rfl, _⟩ := hwork
    exact BitVec.and_not_self _
  | oversamplerBuilt _ _ _ _ _ ht => subst ht; exact BitVec.and_not_self _
  | waveshaperBuilt _ _ _ ht => subst ht; exact BitVec.and_not_self _

theorem runCommand_errflags_sticky {w : Word} {s t : State} (h : runCommand w s = .next t) :
    s.errflags &&& ~~~t.errflags = 0#32 := by
  obtain ⟨_, _, hexec⟩ | ⟨_, _, rfl⟩ := runCommand_cases h
  · exact (exec_errflags_sticky hexec :)
  · exact and_not_or_self _ _

/-- No command clears a ready bit (rule R24). -/
theorem exec_ready_kept {i : Instr} {s t : State} (h : exec i s = .next t) :
    (s.osr = true → t.osr = true) ∧ (s.wsr = true → t.wsr = true) := by
  cases exec_effect h with
  | rejected _ _ ht => subst ht; exact ⟨id, id⟩
  | processed hwork =>
    obtain ⟨_, _, _, _, _, _, rfl, _⟩ := hwork
    exact ⟨id, id⟩
  | oversamplerBuilt _ _ _ _ _ ht => subst ht; exact ⟨fun _ => rfl, id⟩
  | waveshaperBuilt _ _ _ ht => subst ht; exact ⟨id, fun _ => rfl⟩

theorem runCommand_ready_kept {w : Word} {s t : State} (h : runCommand w s = .next t) :
    (s.osr = true → t.osr = true) ∧ (s.wsr = true → t.wsr = true) := by
  obtain ⟨_, _, hexec⟩ | ⟨_, _, rfl⟩ := runCommand_cases h
  · exact (exec_ready_kept hexec :)
  · exact ⟨id, id⟩

/-- The three registers that only construction writes (rules R27 to R29). -/
def State.SameLatency (s t : State) : Prop :=
  t.latency = s.latency ∧ t.latOs = s.latOs ∧ t.factor = s.factor

theorem State.SameLatency.refl (s : State) : s.SameLatency s := ⟨rfl, rfl, rfl⟩

/-- A command keeps the latency registers, or is an accepted `SETF` (rules R27 to R29, R183). -/
theorem exec_latency_cases {i : Instr} {s t : State} (h : exec i s = .next t) :
    s.SameLatency t ∨ ∃ imm8, i = .setf imm8 ∧
      t.errflags = s.errflags ∧ t.lasterr = s.lasterr ∧ t.osr = true := by
  cases exec_effect h with
  | rejected _ _ ht => subst ht; exact .inl (.refl s)
  | processed hwork =>
    obtain ⟨_, _, _, _, _, _, rfl, _⟩ := hwork
    exact .inl (.refl s)
  | oversamplerBuilt imm8 _ hi _ _ ht => subst ht; exact .inr ⟨imm8, hi, rfl, rfl, rfl⟩
  | waveshaperBuilt _ _ _ ht => subst ht; exact .inl (.refl s)

/-- A word whose bits 23:8 are zero is its opcode byte, two zero bytes and its low byte (rule R93). -/
theorem word_eq_of_mid_zero {w : Word} (h : w &&& 0x00FFFF00#32 = 0#32) :
    w = opField w ++ 0#16 ++ immField w := by
  have hmask : w.extractLsb' 8 16 &&& BitVec.allOnes 16 = 0#16 := by
    simpa [BitVec.extractLsb'_and] using congrArg (BitVec.extractLsb' 8 16) h
  rw [BitVec.and_allOnes] at hmask
  rw [← hmask, opField, immField, BitVec.extractLsb'_append_extractLsb'_eq_extractLsb' (by rfl),
    BitVec.extractLsb'_append_extractLsb'_eq_extractLsb' (by rfl)]
  exact BitVec.extractLsb'_eq_self.symm

/-- Only the opcode of `SETF` gives a `SETF`, its operand being the low byte (rules R93, R94). -/
theorem operands_eq_setf {w : Word} {o : Opcode} {imm8 : Byte} (h : operands w o = .ok (.setf imm8)) :
    o = .setf ∧ imm8 = immField w := by
  cases o with
  | setf => cases h; exact ⟨rfl, rfl⟩
  | stup | stdn =>
    simp only [operands] at h
    split at h <;> cases h
  | _ => cases h

theorem opcodeOf_eq_setf {op : Byte} (h : opcodeOf op = some .setf) : op = 0x01#8 := by
  simp only [opcodeOf, ite_eq_iff, Option.some.injEq, reduceCtorEq, and_true, and_false, or_false]
    at h
  exact h

/-- A word that decodes to `SETF imm8` is the word of `SETF imm8` (rules R91, R93). -/
theorem eq_encode_of_decode_setf {w : Word} {imm8 : Byte} (h : decode w = .ok (.setf imm8)) :
    w = encode (.setf imm8) := by
  obtain ⟨o, hop, hzero, hoperands⟩ := (decode_eq_ok_iff w _).mp h
  obtain ⟨rfl, rfl⟩ := operands_eq_setf hoperands
  have hword := word_eq_of_mid_zero hzero
  rwa [opcodeOf_eq_setf hop] at hword

/-- Every command ends in a next state (rule R243). -/
theorem exec_total (i : Instr) (s : State) : ∃ t, exec i s = .next t := by
  cases i with
  | shinit | push =>
    simp only [exec, execShinit, execPush]
    split <;> exact ⟨_, rfl⟩
  | setf | conv | stup | stdn =>
    simp only [exec, execSetf, execConv, execStup, execStdn]
    split
    · exact ⟨_, rfl⟩
    · split <;> exact ⟨_, rfl⟩
  | ups | dns | shp | proc =>
    simp only [exec, execUps, execDns, execShp, execProc]
    split
    · split <;> exact ⟨_, rfl⟩
    · exact ⟨_, rfl⟩

/-- A command whose component is built completes without touching the error registers (rule R254). -/
theorem exec_on_built_path {i : Instr} {s : State} (hpath : OnBuiltPath s i) :
    ∃ t, exec i s = .next t ∧ t.errflags = s.errflags ∧ t.lasterr = s.lasterr := by
  obtain ⟨t, ht⟩ := exec_total i s
  refine ⟨t, ht, ?_⟩
  cases exec_effect ht with
  | rejected _ hnot _ => exact absurd hpath hnot
  | processed hwork =>
    obtain ⟨_, _, _, _, _, _, rfl, _⟩ := hwork
    exact ⟨rfl, rfl⟩
  | oversamplerBuilt _ _ _ _ _ ht => subst ht; exact ⟨rfl, rfl⟩
  | waveshaperBuilt _ _ _ ht => subst ht; exact ⟨rfl, rfl⟩

theorem State.isSome_stage? {s : State} {st : StageIx} (h : st.toNat < s.stages.length) :
    (s.stage? st).isSome = true :=
  isSome_getElem? .. |>.mpr h

end Machine

open Machine

/-- Settles O10: a command only adds bits to ERRFLAGS, and a host write clears bits only at offset
0x008. -/
theorem errorFlagsAreSticky : Obligations.ErrorFlagsAreSticky := by
  intro s t hstep hwrite hreset
  obtain ⟨_, rfl⟩ | ⟨e, rest, hpending, hserved⟩ := step_cases hstep
  · exact BitVec.and_not_self _
  obtain ⟨a, _, rfl⟩ | ⟨w, _, hrun⟩ | ⟨a, v, rfl, _, rfl⟩ | ⟨rfl, _⟩ := hserved
  · exact BitVec.and_not_self _
  · exact (runCommand_errflags_sticky hrun :)
  · obtain ⟨rfl, _⟩ | herr := State.hostWrite_errflags { s with pending := rest } a v
    · exact absurd hpending (hwrite v rest)
    · rw [herr]; exact BitVec.and_not_self _
  · exact absurd hpending (hreset rest)

/-- Settles O20: among the steps that are no reset only a command can change the three registers, and of
the commands only an accepted `SETF`, whose word is the one written. -/
theorem latencyChangesOnlyAtConstruction : Obligations.LatencyChangesOnlyAtConstruction := by
  intro s t hstep hreset
  obtain ⟨_, rfl⟩ | ⟨e, rest, hpending, hserved⟩ := step_cases hstep
  · exact .inl ⟨rfl, rfl, rfl⟩
  obtain ⟨a, _, rfl⟩ | ⟨w, rfl, hrun⟩ | ⟨a, v, _, _, rfl⟩ | ⟨rfl, _⟩ := hserved
  · exact .inl ⟨rfl, rfl, rfl⟩
  · obtain ⟨i, hdecode, hexec⟩ | ⟨_, _, rfl⟩ := runCommand_cases hrun
    · obtain hsame | ⟨imm8, rfl, herr, hlast, hosr⟩ := exec_latency_cases hexec
      · exact .inl hsame
      · obtain rfl := eq_encode_of_decode_setf hdecode
        exact .inr ⟨imm8, rest, hpending, herr, hlast, hosr⟩
    · exact .inl ⟨rfl, rfl, rfl⟩
  · exact .inl ⟨by simp, by simp, by simp⟩
  · exact absurd hpending (hreset rest)

/-- No step but a reset clears a ready bit (rules R24, R254). -/
theorem Machine.step_ready_kept {s t : State} (hstep : step s = .next t)
    (hreset : ∀ rest, s.pending ≠ .reset :: rest) :
    (s.osr = true → t.osr = true) ∧ (s.wsr = true → t.wsr = true) := by
  obtain ⟨_, rfl⟩ | ⟨e, rest, hpending, hserved⟩ := step_cases hstep
  · exact ⟨id, id⟩
  obtain ⟨a, _, rfl⟩ | ⟨w, _, hrun⟩ | ⟨a, v, _, _, rfl⟩ | ⟨rfl, _⟩ := hserved
  · exact ⟨id, id⟩
  · exact (runCommand_ready_kept hrun :)
  · exact ⟨by simp, by simp⟩
  · exact absurd hpending (hreset rest)

/-- Settles O26: in each clause the premise says that the component is built. -/
theorem perSamplePathNeverFails : Obligations.PerSamplePathNeverFails := by
  refine ⟨fun s => ⟨fun hosr i hi => ?_, fun st d b tb r q hst i hi => ?_,
    fun hwsr r q => exec_on_built_path hwsr, fun hosr hwsr => exec_on_built_path ⟨hosr, hwsr⟩⟩,
    fun _ _ => step_ready_kept⟩
  · simp only [List.mem_cons, List.not_mem_nil, or_false] at hi
    obtain rfl | rfl := hi <;> exact exec_on_built_path hosr
  · have hsome := State.isSome_stage? hst
    simp only [List.mem_cons, List.not_mem_nil, or_false] at hi
    obtain rfl | rfl | rfl | rfl := hi <;> exact exec_on_built_path hsome

end Sys2Proof
end

section
/-! PROOFS. What cannot reach what: the two directions of the chain, and staging (rules R32, R71, R165,
R281). -/

namespace Sys2Proof

namespace Machine

theorem Stage.UpWork.sameDown {g h : Stage} (w : g.UpWork h) : g.sameDown h :=
  let ⟨_, hdown, _⟩ := w
  hdown

theorem Stage.DownWork.sameUp {g h : Stage} (w : g.DownWork h) : g.sameUp h :=
  let ⟨_, hup, _⟩ := w
  hup

/-- What a processing command's work on each stage keeps, the command keeps on the whole chain; a
rejection keeps it too. -/
theorem exec_forall₂_stages {R : Stage → Stage → Prop} (hrefl : ∀ g, R g g) {i : Instr} {s t : State}
    (h : exec i s = .next t) (hsetf : ∀ imm8, i ≠ .setf imm8)
    (hwork : ∀ g g', stageWork i g g' → R g g') : List.Forall₂ R s.stages t.stages := by
  have hsame : List.Forall₂ R s.stages s.stages := List.forall₂_same.mpr fun g _ => hrefl g
  cases exec_effect h with
  | rejected _ _ ht => subst ht; exact hsame
  | processed hsignal =>
    obtain ⟨gs, _, _, _, _, _, rfl, hgs⟩ := hsignal
    exact hgs.imp hwork
  | oversamplerBuilt imm8 _ heq => exact absurd heq (hsetf imm8)
  | waveshaperBuilt _ _ _ ht => subst ht; exact hsame

end Machine

open Machine

/-- Settles O51: each command's work on a stage keeps the filter, and upsampling work keeps the D buffers,
downsampling work the U buffers. -/
theorem signalPathsSeparate : Obligations.SignalPathsSeparate := by
  intro i s t h
  refine ⟨fun hsetf => exec_forall₂_stages Stage.sameFilter_refl h hsetf
    fun _ _ w => (stageWork_kept w).1, fun hup => ?_, fun hdown => ?_⟩
  · obtain rfl | ⟨st, vd, va, rfl⟩ | ⟨st, b, va, rfl⟩ := hup <;>
      exact exec_forall₂_stages Stage.sameDown_refl h nofun fun _ _ => Stage.UpWork.sameDown
  · obtain rfl | ⟨st, vd, va, rfl⟩ | ⟨st, b, va, rfl⟩ := hdown <;>
      exact exec_forall₂_stages Stage.sameUp_refl h nofun fun _ _ => Stage.DownWork.sameUp

end Sys2Proof
end

section
/-! PROOFS. Staging is not live: a processing command commutes with any change of TAPS, TAPLEN and EPS
(rules R32, R71, R281). -/

namespace Sys2Proof

namespace Machine

/-- The state with other staging (rule R32). -/
def State.withStaging (s : State) (m : Memory) (l : Vector (BitVec 16) 4) (e : Word) : State :=
  { s with taps := m, taplen := l, eps := e }

/-- An outcome with its next state changed. -/
def mapNext (f : State → State) : Host.Outcome State Fault Refusal → Host.Outcome State Fault Refusal
  | .next s => .next (f s)
  | .fault r => .fault r
  | .refused r => .refused r

section
variable (s : State) (m : Memory) (l : Vector (BitVec 16) 4) (e : Word)

/-! ### What a processing command reads is no staging -/

@[simp] theorem State.withStaging_osr : (s.withStaging m l e).osr = s.osr := rfl
@[simp] theorem State.withStaging_wsr : (s.withStaging m l e).wsr = s.wsr := rfl
@[simp] theorem State.withStaging_stages : (s.withStaging m l e).stages = s.stages := rfl
@[simp] theorem State.withStaging_stage? (st : StageIx) :
    (s.withStaging m l e).stage? st = s.stage? st := rfl
@[simp] theorem State.withStaging_readV (r : VReg) : (s.withStaging m l e).readV r = s.readV r := rfl
@[simp] theorem State.withStaging_upsample? : (s.withStaging m l e).upsample? = s.upsample? := rfl
@[simp] theorem State.withStaging_process? : (s.withStaging m l e).process? = s.process? := rfl

@[simp] theorem State.withStaging_freeUpChain (gs : List Stage) (n skip : Nat) :
    (s.withStaging m l e).freeUpChain gs n skip = s.freeUpChain gs n skip := by
  induction gs generalizing n skip with
  | nil => rfl
  | cons g gs ih => exact congrArg _ (ih _ _)

@[simp] theorem State.withStaging_freeDownChain (gs : List Stage) (n skip : Nat) :
    (s.withStaging m l e).freeDownChain gs n skip = s.freeDownChain gs n skip := by
  induction gs generalizing n skip with
  | nil => rfl
  | cons g gs ih => exact congrArg _ (ih _ _)

/-! ### The eight processing commands -/

theorem execPush_withStaging (d : Dir) (st : StageIx) (b : Branch) (va : VReg) :
    execPush d st b va (s.withStaging m l e) =
      mapNext (·.withStaging m l e) (execPush d st b va s) := by
  simp only [execPush, State.withStaging_stage?]
  cases s.stage? st <;> rfl

theorem execConv_withStaging (d : Dir) (st : StageIx) (b tb : Branch) (vd : VReg) :
    execConv d st b tb vd (s.withStaging m l e) =
      mapNext (·.withStaging m l e) (execConv d st b tb vd s) := by
  simp only [execConv, State.withStaging_stage?]
  cases s.stage? st with
  | none => rfl
  | some g => cases hconv : (g.ring d b).convolve? g.c (g.taps tb) <;> simp only [hconv] <;> rfl

theorem execStup_withStaging (st : StageIx) (vd va : VReg) :
    execStup st vd va (s.withStaging m l e) =
      mapNext (·.withStaging m l e) (execStup st vd va s) := by
  simp only [execStup, State.withStaging_stage?, State.withStaging_readV]
  cases s.stage? st with
  | none => rfl
  | some g => cases hup : g.up? (s.readV va) <;> simp only [hup] <;> rfl

theorem execStdn_withStaging (st : StageIx) (vd va : VReg) :
    execStdn st vd va (s.withStaging m l e) =
      mapNext (·.withStaging m l e) (execStdn st vd va s) := by
  simp only [execStdn, State.withStaging_stage?, State.withStaging_readV]
  cases s.stage? st with
  | none => rfl
  | some g =>
    cases hdown : g.down? (s.readV va) (s.readV (pairNext va)) <;> simp only [hdown] <;> rfl

theorem execUps_withStaging :
    execUps (s.withStaging m l e) = mapNext (·.withStaging m l e) (execUps s) := by
  simp only [execUps, State.withStaging_osr, State.withStaging_upsample?, State.withStaging_stages,
    State.withStaging_freeUpChain]
  split
  · cases s.upsample? <;> rfl
  · rfl

theorem execDns_withStaging :
    execDns (s.withStaging m l e) = mapNext (·.withStaging m l e) (execDns s) := by
  have hframe : ∀ n, (s.withStaging m l e).frame n = s.frame n := fun _ => rfl
  have hfactor : (s.withStaging m l e).chainFactor = s.chainFactor := rfl
  simp only [execDns, State.withStaging_osr, State.withStaging_stages,
    State.withStaging_freeDownChain, hframe, hfactor]
  split
  · cases downsample? s.stages (s.frame s.chainFactor) <;> rfl
  · rfl

theorem execShp_withStaging (vd va : VReg) :
    execShp vd va (s.withStaging m l e) = mapNext (·.withStaging m l e) (execShp vd va s) := by
  have hstep : adaaStep? (s.withStaging m l e).shape (s.withStaging m l e).epsa
      (s.withStaging m l e).tracker ((s.withStaging m l e).readV va) =
      adaaStep? s.shape s.epsa s.tracker (s.readV va) := rfl
  simp only [execShp, State.withStaging_wsr, hstep]
  split
  · cases adaaStep? s.shape s.epsa s.tracker (s.readV va) <;> rfl
  · rfl

theorem execProc_withStaging :
    execProc (s.withStaging m l e) = mapNext (·.withStaging m l e) (execProc s) := by
  simp only [execProc, State.withStaging_osr, State.withStaging_wsr, State.withStaging_process?,
    State.withStaging_stages, State.withStaging_freeUpChain, State.withStaging_freeDownChain]
  split
  · cases s.process? <;> rfl
  · rfl

end

/-- Rules R71 and R281, as an equation: a command that is no constructor commutes with a change of
staging. -/
theorem exec_withStaging {i : Instr} (hsetf : ∀ imm8, i ≠ .setf imm8) (hshinit : ∀ v, i ≠ .shinit v)
    (s : State) (m : Memory) (l : Vector (BitVec 16) 4) (e : Word) :
    exec i (s.withStaging m l e) = mapNext (·.withStaging m l e) (exec i s) := by
  cases i with
  | setf imm8 => exact absurd rfl (hsetf imm8)
  | shinit v => exact absurd rfl (hshinit v)
  | push d st b va => exact execPush_withStaging s m l e d st b va
  | conv d st b tb vd => exact execConv_withStaging s m l e d st b tb vd
  | stup st vd va => exact execStup_withStaging s m l e st vd va
  | stdn st vd va => exact execStdn_withStaging s m l e st vd va
  | ups => exact execUps_withStaging s m l e
  | dns => exact execDns_withStaging s m l e
  | shp vd va => exact execShp_withStaging s m l e vd va
  | proc => exact execProc_withStaging s m l e

end Machine

/-- Settles O52: the run from the other staging is the image of the run given. -/
theorem stagingIsNotLive : Obligations.StagingIsNotLive := by
  intro i s t m l e hsetf hshinit h
  have hcommutes := Machine.exec_withStaging hsetf hshinit s m l e
  rwa [h] at hcommutes

end Sys2Proof
end

section
/-! PROOFS. The register map as a table with an inverse, and the host's accesses to one channel: what a
read returns, and which words a write reaches (rules R62, R63, R66, R67). -/

open Sys2Proof.Stated

namespace Sys2Proof

namespace Machine

/-! ### The map of rule R66 and its inverse -/

/-- `regAt` and `Reg.addr?` are the same map of rule R66 read in the two directions: each register is one
row, and both say of that row which byte offsets it takes. -/
theorem regAt_eq_iff {r : Reg} (hr : r ≠ .reserved) (a : PortAddr) :
    regAt a = r ↔ r.addr? = some a := by
  cases r with
  | reserved => exact absurd rfl hr
  | _ =>
    simp only [regAt, Reg.addr?, ite_eq_iff, reduceCtorEq, Reg.v.injEq, Reg.taplen.injEq,
      Reg.taps.injEq, Option.some.injEq, ← BitVec.toNat_inj, BitVec.toNat_ofNat, and_true, and_false,
      false_or, or_false]
    omega

/-- A register stands at its own word number. -/
theorem regAt_of_addr? {r : Reg} {a : PortAddr} (h : r.addr? = some a) : regAt a = r :=
  (regAt_eq_iff (by rintro rfl; cases h) a).mpr h

/-- What stands at a word has that word's number, unless it is reserved. -/
theorem addr?_of_regAt {r : Reg} {a : PortAddr} (h : regAt a = r) (hr : r ≠ .reserved) :
    r.addr? = some a :=
  (regAt_eq_iff hr a).mp h

/-- No register stands at two words. -/
theorem regAt_injective {a b : PortAddr} (ha : regAt a ≠ .reserved) (hab : regAt a = regAt b) :
    a = b :=
  Option.some.inj ((addr?_of_regAt rfl ha).symm.trans (addr?_of_regAt hab.symm ha))

theorem regAt_eq_reserved_iff (a : PortAddr) :
    regAt a = .reserved ↔ a.toNat = 0x00E ∨ a.toNat = 0x00F ∨ (0x024 ≤ a.toNat ∧ a.toNat < 0x100) ∨
      0x500 ≤ a.toNat := by
  simp only [regAt, ite_eq_iff, reduceCtorEq, and_false, and_true, false_or]
  omega

/-! ### Reads -/

theorem State.hostRead_of_addr? {r : Reg} {a : PortAddr} (h : r.addr? = some a) (s : State) :
    s.hostRead a = s.readReg r := by
  rw [State.hostRead, regAt_of_addr? h]

theorem State.hostRead_reserved {a : PortAddr} (h : regAt a = .reserved) (s : State) :
    s.hostRead a = 0#32 := by
  rw [State.hostRead, h, State.readReg]

/-- STATUS as a number: OSR is bit 0 and WSR is bit 1 (rule R24). -/
theorem State.status_eq_ofNat (s : State) :
    s.status = BitVec.ofNat 32 (s.osr.toNat + 2 * s.wsr.toNat) := by
  unfold State.status
  cases s.osr <;> cases s.wsr <;> rfl

/-- The word number of `V[i]` is that of byte offset 0x040 + 4 i (rule R66). -/
theorem addr?_v (i : Fin 16) :
    Reg.addr? (.v (BitVec.ofFin i)) = some (BitVec.ofNat 11 ((0x040 + 4 * i.val) / 4)) := by
  have hword : (0x040 + 4 * i.val) / 4 = 0x010 + i.val := by omega
  rw [hword, Reg.addr?, BitVec.toNat_ofFin]

/-- The word number of `TAPLEN[j]` is that of byte offset 0x080 + 4 j (rule R66). -/
theorem addr?_taplen (j : Fin 4) :
    Reg.addr? (.taplen (BitVec.ofFin j)) = some (BitVec.ofNat 11 ((0x080 + 4 * j.val) / 4)) := by
  have hword : (0x080 + 4 * j.val) / 4 = 0x020 + j.val := by omega
  rw [hword, Reg.addr?, BitVec.toNat_ofFin]

/-- The word number of `TAPS[j][i]` is that of byte offset 0x400 (j + 1) + 4 i (rules R32, R66). -/
theorem addr?_taps (j : Fin 4) (i : Fin 256) :
    Reg.addr? (.taps (BitVec.ofFin j) (BitVec.ofFin i)) =
      some (BitVec.ofNat 11 ((0x400 * (j.val + 1) + 4 * i.val) / 4)) := by
  have hword : (0x400 * (j.val + 1) + 4 * i.val) / 4 = 0x100 * (j.val + 1) + i.val := by omega
  rw [hword, Reg.addr?, BitVec.toNat_ofFin, BitVec.toNat_ofFin]

/-! ### Writes -/

theorem serve_write_of_ne {a : PortAddr} (h : a ≠ cmdAddr) (v : Word) (s : State) :
    serve (.write a v) s = .next (s.hostWrite a v) := by
  rw [serve, if_neg h]

/-- A host write other than to CMD is one step (rule R63). -/
theorem step_of_pending_write {s : State} {a : PortAddr} {v : Word} {rest : List PortEvent}
    (h : s.pending = .write a v :: rest) (ha : a ≠ cmdAddr) :
    step s = .next (({ s with pending := rest } : State).hostWrite a v) :=
  (step_of_pending h).trans (serve_write_of_ne ha v _)

@[simp] theorem State.hostWrite_free (s : State) (a : PortAddr) (v : Word) :
    (s.hostWrite a v).free = s.free := by unfold State.hostWrite; cases regAt a <;> rfl

theorem State.hostWrite_reserved {a : PortAddr} (h : regAt a = .reserved) (s : State) (v : Word) :
    s.hostWrite a v = s := by
  rw [State.hostWrite, h, State.writeReg]

/-- No writable register stands at an offset that ignores writes, and a write to any other register changes
nothing (rules R63, R66, R67). -/
theorem State.hostWrite_of_ignoresWrites {a : PortAddr} (h : IgnoresWrites a) (s : State) (v : Word) :
    s.hostWrite a v = s := by
  unfold State.hostWrite
  cases hreg : regAt a with
  | cmd | errflags | eps | x | y | v | taplen | taps =>
    obtain rfl := Option.some.inj (addr?_of_regAt hreg nofun)
    simp only [IgnoresWrites, BitVec.toNat_ofNat] at h
    omega
  | _ => rfl

/-- Two words of staging do not overlap (rule R32). -/
theorem tapOffset_disjoint {st st' : StageIx} {i i' : Byte} (h : Reg.taps st i ≠ .taps st' i') :
    tapOffset st'.toNat i'.toNat + 3 < tapOffset st.toNat i.toNat ∨
      tapOffset st.toNat i.toNat + 3 < tapOffset st'.toNat i'.toNat := by
  have hdiffer : ¬ (st.toNat = st'.toNat ∧ i.toNat = i'.toNat) := fun ⟨hst, hi⟩ =>
    h (by rw [BitVec.eq_of_toNat_eq hst, BitVec.eq_of_toNat_eq hi])
  have hi := i.isLt
  have hi' := i'.isLt
  unfold tapOffset
  omega

/-- A write to one register leaves every other as it reads (rules R32, R63). -/
theorem State.readReg_writeReg_other {r q : Reg} (h : r ≠ q) (s : State) (v : Word) :
    (s.writeReg v r).readReg q = s.readReg q := by
  cases r with
  | v i =>
    cases q with
    | v j => exact (s.readV_writeV i j v).trans (if_neg fun hij => h (congrArg Reg.v hij.symm))
    | _ => rfl
  | taplen st =>
    cases q with
    | taplen st' =>
      have hne : st.toNat ≠ st'.toNat := fun heq =>
        h (congrArg Reg.taplen (BitVec.eq_of_toNat_eq heq))
      exact congrArg (BitVec.setWidth 32) (Vector.getElem_set_ne st.isLt st'.isLt hne)
    | _ => rfl
  | taps st i =>
    cases q with
    | taps st' i' => exact State.tapWordAt_setWord_other s _ _ v (tapOffset_disjoint h)
    | _ => rfl
  | cmd | errflags | eps | x | y => cases q <;> first | contradiction | rfl
  | _ => rfl

/-- A host write leaves every other word of the map as it reads (rules R32, R63). -/
theorem State.hostRead_hostWrite_other (s : State) {a b : PortAddr} (h : b ≠ a) (v : Word) :
    (s.hostWrite a v).hostRead b = s.hostRead b := by
  by_cases hreserved : regAt a = .reserved
  · rw [State.hostWrite_reserved hreserved]
  · exact State.readReg_writeReg_other (fun heq => h (regAt_injective hreserved heq).symm) s v

/-- The 16 bits of a staged length, read back as a word (rules R32, R67). -/
theorem setWidth_setWidth_16 (v : Word) : (v.setWidth 16).setWidth 32 = v &&& 0x0000FFFF#32 := by
  calc (v.setWidth 16).setWidth 32 = 0#16 ++ v.setWidth 16 := BitVec.setWidth_eq_append (by decide)
    _ = v &&& 0x0000FFFF#32 := (BitVec.and_setWidth_allOnes 16 16 v).symm

theorem State.readReg_taplen_writeReg_same (s : State) (st : StageIx) (v : Word) :
    (s.writeReg v (.taplen st)).readReg (.taplen st) = v &&& 0x0000FFFF#32 := by
  rw [← setWidth_setWidth_16]
  exact congrArg (BitVec.setWidth 32) (Vector.getElem_set_self st.isLt)

end Machine

open Machine

/-- Settles O7: a word that the map names reads as its register, and a word that it does not name is
reserved. -/
theorem hostReadFollowsMap : Obligations.HostReadFollowsMap := by
  refine ⟨fun s a rest h => step_of_pending h, fun s => ?_⟩
  have row (r : Reg) {a : PortAddr} (h : r.addr? = some a) : s.hostRead a = s.readReg r :=
    State.hostRead_of_addr? h s
  exact ⟨row .cmd rfl, (row .status rfl).trans s.status_eq_ofNat, row .errflags rfl, row .lasterr rfl,
    (row .factor rfl).trans (BitVec.ofNat_toNat ..).symm, row .latency rfl, row .latOs rfl, row .eps rfl,
    (row .shape rfl).trans (BitVec.ofNat_toNat ..).symm, row .epsa rfl, row .xprev rfl, row .adprev rfl,
    row .x rfl, row .y rfl, fun i => row _ (addr?_v i),
    fun j => (row _ (addr?_taplen j)).trans (BitVec.ofNat_toNat ..).symm,
    fun j i => row _ (addr?_taps j i),
    fun a ha => State.hostRead_reserved ((regAt_eq_reserved_iff a).mpr ha) s⟩

/-- Settles O8: the frame is that of the write, and the word written reads back case by case. -/
theorem hostWriteReachesOnlyItsWord : Obligations.HostWriteReachesOnlyItsWord := by
  refine ⟨fun s a v rest h ha => step_of_pending_write h ha, fun s a v =>
    ⟨s.hostWrite_stages a v, s.hostWrite_free a v, fun b hb => s.hostRead_hostWrite_other hb v, ?_⟩⟩
  unfold State.hostRead State.hostWrite
  cases regAt a with
  | v i => exact s.readV_writeV_same i v
  | taplen st => exact s.readReg_taplen_writeReg_same st v
  | taps st i => exact s.tapWordAt_setWord_same _ v
  | _ => rfl

/-- Settles O9: the words listed are not CMD, so the step is the write alone, and it changes nothing. -/
theorem readOnlyAndReservedIgnoreWrites : Obligations.ReadOnlyAndReservedIgnoreWrites := by
  intro s a v rest hpending hignores
  have hcmd : a ≠ cmdAddr := by
    rintro rfl
    simp [IgnoresWrites, cmdAddr] at hignores
  rw [step_of_pending_write hpending hcmd, State.hostWrite_of_ignoresWrites hignores]

end Sys2Proof
end

section
/-! PROOFS. A device of several channels: the address map, and that one access reaches and reads one channel
only (rules R66, R234, R262). -/

namespace Sys2Proof

namespace Machine

/-- A command word always completes: it is a command, which ends in a next state, or it is rejected (rules
R91, R243). -/
theorem runCommand_total (w : Word) (s : State) : ∃ t, runCommand w s = .next t := by
  unfold runCommand
  split
  · exact exec_total ..
  · exact ⟨_, rfl⟩

/-- Word `a` of channel c stands in the window of channel c (rules R66, R262). -/
theorem channelOf_word (c : Nat) (a : PortAddr) : channelOf (0x2000 * c + 4 * a.toNat) = c := by
  unfold channelOf
  omega

/-- The word number of device address 0x2000 c + 4 a is `a` (rule R66). -/
theorem portAddrOf_word (c : Nat) (a : PortAddr) : portAddrOf (0x2000 * c + 4 * a.toNat) = a := by
  have hword : (0x2000 * c + 4 * a.toNat) % 0x2000 / 4 = a.toNat := by omega
  rw [portAddrOf, hword, BitVec.ofNat_toNat, BitVec.setWidth_eq]

theorem Device.serveAt_none {D : Device} {c : Nat} (h : D.channels[c]? = none) (e : Access) :
    D.serveAt c e = .fault .noSuchChannel := by
  simp only [Device.serveAt, h]

/-- No channel has a window past the last (rule R66; log 19). -/
theorem Device.getElem?_channelOf_eq_none {D : Device} {address : Nat}
    (h : 0x2000 * D.channels.length ≤ address) : D.channels[channelOf address]? = none := by
  rw [List.getElem?_eq_none_iff, channelOf]
  omega

/-- Device address 0x2000 c + 4 a is word `a` of channel c, for reads ... -/
theorem Device.serveEvent_read_word (D : Device) (c : Nat) (a : PortAddr) :
    D.serveEvent (.read (0x2000 * c + 4 * a.toNat)) = D.serveAt c (.read a) := by
  rw [Device.serveEvent, Device.read, channelOf_word, portAddrOf_word]

/-- ... and for writes (rules R66, R262). -/
theorem Device.serveEvent_write_word (D : Device) (c : Nat) (a : PortAddr) (v : Word) :
    D.serveEvent (.write (0x2000 * c + 4 * a.toNat) v) = D.serveAt c (.write a v) := by
  rw [Device.serveEvent, Device.write, channelOf_word, portAddrOf_word]

/-- The channel served holds what serving it alone left. -/
theorem Device.getElem?_set_served {D : Device} {c : Nat} {s : State} (hc : D.channels[c]? = some s)
    (t : State) : (D.channels.set c t)[c]? = some t :=
  List.getElem?_set_self (List.getElem?_eq_some_iff.mp hc).1

end Machine

open Machine

/-- Settles O54: a device replaces the one channel that the address names by what serving that channel
alone leaves. -/
theorem channelsIsolated : Obligations.ChannelsIsolated := by
  refine ⟨fun D D' E c e h => ?_, fun D c a s hc => ⟨?_, fun v => ⟨?_, fun ha => ?_⟩⟩,
    fun D address hpast => ?_⟩
  · obtain ⟨s, t, hc, hserve, rfl⟩ := Device.serveAt_eq_next h
    refine ⟨fun c' hne => List.getElem?_set_ne hne.symm, fun hE => ?_⟩
    have hcE : E.channels[c]? = some s := hE.trans hc
    exact ⟨_, Device.serveAt_of_serve hcE hserve,
      (Device.getElem?_set_served hcE t).trans (Device.getElem?_set_served hc t).symm⟩
  · exact (D.serveEvent_read_word c a).trans (Device.serveAt_of_serve hc rfl)
  · rintro rfl
    obtain ⟨t, ht⟩ := runCommand_total v s
    exact ⟨t, ht, (D.serveEvent_write_word c cmdAddr v).trans
      (Device.serveAt_of_serve hc ((serve_write_cmdAddr v s).trans ht))⟩
  · exact (D.serveEvent_write_word c a v).trans
      (Device.serveAt_of_serve hc (serve_write_of_ne ha v s))
  · have hnone := Device.getElem?_channelOf_eq_none hpast
    exact ⟨Device.serveAt_none hnone (.read _), fun v => Device.serveAt_none hnone (.write _ v)⟩

end Sys2Proof
end

section
/-! PROOFS. The encoding: a word is the word of a command exactly when it matches the command's row of the
opcode map and its fields hold the operands (rules R91, R93, R95). -/

namespace Sys2Proof

/-! ### Rows of the opcode map -/

/-- The row of rule R95 as the decoder sees it: the opcode byte, and the bits that step 3 of rule R91 wants
zero. -/
def Opcode.row (o : Opcode) : OpcodeRow where
  opcode := o
  pattern := o.code ++ 0#24
  mask := 0xFF000000#32 ||| o.mustBeZero

/-- The word lies in the row of `o`. -/
def Opcode.Matches (o : Opcode) (w : Word) : Prop := w &&& o.row.mask = o.row.pattern

/-- The columns that rule R95 prints are those of the field-by-field decoder. -/
theorem opcodeMap_eq_map_row : opcodeMap =
    [Opcode.setf, .shinit, .push, .conv, .stup, .stdn, .ups, .dns, .shp, .proc].map Opcode.row := by
  decide

theorem mem_opcodeMap_iff (row : OpcodeRow) : row ∈ opcodeMap ↔ ∃ o : Opcode, row = o.row := by
  rw [opcodeMap_eq_map_row, List.mem_map]
  refine ⟨fun ⟨o, _, ho⟩ => ⟨o, ho.symm⟩, fun ⟨o, ho⟩ => ⟨o, ?_, ho.symm⟩⟩
  cases o <;> decide

/-- The opcode field, left in its place. -/
theorem and_opcode_bits (w : Word) : w &&& 0xFF000000#32 = opField w ++ 0#24 := by
  have hw : w = opField w ++ w.extractLsb' 0 24 :=
    (BitVec.extractLsb'_append_extractLsb' (w := 8) (len := 24) (x := w)).symm
  calc w &&& 0xFF000000#32
      = (opField w ++ w.extractLsb' 0 24) &&& (BitVec.allOnes 8 ++ 0#24) := by rw [← hw]; rfl
    _ = (opField w &&& BitVec.allOnes 8) ++ (w.extractLsb' 0 24 &&& 0#24) := BitVec.and_append
    _ = opField w ++ 0#24 := by rw [BitVec.and_allOnes, BitVec.and_zero]

/-- A word lies in a row when steps 2 and 3 of rule R91 let it pass. -/
theorem Opcode.matches_iff (o : Opcode) (w : Word) :
    o.Matches w ↔ opField w = o.code ∧ w &&& o.mustBeZero = 0#32 := by
  have hmask : o.row.mask &&& 0xFF000000#32 = 0xFF000000#32 := by cases o <;> decide
  have hzero : o.row.mask &&& o.mustBeZero = o.mustBeZero := by cases o <;> decide
  have hpattern : o.row.pattern &&& 0xFF000000#32 = o.code ++ 0#24 := by cases o <;> decide
  have hclear : o.row.pattern &&& o.mustBeZero = 0#32 := by cases o <;> decide
  constructor
  · intro h
    constructor
    · have hhigh := congrArg (· &&& 0xFF000000#32) h
      simp only [BitVec.and_assoc, hmask, hpattern, and_opcode_bits] at hhigh
      exact (BitVec.append_left_inj _).mp hhigh
    · have hlow := congrArg (· &&& o.mustBeZero) h
      simpa only [BitVec.and_assoc, hzero, hclear] using hlow
  · rintro ⟨hop, hlow⟩
    calc w &&& (0xFF000000#32 ||| o.mustBeZero)
        = (w &&& 0xFF000000#32) ||| (w &&& o.mustBeZero) := BitVec.and_or_distrib_left
      _ = o.code ++ 0#24 := by rw [and_opcode_bits, hop, hlow, BitVec.or_zero]

theorem opcodeOf_eq_some_iff (op : Byte) (o : Opcode) : opcodeOf op = some o ↔ op = o.code := by
  constructor
  · intro h
    unfold opcodeOf at h
    repeat'
      split at h
      · cases h; assumption
    cases h
  · rintro rfl
    cases o <;> rfl

theorem Opcode.code_injective {o o' : Opcode} (h : o.code = o'.code) : o = o' :=
  Option.some.inj <| calc
    some o = opcodeOf o.code := ((opcodeOf_eq_some_iff _ o).mpr rfl).symm
    _ = some o' := (opcodeOf_eq_some_iff _ o').mpr h

/-- A word lies in one row at most. -/
theorem Opcode.Matches.unique {o o' : Opcode} {w : Word} (h : o.Matches w) (h' : o'.Matches w) :
    o = o' := by
  obtain ⟨hop, _⟩ := (matches_iff o w).mp h
  obtain ⟨hop', _⟩ := (matches_iff o' w).mp h'
  exact code_injective (hop.symm.trans hop')

/-- Every command's word lies in its row: the ten statements of `Laws.EncodesOpcode`. -/
theorem encode_matches (i : Instr) : i.opcode.Matches (encode i) := by
  have hlaw : Laws.EncodesOpcode.Statement i := by
    cases i with
    | setf imm8 => exact Laws.EncodesOpcode.setf imm8
    | shinit v => exact Laws.EncodesOpcode.shinit v
    | push d st b va => exact Laws.EncodesOpcode.push d st b va
    | conv d st b tb vd => exact Laws.EncodesOpcode.conv d st b tb vd
    | stup st vd va => exact Laws.EncodesOpcode.stup st vd va
    | stdn st vd va => exact Laws.EncodesOpcode.stdn st vd va
    | ups => exact Laws.EncodesOpcode.ups
    | dns => exact Laws.EncodesOpcode.dns
    | shp vd va => exact Laws.EncodesOpcode.shp vd va
    | proc => exact Laws.EncodesOpcode.proc
  obtain ⟨row, hmem, hop, hmatch⟩ := hlaw
  obtain ⟨o, rfl⟩ := (mem_opcodeMap_iff row).mp hmem
  obtain rfl : o = i.opcode := hop
  exact hmatch

/-! ### Fields -/

theorem extractLsb'_one (w : Word) (n : Nat) : w.extractLsb' n 1 = BitVec.ofBool (w.getLsbD n) := by
  ext k hk
  obtain rfl : k = 0 := by omega
  simp

theorem dirField_eq_iff (w : Word) (d : Dir) : dirField w = d ↔ w.extractLsb' 23 1 = d.bit := by
  rw [extractLsb'_one, dirField]
  cases w.getLsbD 23 <;> cases d <;> decide

theorem branchField_eq_iff (w : Word) (b : Branch) :
    branchField w = b ↔ w.extractLsb' 20 1 = b.bit := by
  rw [extractLsb'_one, branchField]
  cases w.getLsbD 20 <;> cases b <;> decide

theorem tapBranchField_eq_iff (w : Word) (b : Branch) :
    tapBranchField w = b ↔ w.extractLsb' 19 1 = b.bit := by
  rw [extractLsb'_one, tapBranchField]
  cases w.getLsbD 19 <;> cases b <;> decide

theorem variantOf_eq_iff (x : BitVec 2) (v : Variant) : variantOf x = v ↔ x = v.code := by
  revert x
  cases v <;> decide

/-- The fields of the word hold the operands of the command (rule R93). -/
def Instr.FieldsOf (w : Word) : Instr → Prop
  | .setf imm8 => immField w = imm8
  | .shinit v => variantOf (w.extractLsb' 0 2) = v
  | .push d st b va => dirField w = d ∧ stageField w = st ∧ branchField w = b ∧ vaField w = va
  | .conv d st b tb vd =>
    dirField w = d ∧ stageField w = st ∧ branchField w = b ∧ tapBranchField w = tb ∧ vdField w = vd
  | .stup st vd va | .stdn st vd va => stageField w = st ∧ vdField w = vd ∧ vaField w = va
  | .shp vd va => vdField w = vd ∧ vaField w = va
  | .ups | .dns | .proc => True

/-- The word of a command holds the command's operands in its fields: each is read by taking off the pieces
of the word that stand below it. -/
theorem fieldsOf_encode (i : Instr) : i.FieldsOf (encode i) := by
  cases i with
  | ups | dns | proc => trivial
  | shinit v => exact (variantOf_eq_iff _ v).mpr (by cases v <;> decide)
  | setf | push | conv | stup | stdn | shp =>
    simp only [Instr.FieldsOf, dirField_eq_iff, branchField_eq_iff, tapBranchField_eq_iff, stageField,
      vdField, vaField, immField]
    and_intros
    all_goals
      rw [encode]
      repeat rw [BitVec.extractLsb'_append_eq_of_le (by decide)]
      exact BitVec.extractLsb'_append_eq_right

/-- The bits of a field. -/
def fieldMask (start len : Nat) : Word := (BitVec.allOnes len).setWidth 32 <<< start

/-- The two words are equal in the bits of `m`. -/
def AgreeOn (m w w' : Word) : Prop := w &&& m = w' &&& m

theorem AgreeOn.or {m m' w w' : Word} (h : AgreeOn m w w') (h' : AgreeOn m' w w') :
    AgreeOn (m ||| m') w w' := by
  unfold AgreeOn at *
  rw [BitVec.and_or_distrib_left, h, h', BitVec.and_or_distrib_left]

theorem AgreeOn.eq {m w w' : Word} (h : AgreeOn m w w') (hall : m = BitVec.allOnes 32) : w = w' := by
  rw [AgreeOn, hall, BitVec.and_allOnes, BitVec.and_allOnes] at h
  exact h

/-- The bits of a field, in their place. -/
theorem and_fieldMask (w : Word) (start len : Nat) :
    w &&& fieldMask start len = (w.extractLsb' start len).setWidth 32 <<< start := by
  ext k hk
  by_cases hstart : k < start
  · simp [fieldMask, hstart]
  · have hplace : start + (k - start) = k := by omega
    simp [fieldMask, hstart, hplace, BitVec.getLsbD_eq_getElem hk, Bool.and_comm]

/-- Words that hold the same value in a field are equal in its bits. -/
theorem AgreeOn.of_field {w w' : Word} {start len : Nat} {x : BitVec len}
    (h : w.extractLsb' start len = x) (h' : w'.extractLsb' start len = x) :
    AgreeOn (fieldMask start len) w w' := by
  rw [AgreeOn, and_fieldMask, and_fieldMask, h, h']

/-- The bits that hold the operands of a command: the fields that its format names, of `SHINIT` the two that
name a variant (rules R93, R94). -/
def Opcode.operandBits : Opcode → Word
  | .setf => fieldMask 0 8
  | .shinit => fieldMask 0 2
  | .push => fieldMask 23 1 ||| fieldMask 21 2 ||| fieldMask 20 1 ||| fieldMask 0 4
  | .conv => fieldMask 23 1 ||| fieldMask 21 2 ||| fieldMask 20 1 ||| fieldMask 19 1 ||| fieldMask 8 4
  | .stup | .stdn => fieldMask 21 2 ||| fieldMask 8 4 ||| fieldMask 0 4
  | .shp => fieldMask 8 4 ||| fieldMask 0 4
  | .ups | .dns | .proc => 0#32

/-- No bit of a word is ignored: it is fixed by the row or holds an operand. -/
theorem Opcode.rowMask_or_operandBits (o : Opcode) :
    o.row.mask ||| o.operandBits = BitVec.allOnes 32 := by
  cases o <;> decide

/-- Words that hold the same operands are equal in the bits that hold them. -/
theorem Instr.FieldsOf.agreeOn {i : Instr} {w w' : Word} (h : i.FieldsOf w) (h' : i.FieldsOf w') :
    AgreeOn i.opcode.operandBits w w' := by
  cases i with
  | ups | dns | proc => exact BitVec.and_zero.trans BitVec.and_zero.symm
  | setf imm8 => exact .of_field h h'
  | shinit v => exact .of_field ((variantOf_eq_iff _ v).mp h) ((variantOf_eq_iff _ v).mp h')
  | push d st b va =>
    simp only [Instr.FieldsOf, dirField_eq_iff, branchField_eq_iff] at h h'
    obtain ⟨hd, hst, hb, hva⟩ := h
    obtain ⟨hd', hst', hb', hva'⟩ := h'
    exact (((AgreeOn.of_field hd hd').or (.of_field hst hst')).or (.of_field hb hb')).or
      (.of_field hva hva')
  | conv d st b tb vd =>
    simp only [Instr.FieldsOf, dirField_eq_iff, branchField_eq_iff, tapBranchField_eq_iff] at h h'
    obtain ⟨hd, hst, hb, htb, hvd⟩ := h
    obtain ⟨hd', hst', hb', htb', hvd'⟩ := h'
    exact ((((AgreeOn.of_field hd hd').or (.of_field hst hst')).or (.of_field hb hb')).or
      (.of_field htb htb')).or (.of_field hvd hvd')
  | stup st vd va | stdn st vd va =>
    obtain ⟨hst, hvd, hva⟩ := h
    obtain ⟨hst', hvd', hva'⟩ := h'
    exact ((AgreeOn.of_field hst hst').or (.of_field hvd hvd')).or (.of_field hva hva')
  | shp vd va =>
    obtain ⟨hvd, hva⟩ := h
    obtain ⟨hvd', hva'⟩ := h'
    exact (AgreeOn.of_field hvd hvd').or (.of_field hva hva')

/-- Words in the row of a command with its operands are one word. -/
theorem eq_of_matches_of_fieldsOf {i : Instr} {w w' : Word} (hm : i.opcode.Matches w)
    (hf : i.FieldsOf w) (hm' : i.opcode.Matches w') (hf' : i.FieldsOf w') : w = w' := by
  have hrow : AgreeOn i.opcode.row.mask w w' := hm.trans hm'.symm
  exact (hrow.or (hf.agreeOn hf')).eq i.opcode.rowMask_or_operandBits

/-! ### Decoder and encoder -/

/-- A command's row and its fields say which word it is. -/
theorem encode_eq_iff (i : Instr) (w : Word) :
    encode i = w ↔ i.opcode.Matches w ∧ i.FieldsOf w := by
  constructor
  · rintro rfl
    exact ⟨encode_matches i, fieldsOf_encode i⟩
  · rintro ⟨hm, hf⟩
    exact eq_of_matches_of_fieldsOf (encode_matches i) (fieldsOf_encode i) hm hf

/-- The operands of a word of opcode `o`, when they are not refused, are its fields (rule R93). -/
theorem fieldsOf_of_operands {w : Word} {o : Opcode} {i : Instr} (h : operands w o = .ok i) :
    o = i.opcode ∧ i.FieldsOf w := by
  cases o with
  | stup | stdn =>
    simp only [operands] at h
    split at h
    · cases h
    · cases h; exact ⟨rfl, rfl, rfl, rfl⟩
  | setf | shinit => cases h; exact ⟨rfl, rfl⟩
  | push => cases h; exact ⟨rfl, rfl, rfl, rfl, rfl⟩
  | conv => cases h; exact ⟨rfl, rfl, rfl, rfl, rfl, rfl⟩
  | shp => cases h; exact ⟨rfl, rfl, rfl⟩
  | ups | dns | proc => cases h; exact ⟨rfl, trivial⟩

/-- The fields of a word give a well-formed command its operands (rules R91, R93). -/
theorem operands_of_fieldsOf {w : Word} {i : Instr} (hwf : i.wellFormed = true) (hf : i.FieldsOf w) :
    operands w i.opcode = .ok i := by
  cases i with
  | stup st vd va => obtain ⟨rfl, rfl, rfl⟩ := hf; exact if_neg (bne_iff_ne.mp hwf)
  | stdn st vd va => obtain ⟨rfl, rfl, rfl⟩ := hf; exact if_neg (bne_iff_ne.mp hwf)
  | setf | shinit => cases hf; rfl
  | push d st b va => obtain ⟨rfl, rfl, rfl, rfl⟩ := hf; rfl
  | conv d st b tb vd => obtain ⟨rfl, rfl, rfl, rfl, rfl⟩ := hf; rfl
  | shp vd va => obtain ⟨rfl, rfl⟩ := hf; rfl
  | ups | dns | proc => rfl

/-- Steps 2 to 4 of rule R91 by the opcode map: the row, then the operands. -/
theorem decode_eq_ok_iff_matches (w : Word) (i : Instr) :
    decode w = .ok i ↔ ∃ o : Opcode, o.Matches w ∧ operands w o = .ok i := by
  simp only [decode_eq_ok_iff, opcodeOf_eq_some_iff, Opcode.matches_iff, and_assoc]

/-- The decoder is the inverse of the encoder on the well-formed commands. -/
theorem decode_eq_ok_iff_encode_eq (w : Word) (i : Instr) :
    decode w = .ok i ↔ encode i = w ∧ i.wellFormed = true := by
  rw [decode_eq_ok_iff_matches, encode_eq_iff]
  constructor
  · rintro ⟨o, hm, hoperands⟩
    obtain ⟨rfl, hf⟩ := fieldsOf_of_operands hoperands
    exact ⟨⟨hm, hf⟩, wellFormed_of_operands hoperands⟩
  · rintro ⟨⟨hm, hf⟩, hwf⟩
    exact ⟨i.opcode, hm, operands_of_fieldsOf hwf hf⟩

/-- Settles O1: the word of a command matches the command's row and holds its operands. -/
theorem decodeEncodeAgree : Obligations.DecodeEncodeAgree :=
  fun i hwf => (decode_eq_ok_iff_encode_eq _ i).mpr ⟨rfl, hwf⟩

/-- Settles O2: the row and the fields that the decoder reads hold every bit of the word. -/
theorem encodeDecodeAgree : Obligations.EncodeDecodeAgree :=
  fun w i => (decode_eq_ok_iff_encode_eq w i).mp

/-- Settles O4: each word printed is the word of its command. -/
theorem workedEncodings : Obligations.WorkedEncodings := by
  have spelled {w : Word} {i : Instr} (hword : encode i = w) (hwf : i.wellFormed = true) :
      decode w = .ok i := (decode_eq_ok_iff_encode_eq w i).mpr ⟨hword, hwf⟩
  exact ⟨spelled rfl rfl, spelled rfl rfl, spelled rfl rfl, spelled rfl rfl, spelled rfl rfl,
    spelled rfl rfl, spelled rfl rfl, spelled rfl rfl, spelled rfl rfl, spelled rfl rfl,
    spelled rfl rfl⟩

end Sys2Proof
end

section
/-! PROOFS. Which words are commands, and what a command word does to the error registers (rules R96, R243,
R244). -/

open Sys2Proof.Stated

namespace Sys2Proof

/-- Step 4 of rule R91: the register pair of a word of this opcode would run past V15. -/
def Opcode.PairPastV15 (w : Word) : Opcode → Prop
  | .stup => vdField w = 15#4
  | .stdn => vaField w = 15#4
  | .setf | .shinit | .push | .conv | .ups | .dns | .shp | .proc => False

/-- The operands are refused for their register pair and for nothing else. -/
theorem exists_operands_iff (w : Word) (o : Opcode) :
    (∃ i, operands w o = .ok i) ↔ ¬ o.PairPastV15 w := by
  cases o with
  | stup | stdn =>
    simp only [operands, Opcode.PairPastV15]
    split <;> simp [*]
  | setf | shinit | push | conv | ups | dns | shp | proc => exact ⟨fun _ => id, fun _ => ⟨_, rfl⟩⟩

/-- Rule R96 by rows: every row that the word matches refuses its register pair. -/
theorem illegalWord_iff (w : Word) :
    IllegalWord w ↔ ∀ o : Opcode, o.Matches w → o.PairPastV15 w := by
  constructor
  · rintro (hnone | ⟨hstup, hvd⟩ | ⟨hstdn, hva⟩) o hm
    · exact absurd hm (hnone o.row ((mem_opcodeMap_iff _).mpr ⟨o, rfl⟩))
    · obtain rfl : o = .stup := hm.unique hstup
      exact hvd
    · obtain rfl : o = .stdn := hm.unique hstdn
      exact hva
  · intro h
    by_cases hmatch : ∃ o : Opcode, o.Matches w
    · obtain ⟨o, hm⟩ := hmatch
      have hpair := h o hm
      cases o with
      | stup => exact .inr (.inl ⟨hm, hpair⟩)
      | stdn => exact .inr (.inr ⟨hm, hpair⟩)
      | setf | shinit | push | conv | ups | dns | shp | proc => exact hpair.elim
    · refine .inl fun row hrow hm => hmatch ?_
      obtain ⟨o, rfl⟩ := (mem_opcodeMap_iff row).mp hrow
      exact ⟨o, hm⟩

/-- Settles O3: a word decodes when it matches a row that does not refuse its register pair. -/
theorem decoderMatchesOpcodeMap : Obligations.DecoderMatchesOpcodeMap := by
  intro w
  rw [illegalWord_iff]
  push Not
  simp only [decode_eq_ok_iff_matches, ← exists_operands_iff]
  exact ⟨fun ⟨i, o, hm, hi⟩ => ⟨o, hm, i, hi⟩, fun ⟨o, hm, i, hi⟩ => ⟨i, o, hm, hi⟩⟩

namespace Machine

/-- Steps 2 to 4 of rule R91, failing: the word is recorded and rejected. -/
theorem runCommand_of_illegalWord {w : Word} (h : IllegalWord w) (s : State) :
    runCommand w s = .next (({ s with cmd := w } : State).reject .illegalCommand) := by
  unfold runCommand
  split
  · exact absurd h ((decoderMatchesOpcodeMap w).mp ⟨_, ‹_›⟩)
  · rfl

/-- A command rejects, or leaves the error registers alone (rule R243). -/
theorem exec_reject_or_errors_kept {i : Instr} {s t : State} (h : exec i s = .next t) :
    (∃ c, t = s.reject c) ∨ (t.errflags = s.errflags ∧ t.lasterr = s.lasterr) := by
  cases exec_effect h with
  | rejected c _ ht => exact .inl ⟨c, ht⟩
  | processed hwork =>
    obtain ⟨_, _, _, _, _, _, rfl, _⟩ := hwork
    exact .inr ⟨rfl, rfl⟩
  | oversamplerBuilt _ _ _ _ _ ht => subst ht; exact .inr ⟨rfl, rfl⟩
  | waveshaperBuilt _ _ _ ht => subst ht; exact .inr ⟨rfl, rfl⟩

/-- Every event of the port is served to its end (rules R62, R63, R91, R270). -/
theorem serve_total (e : PortEvent) (s : State) : ∃ t, serve e s = .next t := by
  cases e with
  | read | reset => exact ⟨_, rfl⟩
  | write a v =>
    by_cases ha : a = cmdAddr
    · subst ha
      simpa only [serve_write_cmdAddr] using runCommand_total v s
    · exact ⟨_, serve_write_of_ne ha v s⟩

theorem step_total (s : State) : ∃ t, step s = .next t := by
  cases hpending : s.pending with
  | nil => exact ⟨s, by rw [step, serveNext, hpending]⟩
  | cons e rest => simpa only [step_of_pending hpending] using serve_total e _

end Machine

open Machine

/-- Settles O6: an illegal word has no row that passes it, so it is rejected; a legal one decodes. -/
theorem illegalWordsRejected : Obligations.IllegalWordsRejected := by
  refine ⟨.inl (by decide), .inl (by decide), fun w hlegal => ?_, fun s w rest hpending hillegal => ?_⟩
  · obtain ⟨i, hi⟩ := (decoderMatchesOpcodeMap w).mpr hlegal
    exact ⟨i, hi, (encodeDecodeAgree w i hi).1⟩
  · calc step s
        = runCommand w { s with pending := rest } := step_of_pending_command hpending
      _ = .next (State.reject { s with pending := rest, cmd := w } .illegalCommand) :=
          runCommand_of_illegalWord hillegal _

/-- Settles O25: a word that is no command is rejected, and so is a command that touches the error
registers; a rejection writes nothing else. -/
theorem rejectionIsAtomic : Obligations.RejectionIsAtomic := by
  intro w s t hrun
  obtain ⟨i, _, hexec⟩ | ⟨_, _, rfl⟩ := runCommand_cases hrun
  · obtain ⟨c, rfl⟩ | hkept := exec_reject_or_errors_kept hexec
    · exact .inr rfl
    · exact .inl hkept
  · exact .inr rfl

/-- Settles O12: `serve` completes whatever the event, `exec` whatever the command. -/
theorem everyAccessCompletes : Obligations.EveryAccessCompletes :=
  ⟨step_total, exec_total⟩

end Sys2Proof
end

section
/-! PROOFS. The capacity of a stage and the two latency registers, as numbers (rules R131, R143, R184,
R185). -/

namespace Sys2Proof

namespace Machine

theorem nextPow2_eq {n : Nat} (h : 1 < n) : nextPow2 n = 2 ^ (Nat.log2 (n - 1) + 1) :=
  if_neg (by omega)

theorem le_nextPow2 (n : Nat) : n ≤ nextPow2 n := by
  by_cases h : n ≤ 1
  · rwa [nextPow2, if_pos h]
  · have hlog := (Nat.log2_lt (by omega)).mp (Nat.lt_succ_self (n - 1).log2)
    rw [nextPow2_eq (by omega)]
    omega

theorem nextPow2_le {n m : Nat} (h : 1 < n) (hm : n ≤ 2 ^ m) : nextPow2 n ≤ 2 ^ m := by
  have hlog : (n - 1).log2 < m := (Nat.log2_lt (by omega)).mpr (by omega)
  rw [nextPow2_eq h]
  exact Nat.pow_le_pow_right (by decide) hlog

/-- LATENCY is the quotient with the half rounded up: what rule R185's floor says of an even factor. -/
theorem latencyOf_nearest {F : Nat} (heven : 2 ∣ F) (hpos : 0 < F) (los : Nat) :
    2 * F * latencyOf F los ≤ 2 * los + F ∧ 2 * los + F < 2 * F * (latencyOf F los + 1) := by
  obtain ⟨half, rfl⟩ := heven
  have hdiv : 2 * half / 2 = half := by omega
  have hlow := Nat.mul_div_le (los + half) (2 * half)
  have hhigh := Nat.lt_mul_div_succ (los + half) hpos
  rw [latencyOf, hdiv]
  constructor <;> nlinarith

/-- LATENCY of a valid chain of at most four stages: the bound on LAT_OS, divided by the factor (rule
R131). -/
theorem latencyOf_chain_le {gs : List Stage} (hlen : gs.length ≤ 4) (h : gs.all Stage.valid = true) :
    latencyOf (2 ^ gs.length) (latOsOf gs) ≤ 238 := by
  have hbound := latOsOf_bound h
  unfold latencyOf
  generalize latOsOf gs = los at hbound ⊢
  generalize gs.length = n at hlen hbound ⊢
  interval_cases n <;> omega

end Machine

open Machine

/-- Settles O38: K is at least 1, so 2K is more than 1, and what holds 2K samples holds more than K. -/
theorem capacityIsLeastPowerOfTwo : Obligations.CapacityIsLeastPowerOfTwo := by
  intro K hK
  have hle := le_nextPow2 (2 * K)
  exact ⟨⟨_, nextPow2_eq (by omega)⟩, hle, by omega, fun m hm => nextPow2_le (by omega) hm⟩

/-- Settles O19: the registers are `latOsOf` and `latencyOf` of a valid chain, and the factor of a built
chain is even. -/
theorem latencyIsNearestAndBounded : Obligations.LatencyIsNearestAndBounded := by
  intro s hs
  rw [hs.latOs_built, hs.latency_built]
  refine ⟨latOsOf_le hs.few_stages hs.valid_stages,
    latencyOf_chain_le hs.few_stages hs.valid_stages, fun hosr => ?_⟩
  have hbuilt : s.stages.isEmpty = false := by simpa [hosr] using hs.osr_built
  have hlen : s.stages.length ≠ 0 := by simpa using hbuilt
  rw [hs.factor_built, hbuilt, if_neg Bool.false_ne_true]
  exact latencyOf_nearest (dvd_pow_self 2 hlen) (by positivity) _

end Sys2Proof
end

section
/-! PROOFS. What one stage command and one waveshaper command leave, inside the finite domain and outside
it (rules R128, R148, R166, R167, R213, R214). -/

open Sys2Proof.Stated

namespace Sys2Proof

namespace Machine

/-- `stage_up` leaves the domain exactly when rule R163 has no call (rule R128). -/
theorem Stage.up?_eq_none_iff (g : Stage) (a : Word) :
    g.up? a = none ↔ ¬ ∃ g' o0 o1, StageUpCall g a g' o0 o1 := by
  simp [Option.eq_none_iff_forall_ne_some, Stage.up?_iff]

/-- `stage_down` leaves the domain exactly when rule R164 has no call (rule R128). -/
theorem Stage.down?_eq_none_iff (g : Stage) (a0 a1 : Word) :
    g.down? a0 a1 = none ↔ ¬ ∃ g' y, StageDownCall g a0 a1 g' y := by
  simp [Option.eq_none_iff_forall_ne_some, Stage.down?_iff]

/-- `adaa_step` leaves the domain exactly when rule R213 has no step (rule R128). -/
theorem adaaStep?_eq_none_iff (v : Variant) (e : Word) (k : Tracker) (x : Word) :
    adaaStep? v e k x = none ↔ ¬ ∃ k' y, AdaaCall v e k x k' y := by
  simp [Option.eq_none_iff_forall_ne_some, adaaStep?_iff]

/-! ### The commands, one equation each for the inside and the outside of the domain -/

section
variable {s : State} {st : StageIx} {g : Stage}

theorem exec_conv_inside {d : Dir} {b tb : Branch} {vd : VReg} {y : Word}
    (hg : s.stages[st.toNat]? = some g) (hy : (g.ring d b).convolve? g.c (g.taps tb) = some y) :
    exec (.conv d st b tb vd) s = .next (s.writeV vd y) := by
  simp only [exec, execConv, State.stage?, hg, hy]

theorem exec_conv_outside {d : Dir} {b tb : Branch} {vd : VReg}
    (hg : s.stages[st.toNat]? = some g) (hy : (g.ring d b).convolve? g.c (g.taps tb) = none) :
    exec (.conv d st b tb vd) s = .next ((s.writeV vd (s.freeAt 0)).useFree 1) := by
  simp only [exec, execConv, State.stage?, hg, hy]

theorem exec_stup_inside {vd va : VReg} {g' : Stage} {o0 o1 : Word}
    (hg : s.stages[st.toNat]? = some g) (hcall : StageUpCall g (s.readV va) g' o0 o1) :
    exec (.stup st vd va) s = .next (((s.setStage st g').writeV vd o0).writeV (pairNext vd) o1) := by
  simp only [exec, execStup, State.stage?, hg, (Stage.up?_iff ..).mpr hcall]

theorem exec_stup_outside {vd va : VReg} (hg : s.stages[st.toNat]? = some g)
    (hcall : ¬ ∃ g' o0 o1, StageUpCall g (s.readV va) g' o0 o1) :
    exec (.stup st vd va) s = .next ((((s.setStage st
        (g.freeUp [s.freeAt 0] [s.freeAt 1] (s.freeAt 3) (s.freeAt 4))).writeV vd
      (g.pushUp [s.freeAt 0] [s.freeAt 1]).delayed).writeV (pairNext vd) (s.freeAt 2)).useFree 5) := by
  simp only [exec, execStup, State.stage?, hg, (Stage.up?_eq_none_iff ..).mpr hcall]

theorem exec_stdn_inside {vd va : VReg} {g' : Stage} {y : Word}
    (hg : s.stages[st.toNat]? = some g)
    (hcall : StageDownCall g (s.readV va) (s.readV (pairNext va)) g' y) :
    exec (.stdn st vd va) s = .next ((s.setStage st g').writeV vd y) := by
  simp only [exec, execStdn, State.stage?, hg, (Stage.down?_iff ..).mpr hcall]

theorem exec_stdn_outside {vd va : VReg} (hg : s.stages[st.toNat]? = some g)
    (hcall : ¬ ∃ g' y, StageDownCall g (s.readV va) (s.readV (pairNext va)) g' y) :
    exec (.stdn st vd va) s = .next (((s.setStage st
        (g.freeDown [s.freeAt 0] [s.freeAt 1] (s.freeAt 3) (s.freeAt 4))).writeV vd
      (s.freeAt 2)).useFree 5) := by
  simp only [exec, execStdn, State.stage?, hg, (Stage.down?_eq_none_iff ..).mpr hcall]

theorem exec_shp_inside {vd va : VReg} {k : Tracker} {y : Word} (hwsr : s.wsr = true)
    (hcall : AdaaCall s.shape s.epsa s.tracker (s.readV va) k y) :
    exec (.shp vd va) s =
      .next { s.writeV vd y with xprev := k.xprev, adprev := k.adprev } := by
  simp only [exec, execShp, hwsr, if_true, (adaaStep?_iff ..).mpr hcall]

theorem exec_shp_outside {vd va : VReg} (hwsr : s.wsr = true)
    (hcall : ¬ ∃ k y, AdaaCall s.shape s.epsa s.tracker (s.readV va) k y) :
    exec (.shp vd va) s = .next { s.writeV vd (s.freeAt 0) with
      xprev := s.freeAt 1, adprev := s.freeAt 2, free := s.free + 3 } := by
  simp only [exec, execShp, hwsr, if_true, (adaaStep?_eq_none_iff ..).mpr hcall]

end

end Machine

open Machine

/-- Settles O32: `CONV` is one register write, and outside the domain it uses one free word. -/
theorem convEffect : Obligations.ConvEffect :=
  fun _ _ _ _ _ _ _ hg => ⟨fun _ hy => exec_conv_inside hg hy, fun hy => exec_conv_outside hg hy⟩

/-- Settles O34: the values given inside the domain are a call of rule R163. -/
theorem stupEffect : Obligations.StupEffect := by
  intro s st vd va g _ hg
  refine ⟨fun q ha ho0 hq ho1 => ?_, fun hnone => exec_stup_outside hg hnone⟩
  exact exec_stup_inside hg ⟨ha, rfl, rfl, ho0, q, hq, rfl, ho1⟩

/-- Settles O36: the values given inside the domain are a call of rule R164. -/
theorem stdnEffect : Obligations.StdnEffect := by
  intro s st vd va g _ hg
  refine ⟨fun e o ha0 ha1 he ho hy => ?_, fun hnone => exec_stdn_outside hg hnone⟩
  exact exec_stdn_inside hg ⟨ha0, ha1, rfl, e, o, he, ho, rfl, hy⟩

/-- Settles O45: a size above a threshold that is not negative is no zero, and the values given are a step
of rule R213 on the quotient path. -/
theorem shpQuotientPath : Obligations.ShpQuotientPath := by
  intro s vd va ad hwsr hepsa hpos x dx hxprev hdx had hgt hadprev hdiff hquot
  have hne : units dx ≠ 0 := abs_pos.mp (hpos.trans_lt hgt)
  exact ⟨hne, exec_shp_inside (k := ⟨x, ad⟩) hwsr
    ⟨hepsa, hxprev, hdx, hquot, rfl, had, .inl ⟨hgt, hne, hadprev, hdiff, rfl⟩⟩⟩

/-- Settles O46: the values given are a step of rule R213 on the midpoint path. -/
theorem shpMidpointPath : Obligations.ShpMidpointPath := by
  intro s vd va ad y hwsr hepsa x dx hxprev hdx had hle hsum hy
  obtain ⟨_, hfinite, _⟩ := id hy
  exact exec_shp_inside (k := ⟨x, ad⟩) hwsr
    ⟨hepsa, hxprev, hdx, hfinite, rfl, had, .inr ⟨hle, hsum, hy⟩⟩

/-- Settles O47: with no step of rule R213 `SHP` takes three free words. -/
theorem shpOutsideDomain : Obligations.ShpOutsideDomain :=
  fun _ _ _ hwsr hnone => exec_shp_outside hwsr hnone

end Sys2Proof
end

section
/-! PROOFS. Rounding to nearest, ties to even: the bits 30:0 of a pattern as a number on one rising scale,
and `roundMagnitude` as the nearest point of that scale (rules R120, R121). -/

namespace Sys2Proof.Machine

/-! ### The scale: the exact value of the bits 30:0 -/

/-- The value of the bits 30:0, in units of 2^-149 (rule R120). The scale goes on past the greatest finite
pattern, as if the exponent had no bound. -/
def bitsValue (p : Nat) : Nat :=
  if p / 2 ^ 23 = 0 then p % 2 ^ 23 else (2 ^ 23 + p % 2 ^ 23) * 2 ^ (p / 2 ^ 23 - 1)

/-- The bits 30:0 of the infinity, the first pattern that is not finite (rule R120). -/
def infinityBits : Nat := 0x7F800000

/-- `m` last places of weight 2^e, for a significand of a binade or, at e = 0, for a subnormal; the carry
into the next binade is among them. -/
theorem bitsValue_place {e m : Nat} (hm : m ≤ 2 ^ 24) (he : e = 0 ∨ 2 ^ 23 ≤ m) :
    bitsValue (e * 2 ^ 23 + m) = m * 2 ^ e := by
  rcases lt_or_ge m (2 ^ 23) with hsub | hnormal
  · obtain rfl : e = 0 := by omega
    have hdiv : (0 * 2 ^ 23 + m) / 2 ^ 23 = 0 := by omega
    rw [bitsValue, if_pos hdiv]
    omega
  · rcases lt_or_ge m (2 ^ 24) with hlt | hge
    · have hdiv : (e * 2 ^ 23 + m) / 2 ^ 23 = e + 1 := by omega
      have hmod : 2 ^ 23 + (e * 2 ^ 23 + m) % 2 ^ 23 = m := by omega
      rw [bitsValue, if_neg (by omega), hmod, hdiv, Nat.add_sub_cancel]
    · obtain rfl : m = 2 ^ 24 := le_antisymm hm hge
      have hdiv : (e * 2 ^ 23 + 2 ^ 24) / 2 ^ 23 = e + 2 := by omega
      have hmod : (e * 2 ^ 23 + 2 ^ 24) % 2 ^ 23 = 0 := by omega
      rw [bitsValue, if_neg (by omega), hmod, hdiv, Nat.add_sub_assoc (by decide)]
      ring

/-- Every point of the scale is a number of last places. -/
theorem exists_place (p : Nat) : ∃ e m, p = e * 2 ^ 23 + m ∧ m < 2 ^ 24 ∧ (e = 0 ∨ 2 ^ 23 ≤ m) := by
  rcases Nat.lt_or_ge p (2 ^ 24) with hlow | hhigh
  · exact ⟨0, p, by omega, hlow, .inl rfl⟩
  · exact ⟨p / 2 ^ 23 - 1, 2 ^ 23 + p % 2 ^ 23, by omega, by omega, .inr (by omega)⟩

/-- The scale rises: the next point is one last place further. -/
theorem bitsValue_strictMono : StrictMono bitsValue := by
  refine strictMono_nat_of_lt_succ fun p => ?_
  obtain ⟨e, m, rfl, hm, he⟩ := exists_place p
  rw [add_assoc, bitsValue_place hm.le he, bitsValue_place (e := e) (m := m + 1) hm (by omega)]
  exact Nat.mul_lt_mul_of_pos_right m.lt_succ_self (by positivity)

@[simp] theorem bitsValue_zero : bitsValue 0 = 0 := rfl

theorem bitsValue_eq_zero_iff (p : Nat) : bitsValue p = 0 ↔ p = 0 :=
  ⟨fun h => bitsValue_strictMono.injective (h.trans bitsValue_zero.symm), fun h => by rw [h]; rfl⟩

/-- Twice a point of the scale is a point of the scale (rule R122). -/
theorem exists_bitsValue_double (p : Nat) : ∃ q, bitsValue q = 2 * bitsValue p := by
  rcases Nat.lt_or_ge p (2 ^ 23) with hsub | hnormal
  · have hp := bitsValue_place (e := 0) (m := p) (by omega) (.inl rfl)
    have hq := bitsValue_place (e := 0) (m := 2 * p) (by omega) (.inl rfl)
    exact ⟨0 * 2 ^ 23 + 2 * p, by rw [hq, ← zero_add p, ← zero_mul (2 ^ 23), hp]; ring⟩
  · obtain ⟨e, m, rfl, hm, he⟩ := exists_place p
    have hmant : 2 ^ 23 ≤ m := by omega
    exact ⟨(e + 1) * 2 ^ 23 + m, by
      rw [bitsValue_place hm.le he, bitsValue_place hm.le (.inr hmant)]; ring⟩

/-! ### The nearest point -/

/-- Point r of the scale is nearest to num/den, the even one of two equally near (rule R121). -/
def NearestEven (num den r : Nat) : Prop :=
  ∀ p, |(num : Int) - den * bitsValue r| ≤ |(num : Int) - den * bitsValue p| ∧
    (|(num : Int) - den * bitsValue r| = |(num : Int) - den * bitsValue p| → p = r ∨ r % 2 = 0)

/-- Between two neighbours the scale has no point: the nearest is the neighbour on the nearer side. -/
theorem nearestEven_of_between {num den low r : Nat} (hden : 0 < den) (hlow : den * bitsValue low ≤ num)
    (hhigh : num < den * bitsValue (low + 1))
    (hr : r = if den * bitsValue low + den * bitsValue (low + 1) < 2 * num ∨
        (2 * num = den * bitsValue low + den * bitsValue (low + 1) ∧ low % 2 = 1)
      then low + 1 else low) :
    NearestEven num den r := by
  intro p
  have hmono {a b : Nat} (h : a < b) : den * bitsValue a < den * bitsValue b :=
    Nat.mul_lt_mul_of_pos_left (bitsValue_strictMono h) hden
  have hoff : p = low ∨ p = low + 1 ∨ den * bitsValue p < den * bitsValue low ∨
      den * bitsValue (low + 1) < den * bitsValue p := by
    rcases lt_trichotomy p low with hp | hp | hp
    · exact .inr (.inr (.inl (hmono hp)))
    · exact .inl hp
    · rcases Nat.eq_or_lt_of_le hp with hp | hp
      · exact .inr (.inl hp.symm)
      · exact .inr (.inr (.inr (hmono hp)))
  simp only [abs_eq_max_neg]
  split at hr <;> subst hr <;> rcases hoff with rfl | rfl | hp | hp <;> omega

/-- The significand that `roundMagnitude` cuts off, of a quotient that is at least 2^23 last places when
the last place is not the least one. -/
theorem significand_bounds (q : Nat) :
    q / 2 ^ (q.log2 - 23) < 2 ^ 24 ∧ (q.log2 - 23 = 0 ∨ 2 ^ 23 ≤ q / 2 ^ (q.log2 - 23)) := by
  have hlt : q < 2 ^ (q.log2 + 1) := Nat.lt_log2_self
  rcases Nat.lt_or_ge q.log2 24 with hsmall | hbig
  · have hle : q < 2 ^ 24 := hlt.trans_le (Nat.pow_le_pow_right (by decide) hsmall)
    have he : q.log2 - 23 = 0 := by omega
    exact ⟨(Nat.div_le_self ..).trans_lt hle, .inl he⟩
  · have hne : q ≠ 0 := by rintro rfl; simp at hbig
    have hexp : q.log2 = (q.log2 - 23) + 23 := by omega
    generalize q.log2 - 23 = e at hexp
    have hge : 2 ^ (e + 23) ≤ q := hexp ▸ Nat.log2_self_le hne
    rw [hexp, add_assoc, pow_add] at hlt
    rw [pow_add] at hge
    exact ⟨Nat.div_lt_of_lt_mul hlt, .inr ((Nat.le_div_iff_mul_le (by positivity)).mpr (by linarith))⟩

/-- `roundMagnitude` is the nearest point of the scale, held at the infinity (rule R121). -/
theorem roundMagnitude_nearest (num : Nat) {den : Nat} (hden : 0 < den) :
    ∃ r, roundMagnitude num den = min r infinityBits ∧ NearestEven num den r := by
  obtain ⟨hm, he⟩ := significand_bounds (num / den)
  rw [Nat.div_div_eq_div_mul] at hm he
  unfold roundMagnitude
  dsimp only
  generalize (num / den).log2 - 23 = e at hm he ⊢
  have hplace : 0 < den * 2 ^ e := by positivity
  have hsplit := Nat.div_add_mod num (den * 2 ^ e)
  have hrest := Nat.mod_lt num hplace
  generalize num / (den * 2 ^ e) = m at hm he hsplit ⊢
  have hlow : den * bitsValue (e * 2 ^ 23 + m) = den * 2 ^ e * m := by
    rw [bitsValue_place hm.le he]; ring
  have hhigh : den * bitsValue (e * 2 ^ 23 + m + 1) = den * 2 ^ e * m + den * 2 ^ e := by
    rw [add_assoc, bitsValue_place (m := m + 1) hm (by omega)]; ring
  refine ⟨_, rfl, nearestEven_of_between (low := e * 2 ^ 23 + m) hden ?_ ?_ ?_⟩
  · omega
  · omega
  · rw [hlow, hhigh]
    split_ifs <;> omega

/-- A point of the scale is its own nearest. -/
theorem NearestEven.exact {num den r p : Nat} (h : NearestEven num den r) (hden : 0 < den)
    (hnum : num = den * bitsValue p) : r = p := by
  obtain ⟨hle, _⟩ := h p
  rw [hnum, Nat.cast_mul, sub_self, abs_zero, abs_nonpos_iff, sub_eq_zero] at hle
  exact bitsValue_strictMono.injective (Nat.eq_of_mul_eq_mul_left hden (by exact_mod_cast hle.symm))

/-- The nearest point lies below an even point exactly when the number lies below the midpoint to it: the
point before is odd and loses the tie. -/
theorem NearestEven.lt_iff {num den r top mid : Nat} (h : NearestEven num den r) (hden : 0 < den)
    (hpos : 0 < top) (heven : top % 2 = 0)
    (hmid : 2 * mid = den * bitsValue (top - 1) + den * bitsValue top) : r < top ↔ num < mid := by
  have hgap : den * bitsValue (top - 1) < den * bitsValue top :=
    Nat.mul_lt_mul_of_pos_left (bitsValue_strictMono (by omega)) hden
  have hmono {a b : Nat} (hab : a ≤ b) : den * bitsValue a ≤ den * bitsValue b :=
    Nat.mul_le_mul_left den (bitsValue_strictMono.monotone hab)
  constructor
  · intro hr
    have hle := hmono (Nat.le_sub_one_of_lt hr)
    obtain ⟨hnear, htie⟩ := h top
    by_contra hge
    simp only [abs_eq_max_neg] at hnear htie
    have hsame : den * bitsValue r = den * bitsValue (top - 1) := by omega
    obtain rfl : r = top - 1 :=
      bitsValue_strictMono.injective (Nat.eq_of_mul_eq_mul_left hden hsame)
    have hdone := htie (by omega)
    omega
  · intro hlt
    by_contra hge
    have hle := hmono (not_lt.mp hge)
    obtain ⟨hnear, _⟩ := h (top - 1)
    simp only [abs_eq_max_neg] at hnear
    omega

/-- Half a last place past the greatest finite value lies midway to the first point that is not finite
(rule R121). -/
theorem overflow_midpoint (den : Nat) : 2 * (den * ((2 ^ 25 - 1) * 2 ^ 252)) =
    den * bitsValue (infinityBits - 1) + den * bitsValue infinityBits := by
  have hgreatest := bitsValue_place (e := 253) (m := 2 ^ 24 - 1) (by norm_num) (.inr (by norm_num))
  have hinfinity := bitsValue_place (e := 253) (m := 2 ^ 24) le_rfl (.inr (by norm_num))
  have hlast : infinityBits - 1 = 253 * 2 ^ 23 + (2 ^ 24 - 1) := by norm_num [infinityBits]
  have hfirst : infinityBits = 253 * 2 ^ 23 + 2 ^ 24 := by norm_num [infinityBits]
  rw [hlast, hfirst, hgreatest, hinfinity]
  ring

theorem NearestEven.lt_infinityBits_iff {num den r : Nat} (h : NearestEven num den r) (hden : 0 < den) :
    r < infinityBits ↔ num < den * ((2 ^ 25 - 1) * 2 ^ 252) :=
  h.lt_iff hden (by norm_num [infinityBits]) (by norm_num [infinityBits]) (overflow_midpoint den)

end Sys2Proof.Machine
end

section
/-! PROOFS. Words as a sign and a point of the scale, and what the four operations give: the nearest point,
with the sign of the rule (rules R120 to R123). -/

open Sys2Proof.Stated

namespace Sys2Proof

namespace Machine

/-- Bits 30:0 as a number. -/
def magnitudeBits (a : Word) : Nat := a.toNat % 2 ^ 31

theorem magnitude_eq (a : Word) : magnitude a = bitsValue (magnitudeBits a) := by
  have hexp : expField a = magnitudeBits a / 2 ^ 23 := by
    simp only [expField, magnitudeBits, BitVec.extractLsb'_toNat, Nat.shiftRight_eq_div_pow]
    omega
  have hfrac : fracField a = magnitudeBits a % 2 ^ 23 := by
    simp only [fracField, magnitudeBits, BitVec.extractLsb'_toNat, Nat.shiftRight_eq_div_pow]
    omega
  rw [magnitude, bitsValue, hexp, hfrac]

theorem isfinite_iff (a : Word) : isfinite a = true ↔ magnitudeBits a < infinityBits := by
  simp only [isfinite, expField, magnitudeBits, infinityBits, BitVec.extractLsb'_toNat,
    Nat.shiftRight_eq_div_pow, bne_iff_ne]
  omega

theorem magnitudeBits_lt (a : Word) : magnitudeBits a < 2 ^ 31 := Nat.mod_lt _ (by decide)

theorem toNat_pack {neg : Bool} {p : Nat} (hp : p < 2 ^ 31) :
    (pack neg p).toNat = p + if neg then 2 ^ 31 else 0 := by
  cases neg <;> simp [pack] <;> omega

theorem msb_pack {neg : Bool} {p : Nat} (hp : p < 2 ^ 31) : (pack neg p).msb = neg := by
  rw [BitVec.msb_eq_decide, toNat_pack hp]
  cases neg <;> simp
  omega

theorem magnitudeBits_pack {neg : Bool} {p : Nat} (hp : p < 2 ^ 31) :
    magnitudeBits (pack neg p) = p := by
  rw [magnitudeBits, toNat_pack hp]
  cases neg <;> simp <;> omega

theorem pack_msb_magnitudeBits (a : Word) : pack a.msb (magnitudeBits a) = a := by
  apply BitVec.eq_of_toNat_eq
  have hlt := a.isLt
  rw [toNat_pack (magnitudeBits_lt a), magnitudeBits, BitVec.msb_eq_decide]
  split <;> simp_all
  omega

/-- A sign and a magnitude as an exact value. -/
def signed (neg : Bool) (n : Nat) : Int := if neg then -(n : Int) else n

@[simp] theorem signed_true (n : Nat) : signed true n = -(n : Int) := rfl
@[simp] theorem signed_false (n : Nat) : signed false n = n := rfl

@[simp] theorem natAbs_signed (neg : Bool) (n : Nat) : (signed neg n).natAbs = n := by
  cases neg <;> simp

theorem signed_lt_zero_iff {neg : Bool} {n : Nat} (hn : 0 < n) : signed neg n < 0 ↔ neg = true := by
  cases neg <;> simp [hn]

theorem signed_mul (s t : Bool) (m n : Nat) : signed s m * signed t n = signed (s ^^ t) (m * n) := by
  cases s <;> cases t <;> simp

theorem units_eq_signed (a : Word) : units a = signed a.msb (bitsValue (magnitudeBits a)) := by
  rw [units, magnitude_eq, signed]

theorem units_pack {neg : Bool} {p : Nat} (hp : p < 2 ^ 31) :
    units (pack neg p) = signed neg (bitsValue p) := by
  rw [units_eq_signed, msb_pack hp, magnitudeBits_pack hp]

/-- The distance of two signed values: of the magnitudes when the signs agree, else their sum. -/
theorem abs_signed_sub (s t : Bool) (n d m : Nat) :
    |signed s n - d * signed t m| =
      if s = t then |(n : Int) - d * m| else n + d * m := by
  have hsum : |(n : Int) + d * m| = n + d * m := abs_of_nonneg (by positivity)
  cases s <;> cases t
  · simp
  · simpa using hsum
  · rw [← abs_neg]
    simpa [add_comm] using hsum
  · rw [← abs_neg]
    simp [neg_add_eq_sub]

theorem NearestEven.eq_zero {d r : Nat} (h : NearestEven 0 d r) (hd : 0 < d) : r = 0 :=
  h.exact hd (by simp)

theorem getLsbD_zero_pack {neg : Bool} {p : Nat} (hp : p < 2 ^ 31) (heven : p % 2 = 0) :
    (pack neg p).getLsbD 0 = false := by
  rw [BitVec.getLsbD, toNat_pack hp, Nat.testBit_zero]
  cases neg <;> simp <;> omega

/-- The nearest point of the scale, given the sign, is nearest among all finite values: a value of the
other sign is further away, or both are zero (rule R121). -/
theorem NearestEven.nearest_pack {n d r : Nat} (h : NearestEven n d r) (hd : 0 < d) (hr : r < 2 ^ 31)
    (neg : Bool) (c : Word) :
    |signed neg n - d * units (pack neg r)| ≤ |signed neg n - d * units c| ∧
      (|signed neg n - d * units (pack neg r)| = |signed neg n - d * units c| →
        units c = units (pack neg r) ∨ (pack neg r).getLsbD 0 = false) := by
  obtain ⟨hle, htie⟩ := h (magnitudeBits c)
  rw [units_pack hr, units_eq_signed c, abs_signed_sub, abs_signed_sub, if_pos rfl]
  by_cases hsign : neg = c.msb
  · rw [if_pos hsign]
    refine ⟨hle, fun heq => (htie heq).imp (fun hc => by rw [hc, hsign]) (getLsbD_zero_pack hr)⟩
  · rw [if_neg hsign]
    have hr0 : (0 : Int) ≤ d * bitsValue r := by positivity
    have hc0 : (0 : Int) ≤ d * bitsValue (magnitudeBits c) := by positivity
    simp only [abs_eq_max_neg] at hle htie ⊢
    refine ⟨by omega, fun heq => ?_⟩
    rcases htie (by omega) with hc | heven
    · rw [hc] at heq ⊢
      have hzero : n = 0 ∨ (d : Int) * bitsValue r = 0 := by omega
      have hr0 : bitsValue r = 0 := by
        rcases hzero with rfl | hprod
        · rw [h.eq_zero hd, bitsValue_zero]
        · have hprod : d * bitsValue r = 0 := by exact_mod_cast hprod
          exact (Nat.mul_eq_zero.mp hprod).resolve_left hd.ne'
      left
      simp [signed, hr0]
    · exact .inr (getLsbD_zero_pack hr heven)

/-- A sign and the rounded magnitude are the correctly rounded value (rule R121). -/
theorem roundsTo_pack (neg : Bool) (n : Nat) {d : Nat} (hd : 0 < d) :
    RoundsTo (signed neg n) d (pack neg (roundMagnitude n d)) := by
  obtain ⟨r, hround, hnear⟩ := roundMagnitude_nearest n hd
  have hfinite := hnear.lt_infinityBits_iff hd
  have hcast : ((d * ((2 ^ 25 - 1) * 2 ^ 252) : Nat) : Int) = d * ((2 ^ 25 - 1) * 2 ^ 252) := by
    norm_num
  have habs : |signed neg n| = n := by rw [← Int.natCast_natAbs, natAbs_signed]
  have htop : infinityBits < 2 ^ 31 := by norm_num [infinityBits]
  rw [hround, RoundsTo, habs, ← hcast]
  constructor
  · intro hlt
    have hr : r < infinityBits := hfinite.mpr (Int.ofNat_lt.mp hlt)
    have hr31 := hr.trans htop
    rw [min_eq_left hr.le, isfinite_iff, magnitudeBits_pack hr31]
    exact ⟨hr, fun c _ => hnear.nearest_pack hd hr31 neg c⟩
  · intro hge
    have hr : ¬ r < infinityBits := hfinite.not.mpr (not_lt.mpr (Int.ofNat_le.mp hge))
    have hpos : 0 < n := by
      by_contra h0
      obtain rfl : n = 0 := by omega
      exact absurd (Int.ofNat_le.mp hge) (not_le.mpr (by positivity))
    rw [min_eq_right (not_lt.mp hr)]
    simp only [signed_lt_zero_iff hpos]
    cases neg <;> rfl

/-- A magnitude of the scale is given back exactly, when finite (rule R121). -/
theorem roundMagnitude_exact {p num den : Nat} (hden : 0 < den) (hnum : num = den * bitsValue p) :
    roundMagnitude num den = min p infinityBits := by
  obtain ⟨r, hround, hnear⟩ := roundMagnitude_nearest num hden
  rw [hround, hnear.exact hden hnum]

theorem roundMagnitude_lt (num den : Nat) : roundMagnitude num den < 2 ^ 31 :=
  (min_le_right _ _).trans_lt (by norm_num)

/-! ### The operations -/

theorem eq_pack_of_units_eq_zero {a : Word} (h : units a = 0) : a = pack a.msb 0 := by
  have hbits : bitsValue (magnitudeBits a) = 0 := (magnitude_eq a).symm.trans ((units_eq_zero a).mp h)
  rw [← (bitsValue_eq_zero_iff _).mp hbits, pack_msb_magnitudeBits]

/-- The sum is the rounded magnitude of the exact sum, with its sign; the sign of an exact zero is that
of rule R121. -/
theorem fadd_eq_pack (a b : Word) : ∃ neg, units a + units b = signed neg (units a + units b).natAbs ∧
    fadd a b = pack neg (roundMagnitude (units a + units b).natAbs 1) := by
  by_cases hzero : units a + units b = 0
  · refine ⟨a.msb && b.msb, by simp [hzero, signed], ?_⟩
    rw [fadd, if_pos hzero, hzero]
    cases a.msb && b.msb <;> rfl
  · refine ⟨decide (units a + units b < 0), ?_, if_neg hzero⟩
    simp only [signed, decide_eq_true_eq]
    split <;> omega

theorem roundsTo_fadd (a b : Word) : RoundsTo (units a + units b) 1 (fadd a b) := by
  obtain ⟨neg, hsum, hadd⟩ := fadd_eq_pack a b
  rw [hadd, hsum, natAbs_signed]
  exact roundsTo_pack neg _ one_pos

/-- The exact value of a pattern with the sign bit changed (rule R121). -/
theorem units_xor_sign (b : Word) : units (b ^^^ 0x80000000#32) = -units b := by
  have hbits : magnitudeBits (b ^^^ 0x80000000#32) = magnitudeBits b := by
    have hlow : (b ^^^ 0x80000000#32).setWidth 31 = b.setWidth 31 := by
      rw [BitVec.setWidth_xor]
      exact BitVec.xor_zero
    have hlow := congrArg BitVec.toNat hlow
    rwa [BitVec.toNat_setWidth, BitVec.toNat_setWidth] at hlow
  have hmsb : (b ^^^ 0x80000000#32).msb = !b.msb := by
    rw [BitVec.msb_xor]
    exact Bool.xor_true _
  rw [units_eq_signed, units_eq_signed, hbits, hmsb]
  cases b.msb <;> simp

/-- Two values whose sum is an exact zero are both negative only when both are -0 (rule R121). -/
theorem fadd_of_units_eq_zero {a b : Word} (h : units a + units b = 0) :
    fadd a b = if a = 0x80000000#32 ∧ b = 0x80000000#32 then 0x80000000#32 else 0#32 := by
  have hiff : (a.msb && b.msb) = true ↔ a = 0x80000000#32 ∧ b = 0x80000000#32 := by
    constructor
    · intro hmsb
      obtain ⟨ha, hb⟩ := (Bool.and_eq_true ..).mp hmsb
      have hua := units_eq_signed a
      have hub := units_eq_signed b
      rw [ha, signed_true] at hua
      rw [hb, signed_true] at hub
      exact ⟨(eq_pack_of_units_eq_zero (by omega)).trans (by rw [ha]; rfl),
        (eq_pack_of_units_eq_zero (by omega)).trans (by rw [hb]; rfl)⟩
    · rintro ⟨rfl, rfl⟩
      rfl
  rw [fadd, if_pos h]
  exact if_congr hiff rfl rfl

theorem units_mul_units (a b : Word) :
    units a * units b = signed (a.msb ^^ b.msb) (magnitude a * magnitude b) := by
  rw [units_eq_signed, units_eq_signed, signed_mul, magnitude_eq, magnitude_eq]

theorem roundsTo_fmul (a b : Word) : RoundsTo (units a * units b) (2 ^ 149) (fmul a b) := by
  have h := roundsTo_pack (a.msb ^^ b.msb) (magnitude a * magnitude b) (Nat.two_pow_pos 149)
  rw [Nat.cast_pow, ← units_mul_units] at h
  exact h

theorem msb_fmul (a b : Word) : (fmul a b).msb = (a.msb ^^ b.msb) := msb_pack (roundMagnitude_lt _ _)

theorem msb_fdiv (a b : Word) : (fdiv a b).msb = (a.msb ^^ b.msb) := msb_pack (roundMagnitude_lt _ _)

/-- The magnitude of `UP_GAIN` = 2.0 (rule R9). -/
theorem magnitude_two : magnitude 0x40000000#32 = 2 ^ 149 * 2 := by
  have hexp : expField 0x40000000#32 = 128 := rfl
  have hfrac : fracField 0x40000000#32 = 0 := rfl
  rw [magnitude, hexp, hfrac, if_neg (by decide)]
  norm_num

/-- Doubling is exact when it does not overflow: twice a point of the scale is on the scale (rule
R122). -/
theorem units_fmul_two {a : Word} (h : isfinite (fmul 0x40000000#32 a) = true) :
    units (fmul 0x40000000#32 a) = 2 * units a := by
  obtain ⟨q, hq⟩ := exists_bitsValue_double (magnitudeBits a)
  have hexact : roundMagnitude (magnitude 0x40000000#32 * magnitude a) (2 ^ 149) = min q infinityBits :=
    roundMagnitude_exact (Nat.two_pow_pos 149) (by rw [magnitude_two, magnitude_eq, hq, mul_assoc])
  have hmul : fmul 0x40000000#32 a = pack a.msb (min q infinityBits) := by
    rw [fmul, hexact]
    exact congrArg (pack · _) (Bool.false_xor _)
  have hlt : min q infinityBits < 2 ^ 31 := (min_le_right _ _).trans_lt (by norm_num [infinityBits])
  rw [hmul, isfinite_iff, magnitudeBits_pack hlt] at h
  rw [hmul, units_pack hlt, min_eq_left (by omega), hq, units_eq_signed]
  cases a.msb <;> simp

theorem roundsTo_fdiv (a : Word) {b : Word} (hb : units b ≠ 0) :
    RoundsTo (units a * 2 ^ 149 * (units b).sign) |units b| (fdiv a b) := by
  have hpos : 0 < magnitude b := Nat.pos_of_ne_zero fun h => hb ((units_eq_zero b).mpr h)
  have hden : |units b| = magnitude b := by
    rw [units]
    split <;> simp
  have hsign : (units b).sign = signed b.msb 1 := by
    rw [units]
    cases b.msb
    · exact Int.sign_eq_one_of_pos (by simpa using hpos)
    · exact Int.sign_eq_neg_one_of_neg (by simpa using hpos)
  have hnum : units a * 2 ^ 149 * (units b).sign =
      signed (a.msb ^^ b.msb) (magnitude a * 2 ^ 149) := by
    have hscale : (2 : Int) ^ 149 = signed false (2 ^ 149) := (Nat.cast_pow 2 149).symm
    rw [hsign, hscale, units_eq_signed, signed_mul, signed_mul, magnitude_eq, mul_one, Bool.xor_false]
  rw [hden, hnum]
  exact roundsTo_pack _ _ hpos

end Machine

open Machine

/-- Settles O55: a difference is the sum with the sign of the second term changed. -/
theorem sumsCorrectlyRounded : Obligations.SumsCorrectlyRounded := by
  intro a b _ _
  have hsub : units a - units b = units a + units (b ^^^ 0x80000000#32) := by
    rw [units_xor_sign, sub_eq_add_neg]
  have hzero : b ^^^ 0x80000000#32 = 0x80000000#32 ↔ b = 0#32 := by
    simp
  refine ⟨roundsTo_fadd a b, hsub ▸ roundsTo_fadd a _, fadd_of_units_eq_zero, fun h => ?_⟩
  rw [fsub, fadd_of_units_eq_zero (hsub ▸ h)]
  exact if_congr (and_congr_right' hzero) rfl rfl

/-- Settles O56: the magnitudes multiply, and 2.0 only moves a point of the scale up one binade. -/
theorem productsCorrectlyRounded : Obligations.ProductsCorrectlyRounded :=
  fun a b _ _ => ⟨roundsTo_fmul a b, msb_fmul a b, units_fmul_two⟩

/-- Settles O57: the magnitudes divide, and the sign of the divisor stands with the dividend. -/
theorem quotientsCorrectlyRounded : Obligations.QuotientsCorrectlyRounded :=
  fun a b _ _ hb => ⟨roundsTo_fdiv a hb, msb_fdiv a b⟩

end Sys2Proof
end

section
/-! PROOFS. The dot product: four lanes by index modulo 4, and when it is inside the finite domain (rules
R128, R133, R142, R146). -/

open Sys2Proof.Stated

namespace Sys2Proof

namespace Machine

/-! ### Lanes -/

/-- Lane j mod 4. -/
def Lanes.lane (l : Lanes) (j : Nat) : Word :=
  if j % 4 = 0 then l.a0 else if j % 4 = 1 then l.a1 else if j % 4 = 2 then l.a2 else l.a3

/-- Lane j mod 4 replaced. -/
def Lanes.put (l : Lanes) (j : Nat) (a : Word) : Lanes :=
  if j % 4 = 0 then { l with a0 := a } else if j % 4 = 1 then { l with a1 := a }
  else if j % 4 = 2 then { l with a2 := a } else { l with a3 := a }

/-- A term is added to its own lane (rule R142). -/
theorem Lanes.add?_iff (l l' : Lanes) (j : Nat) (p : Word) :
    l.add? j p = some l' ↔ ∃ q, fadd? (l.lane j) p = some q ∧ l' = l.put j q := by
  have hbind (f : Word → Lanes) (o : Option Word) :
      (do some (f (← o))) = some l' ↔ ∃ q, o = some q ∧ l' = f q := by
    cases o <;> simp [eq_comm]
  unfold Lanes.add? Lanes.lane Lanes.put
  split_ifs <;> exact hbind _ _

theorem Lanes.lane_put (l : Lanes) (i j : Nat) (a : Word) :
    (l.put i a).lane j = if i % 4 = j % 4 then a else l.lane j := by
  unfold Lanes.put Lanes.lane
  split_ifs <;> first | rfl | omega

@[simp] theorem Lanes.lane_zero (j : Nat) : Lanes.zero.lane j = 0#32 := by
  unfold Lanes.lane
  split_ifs <;> rfl

/-- The lanes after one step of the loop of rule R142, in the words of rule R128. -/
theorem Ring.accumulate?_cons_iff {c k : Nat} {B : Ring} {t : Word} {ts : List Word} {l l' : Lanes} :
    B.accumulate? c (t :: ts) k l = some l' ↔
      (isfinite t = true ∧ isfinite (B.tap c k) = true ∧ isfinite (fmul t (B.tap c k)) = true ∧
        isfinite (l.lane k) = true ∧ isfinite (fadd (l.lane k) (fmul t (B.tap c k))) = true) ∧
      B.accumulate? c ts (k + 1) (l.put k (fadd (l.lane k) (fmul t (B.tap c k)))) = some l' := by
  simp only [Ring.accumulate?, Option.bind_eq_bind, Option.bind_eq_some_iff, Lanes.add?_iff,
    fadd?_iff, fmul?_iff]
  constructor
  · rintro ⟨_, ⟨ht, hb, rfl, hp⟩, _, ⟨_, ⟨hl, _, rfl, hq⟩, rfl⟩, hrest⟩
    exact ⟨⟨ht, hb, hp, hl, hq⟩, hrest⟩
  · rintro ⟨⟨ht, hb, hp, hl, hq⟩, hrest⟩
    exact ⟨_, ⟨ht, hb, rfl, hp⟩, _, ⟨_, ⟨hl, hp, rfl, hq⟩, rfl⟩, hrest⟩

theorem Ring.accumulate?_append (c : Nat) (B : Ring) (T U : List Word) (k : Nat) (l : Lanes) :
    B.accumulate? c (T ++ U) k l =
      (B.accumulate? c T k l).bind (B.accumulate? c U (k + T.length)) := by
  induction T generalizing k l with
  | nil => rfl
  | cons t ts ih =>
    simp only [List.cons_append, Ring.accumulate?, Option.bind_eq_bind, ih, Option.bind_assoc,
      List.length_cons, Nat.add_right_comm k 1, Nat.add_assoc k]

/-! ### The lane sums of the statement -/

theorem laneSum_zero (c : Nat) (B : Ring) (T : List Word) (j : Nat) : laneSum c B T 0 j = 0#32 := rfl

theorem laneSum_succ (c : Nat) (B : Ring) (T : List Word) (n j : Nat) :
    laneSum c B T (n + 1) j =
      if n % 4 = j then fadd (laneSum c B T n j) (fmul (T.getD n 0#32) (B.tap c n))
      else laneSum c B T n j := by
  unfold laneSum
  rw [List.range_succ, List.filter_append, List.foldl_append]
  by_cases h : n % 4 = j <;> simp [h]

/-- The four lanes after n terms. -/
def lanesAfter (c : Nat) (B : Ring) (T : List Word) (n : Nat) : Lanes where
  a0 := laneSum c B T n 0
  a1 := laneSum c B T n 1
  a2 := laneSum c B T n 2
  a3 := laneSum c B T n 3

theorem lane_lanesAfter (c : Nat) (B : Ring) (T : List Word) (n j : Nat) :
    (lanesAfter c B T n).lane j = laneSum c B T n (j % 4) := by
  have hj : j % 4 = 0 ∨ j % 4 = 1 ∨ j % 4 = 2 ∨ j % 4 = 3 := by omega
  rcases hj with h | h | h | h <;> simp [Lanes.lane, lanesAfter, h]

theorem lanesAfter_zero (c : Nat) (B : Ring) (T : List Word) : lanesAfter c B T 0 = Lanes.zero := rfl

theorem lanesAfter_succ (c : Nat) (B : Ring) (T : List Word) (n : Nat) :
    lanesAfter c B T (n + 1) = (lanesAfter c B T n).put n
      (fadd (laneSum c B T n (n % 4)) (fmul (T.getD n 0#32) (B.tap c n))) := by
  have hn : n % 4 = 0 ∨ n % 4 = 1 ∨ n % 4 = 2 ∨ n % 4 = 3 := by omega
  rcases hn with h | h | h | h <;> simp [lanesAfter, laneSum_succ, Lanes.put, h]

/-- Rule R128 for one term of the loop: its operands, its product, and its lane before and after it. -/
def TermFinite (c : Nat) (B : Ring) (T : List Word) (k : Nat) : Prop :=
  isfinite (T.getD k 0#32) = true ∧ isfinite (B.tap c k) = true ∧
    isfinite (fmul (T.getD k 0#32) (B.tap c k)) = true ∧
    isfinite (laneSum c B T k (k % 4)) = true ∧ isfinite (laneSum c B T (k + 1) (k % 4)) = true

/-- The loop of rule R142 from element k on. -/
theorem Ring.accumulate?_drop_iff {c : Nat} {B : Ring} {T ts : List Word} {k : Nat} (h : T.drop k = ts)
    (l : Lanes) : B.accumulate? c ts k (lanesAfter c B T k) = some l ↔
      (∀ i, k ≤ i → i < k + ts.length → TermFinite c B T i) ∧ l = lanesAfter c B T (k + ts.length) := by
  induction ts generalizing k with
  | nil =>
    refine ⟨fun hl => ⟨fun i hlow hhigh => absurd hhigh (not_lt.mpr hlow), ?_⟩, fun ⟨_, hl⟩ => ?_⟩
    · exact (Option.some.inj hl).symm
    · rw [hl]; rfl
  | cons t ts ih =>
    have ht : T.getD k 0#32 = t := by
      rw [List.getD_eq_getElem?_getD, ← Nat.add_zero k, ← List.getElem?_drop, h]
      rfl
    have htail : T.drop (k + 1) = ts := by
      rw [← List.drop_drop, h]
      rfl
    have hterm : TermFinite c B T k ↔
        isfinite t = true ∧ isfinite (B.tap c k) = true ∧ isfinite (fmul t (B.tap c k)) = true ∧
          isfinite (laneSum c B T k (k % 4)) = true ∧
          isfinite (fadd (laneSum c B T k (k % 4)) (fmul t (B.tap c k))) = true := by
      rw [TermFinite, laneSum_succ, if_pos rfl, ht]
    rw [Ring.accumulate?_cons_iff, lane_lanesAfter, ← hterm, ← ht, ← lanesAfter_succ, ih htail,
      List.length_cons, Nat.add_right_comm k 1, ← Nat.add_assoc, ← and_assoc]
    refine and_congr_left' ⟨fun ⟨hk, hrest⟩ i hlow hhigh => ?_, fun hall => ⟨?_, fun i hlow hhigh => ?_⟩⟩
    · rcases Nat.eq_or_lt_of_le hlow with rfl | hgt
      · exact hk
      · exact hrest i hgt hhigh
    · exact hall k le_rfl (by omega)
    · exact hall i (by omega) hhigh

/-- The whole loop of rule R142. -/
theorem Ring.accumulate?_zero_iff (c : Nat) (B : Ring) (T : List Word) (l : Lanes) :
    B.accumulate? c T 0 Lanes.zero = some l ↔
      (∀ k < T.length, TermFinite c B T k) ∧ l = lanesAfter c B T T.length := by
  have h := Ring.accumulate?_drop_iff (c := c) (B := B) (T := T) (k := 0) List.drop_zero l
  rw [lanesAfter_zero] at h
  simpa only [Nat.zero_le, true_implies, Nat.zero_add] using h

/-- A lane that is finite before and after each of its terms is finite throughout, its start being +0.0
(rule R142). -/
theorem isfinite_laneSum {c : Nat} {B : Ring} {T : List Word} {n : Nat}
    (h : ∀ k < n, TermFinite c B T k) (j : Nat) : isfinite (laneSum c B T n j) = true := by
  induction n with
  | zero =>
    rw [laneSum_zero]
    decide
  | succ n ih =>
    by_cases hj : n % 4 = j
    · obtain ⟨_, _, _, _, hsum⟩ := h n n.lt_succ_self
      exact hj ▸ hsum
    · rw [laneSum_succ, if_neg hj]
      exact ih fun k hk => h k (by omega)

/-- The three final sums of rule R142, in the words of rule R128. -/
theorem sum?_lanesAfter_iff (c : Nat) (B : Ring) (T : List Word) (y : Word) :
    (lanesAfter c B T T.length).sum? = some y ↔
      ((∀ j < 4, isfinite (laneSum c B T T.length j) = true) ∧
        ∀ m ≤ 3, isfinite (laneTotal c B T m) = true) ∧ y = laneTotal c B T 3 := by
  simp only [Lanes.sum?, lanesAfter, Option.bind_eq_bind, Option.bind_eq_some_iff, fadd?_iff]
  constructor
  · rintro ⟨_, ⟨h0, h1, rfl, hs1⟩, _, ⟨_, h2, rfl, hs2⟩, _, h3, rfl, hs3⟩
    refine ⟨⟨fun j hj => ?_, fun m hm => ?_⟩, rfl⟩
    · interval_cases j <;> assumption
    · interval_cases m <;> assumption
  · rintro ⟨⟨hlane, htotal⟩, rfl⟩
    exact ⟨_, ⟨hlane 0 (by omega), hlane 1 (by omega), rfl, htotal 1 (by omega)⟩,
      _, ⟨htotal 1 (by omega), hlane 2 (by omega), rfl, htotal 2 (by omega)⟩,
      htotal 2 (by omega), hlane 3 (by omega), rfl, htotal 3 (by omega)⟩

/-- `convolve` in the words of rules R128 and R142. -/
theorem Ring.convolve?_iff (c : Nat) (B : Ring) (T : List Word) (y : Word) :
    B.convolve? c T = some y ↔ ConvolveFinite c B T ∧ y = laneTotal c B T 3 := by
  simp only [Ring.convolve?, Option.bind_eq_bind, Option.bind_eq_some_iff, Ring.accumulate?_zero_iff]
  constructor
  · rintro ⟨_, ⟨hterms, rfl⟩, hsum⟩
    obtain ⟨⟨_, htotal⟩, rfl⟩ := (sum?_lanesAfter_iff c B T y).mp hsum
    refine ⟨⟨fun k hk => ?_, fun n hn j _ => isfinite_laneSum (fun k hk => hterms k (by omega)) j,
      htotal⟩, rfl⟩
    obtain ⟨ht, hb, hp, _⟩ := hterms k hk
    exact ⟨ht, hb, hp⟩
  · rintro ⟨⟨hoperands, hlane, htotal⟩, rfl⟩
    refine ⟨_, ⟨fun k hk => ?_, rfl⟩, (sum?_lanesAfter_iff c B T _).mpr
      ⟨⟨hlane _ le_rfl, htotal⟩, rfl⟩⟩
    obtain ⟨ht, hb, hp⟩ := hoperands k hk
    have hk4 : k % 4 < 4 := Nat.mod_lt _ (by decide)
    exact ⟨ht, hb, hp, hlane k hk.le _ hk4, hlane (k + 1) hk _ hk4⟩

/-! ### Padding -/

/-- An accumulator as the loop of rule R142 leaves it: finite and not -0, which +0.0 plus any terms never
becomes. -/
def Settled (a : Word) : Prop := isfinite a = true ∧ a ≠ 0x80000000#32

/-- A sum that rounds to a zero is exactly zero: every sum is a whole number of least subnormals. -/
theorem units_add_eq_zero_of_fadd {a b : Word} (h : magnitudeBits (fadd a b) = 0) :
    units a + units b = 0 := by
  obtain ⟨neg, _, hadd⟩ := fadd_eq_pack a b
  obtain ⟨r, hround, hnear⟩ := roundMagnitude_nearest (units a + units b).natAbs one_pos
  rw [hadd, magnitudeBits_pack (roundMagnitude_lt _ _), hround] at h
  have hr : r = 0 := by
    have htop : 0 < infinityBits := by norm_num [infinityBits]
    omega
  obtain ⟨hle, _⟩ := hnear 1
  have hone : bitsValue 1 = 1 := rfl
  rw [hr, hone, bitsValue_zero] at hle
  simp only [abs_eq_max_neg] at hle
  omega

theorem fadd_ne_neg_zero {a : Word} (ha : a ≠ 0x80000000#32) (b : Word) :
    fadd a b ≠ 0x80000000#32 := by
  intro h
  have hzero := units_add_eq_zero_of_fadd (a := a) (b := b) (by rw [h]; rfl)
  rw [fadd_of_units_eq_zero hzero, if_neg fun ⟨ha', _⟩ => ha ha'] at h
  exact absurd h (by decide)

/-- Adding a zero of either sign to a settled accumulator gives it back (rules R121, R146). -/
theorem Settled.fadd_zero {a z : Word} (ha : Settled a) (hz : units z = 0) : fadd a z = a := by
  obtain ⟨hfinite, hne⟩ := ha
  by_cases hzero : units a = 0
  · have hsum : units a + units z = 0 := by rw [hzero, hz]; rfl
    rw [fadd_of_units_eq_zero hsum, if_neg fun ⟨ha', _⟩ => hne ha']
    have hpack := eq_pack_of_units_eq_zero hzero
    cases hmsb : a.msb with
    | true => exact absurd (by rw [hpack, hmsb]; rfl) hne
    | false => rw [hpack, hmsb]; rfl
  · obtain ⟨neg, hsum, hadd⟩ := fadd_eq_pack a z
    rw [hz, add_zero] at hsum hadd
    have hbits : (units a).natAbs = bitsValue (magnitudeBits a) := by
      rw [units_eq_signed, natAbs_signed]
    have hneg : neg = a.msb := by
      have hpos : 0 < (units a).natAbs := Int.natAbs_pos.mpr hzero
      rw [Bool.eq_iff_iff, ← signed_lt_zero_iff hpos, ← signed_lt_zero_iff hpos, ← hsum, hbits,
        ← units_eq_signed]
    have hexact : roundMagnitude (units a).natAbs 1 = magnitudeBits a := by
      rw [roundMagnitude_exact one_pos (hbits.trans (one_mul _).symm)]
      exact min_eq_left ((isfinite_iff a).mp hfinite).le
    rw [hadd, hexact, hneg, pack_msb_magnitudeBits]

/-- The product of a +0.0 tap is a zero, of the sign of the sample (rule R122). -/
theorem fmul_zero_left (x : Word) : fmul 0#32 x = pack x.msb 0 := by
  have hmag : magnitude 0#32 = 0 := rfl
  have hround : roundMagnitude 0 (2 ^ 149) = min 0 infinityBits :=
    roundMagnitude_exact (Nat.two_pow_pos 149) rfl
  rw [fmul, hmag, zero_mul, hround, Nat.zero_min]
  exact congrArg (pack · 0) (Bool.false_xor _)

/-- Every lane is settled. -/
def Lanes.Settled (l : Lanes) : Prop := ∀ j, Machine.Settled (l.lane j)

theorem Lanes.settled_zero : Lanes.zero.Settled := fun j => by
  rw [Lanes.lane_zero]
  exact ⟨by decide, by decide⟩

theorem Ring.settled_of_accumulate? {c k : Nat} {B : Ring} {ts : List Word} {l l' : Lanes}
    (hl : l.Settled) (h : B.accumulate? c ts k l = some l') : l'.Settled := by
  induction ts generalizing k l with
  | nil => exact Option.some.inj h ▸ hl
  | cons t ts ih =>
    obtain ⟨⟨_, _, _, _, hsum⟩, hrest⟩ := Ring.accumulate?_cons_iff.mp h
    refine ih (fun j => ?_) hrest
    rw [Lanes.lane_put]
    split
    · exact ⟨hsum, fadd_ne_neg_zero (hl k).2 _⟩
    · exact hl j

theorem Lanes.put_lane (l : Lanes) (j : Nat) : l.put j (l.lane j) = l := by
  unfold Lanes.put Lanes.lane
  split_ifs <;> rfl

/-- Taps +0.0 leave settled lanes as they are, bit for bit (rule R146). -/
theorem Ring.accumulate?_replicate_zero {c k n : Nat} {B : Ring} {l : Lanes} (hl : l.Settled)
    (hfinite : ∀ i, k ≤ i → i < k + n → isfinite (B.tap c i) = true) :
    B.accumulate? c (List.replicate n 0#32) k l = some l := by
  induction n generalizing k with
  | zero => rfl
  | succ n ih =>
    have hsum : fadd (l.lane k) (fmul 0#32 (B.tap c k)) = l.lane k :=
      (hl k).fadd_zero (by rw [fmul_zero_left, units_pack (by decide)]; simp [signed])
    have hprod : isfinite (fmul 0#32 (B.tap c k)) = true := by
      rw [fmul_zero_left]
      cases (B.tap c k).msb <;> decide
    rw [List.replicate_succ, Ring.accumulate?_cons_iff, hsum, Lanes.put_lane]
    exact ⟨⟨by decide, hfinite k le_rfl (by omega), hprod, (hl k).1, (hl k).1⟩,
      ih fun i hlow hhigh => hfinite i (by omega) (by omega)⟩

end Machine

open Machine

/-- Settles O30: `convolve?` is `ConvolveFinite` with the value `laneTotal`. -/
theorem convolveLaneOrder : Obligations.ConvolveLaneOrder := by
  intro c B T
  refine ⟨fun y hy => ((Ring.convolve?_iff c B T y).mp hy).2, ?_⟩
  simp [Option.isSome_iff_exists, Ring.convolve?_iff]

/-- Settles O31: no lane of T is -0, so the products of the further taps, zeros of either sign, leave
every lane as it is. -/
theorem convolvePaddingInvisible : Obligations.ConvolvePaddingInvisible := by
  intro c B T y n hconv _ hfinite
  simp only [Ring.convolve?, Option.bind_eq_bind, Option.bind_eq_some_iff] at hconv ⊢
  obtain ⟨l, hacc, hsum⟩ := hconv
  refine ⟨l, ?_, hsum⟩
  rw [Ring.accumulate?_append, hacc]
  exact Ring.accumulate?_replicate_zero (Ring.settled_of_accumulate? Lanes.settled_zero hacc)
    fun i _ hhigh => hfinite i (by omega)

end Sys2Proof
end

section
/-! PROOFS. The loops of the cascade and of the waveshaper: the model's recursion answers exactly when the
calls that the rules' loops make exist, and then it answers what they leave (rules R128, R187, R188, R213,
R230). -/

open Sys2Proof.Stated

namespace Sys2Proof

namespace Machine

/-! ### One loop of calls -/

/-- A loop of calls, each from the state that the call before left, the answers in order. -/
def mapCalls? {σ α β : Type} (call : σ → α → Option (σ × β)) : σ → List α → Option (σ × List β)
  | g, [] => some (g, [])
  | g, a :: rest => do
    let (g1, b) ← call g a
    let (g2, out) ← mapCalls? call g1 rest
    some (g2, b :: out)

/-- The infinite sequence with one more element in front. -/
def prepend {α : Type} (a : α) (f : Nat → α) : Nat → α
  | 0 => a
  | n + 1 => f n

section
variable {σ α β : Type} {call : σ → α → Option (σ × β)}

theorem mapCalls?_cons {g : σ} {a : α} {rest : List α} {r : σ × List β}
    (h : mapCalls? call g (a :: rest) = some r) : ∃ g1 b r',
      call g a = some (g1, b) ∧ mapCalls? call g1 rest = some r' ∧ r = (r'.1, b :: r'.2) := by
  simp only [mapCalls?, Option.bind_eq_bind, Option.bind_eq_some_iff, Option.some.injEq] at h
  obtain ⟨⟨g1, b⟩, hcall, r', hrest, rfl⟩ := h
  exact ⟨g1, b, r', hcall, hrest, rfl⟩

/-- `(range (n + 1)).map a`, its first element apart. -/
theorem map_range_succ {γ : Type} (a : Nat → γ) (n : Nat) :
    (List.range (n + 1)).map a = a 0 :: (List.range n).map fun j => a (j + 1) := by
  rw [List.range_succ_eq_map, List.map_cons, List.map_map]
  rfl

/-- The loop answers what its calls leave. -/
theorem mapCalls?_of_calls {n : Nat} {H : Nat → σ} {a : Nat → α} {b : Nat → β}
    (h : ∀ j < n, call (H j) (a j) = some (H (j + 1), b j)) :
    mapCalls? call (H 0) ((List.range n).map a) = some (H n, (List.range n).map b) := by
  induction n generalizing H a b with
  | zero => rfl
  | succ n ih =>
    have hrest := ih (H := fun j => H (j + 1)) fun j hj => h (j + 1) (by omega)
    simp only [map_range_succ, mapCalls?, h 0 (by omega), hrest, Option.bind_eq_bind,
      Option.bind_some]

/-- A loop that answers has made its calls. -/
theorem exists_calls_of_mapCalls? [Inhabited β] {n : Nat} {g : σ} {a : Nat → α} {r : σ × List β}
    (h : mapCalls? call g ((List.range n).map a) = some r) :
    ∃ (H : Nat → σ) (b : Nat → β), H 0 = g ∧
      ∀ j < n, call (H j) (a j) = some (H (j + 1), b j) := by
  induction n generalizing g a r with
  | zero =>
    exact ⟨fun _ => g, default, rfl, nofun⟩
  | succ n ih =>
    rw [map_range_succ] at h
    obtain ⟨g1, b0, r', hfirst, hrest, _⟩ := mapCalls?_cons h
    obtain ⟨H, b, rfl, hcalls⟩ := ih hrest
    refine ⟨prepend g H, prepend b0 b, rfl, fun j hj => ?_⟩
    cases j with
    | zero => exact hfirst
    | succ j => exact hcalls j (by omega)

end

/-! ### The three loops of the model as loops of calls -/

/-- The two samples of a pair, the earlier first. -/
def pairList (p : Word × Word) : List Word := [p.1, p.2]

theorem Stage.upEach?_eq (g : Stage) (vec : List Word) :
    g.upEach? vec = (mapCalls? Stage.up? g vec).map fun r => (r.1, r.2.flatMap pairList) := by
  induction vec generalizing g with
  | nil => rfl
  | cons a rest ih =>
    simp only [Stage.upEach?, mapCalls?, Option.bind_eq_bind, ih]
    cases g.up? a with
    | none => rfl
    | some r => cases hrest : mapCalls? Stage.up? r.1 rest <;> simp [hrest, pairList]

/-- `stage_down` on a pair. -/
def Stage.downPair? (g : Stage) (p : Word × Word) : Option (Stage × Word) := g.down? p.1 p.2

theorem Stage.downEach?_flatMap (g : Stage) (ps : List (Word × Word)) :
    g.downEach? (ps.flatMap pairList) = mapCalls? Stage.downPair? g ps := by
  induction ps generalizing g with
  | nil => rfl
  | cons p ps ih =>
    simp only [List.flatMap_cons, pairList, List.cons_append, List.nil_append, Stage.downEach?,
      mapCalls?, Stage.downPair?]
    exact congrArg _ (funext fun r => by rw [← ih])

theorem shapeFrame?_eq (v : Variant) (e : Word) (t : Tracker) (xs : List Word) :
    shapeFrame? v e t xs = mapCalls? (adaaStep? v e) t xs := by
  induction xs generalizing t with
  | nil => rfl
  | cons x xs ih => simp only [shapeFrame?, mapCalls?, ih]

/-- The samples 0 .. 2n - 1 as n pairs. -/
theorem flatMap_pairs_range (f : Nat → Word) (n : Nat) :
    ((List.range n).map fun j => (f (2 * j), f (2 * j + 1))).flatMap pairList =
      (List.range (2 * n)).map f := by
  induction n with
  | zero => rfl
  | succ n ih =>
    rw [Nat.mul_succ, List.range_succ, List.range_succ, List.range_succ, List.map_append,
      List.flatMap_append, ih]
    simp [pairList]

/-- The samples of pairs, in order. -/
def interleave (b : Nat → Word × Word) (k : Nat) : Word :=
  if k % 2 = 0 then (b (k / 2)).1 else (b (k / 2)).2

theorem interleave_even (b : Nat → Word × Word) (j : Nat) : interleave b (2 * j) = (b j).1 := by
  simp [interleave]

theorem interleave_odd (b : Nat → Word × Word) (j : Nat) : interleave b (2 * j + 1) = (b j).2 := by
  have hmod : (2 * j + 1) % 2 ≠ 0 := by omega
  have hdiv : (2 * j + 1) / 2 = j := by omega
  rw [interleave, if_neg hmod, hdiv]

/-! ### One level -/

theorem Stage.upEach?_of_calls {n : Nat} {H : Nat → Stage} {a o : Nat → Word}
    (h : ∀ j < n, StageUpCall (H j) (a j) (H (j + 1)) (o (2 * j)) (o (2 * j + 1))) :
    (H 0).upEach? ((List.range n).map a) = some (H n, (List.range (2 * n)).map o) := by
  rw [Stage.upEach?_eq, mapCalls?_of_calls (b := fun j => (o (2 * j), o (2 * j + 1)))
    fun j hj => (Stage.up?_iff ..).mpr (h j hj), Option.map_some, flatMap_pairs_range]

theorem Stage.exists_upCalls {n : Nat} {g : Stage} {a : Nat → Word} {r : Stage × List Word}
    (h : g.upEach? ((List.range n).map a) = some r) : ∃ (H : Nat → Stage) (o : Nat → Word), H 0 = g ∧
      ∀ j < n, StageUpCall (H j) (a j) (H (j + 1)) (o (2 * j)) (o (2 * j + 1)) := by
  rw [Stage.upEach?_eq, Option.map_eq_some_iff] at h
  obtain ⟨r', h, _⟩ := h
  obtain ⟨H, b, hstart, hcalls⟩ := exists_calls_of_mapCalls? h
  refine ⟨H, interleave b, hstart, fun j hj => ?_⟩
  rw [interleave_even, interleave_odd]
  exact (Stage.up?_iff ..).mp (hcalls j hj)

theorem Stage.downEach?_of_calls {n : Nat} {H : Nat → Stage} {a y : Nat → Word}
    (h : ∀ j < n, StageDownCall (H j) (a (2 * j)) (a (2 * j + 1)) (H (j + 1)) (y j)) :
    (H 0).downEach? ((List.range (2 * n)).map a) = some (H n, (List.range n).map y) := by
  rw [← flatMap_pairs_range, Stage.downEach?_flatMap]
  exact mapCalls?_of_calls fun j hj => (Stage.down?_iff ..).mpr (h j hj)

theorem Stage.exists_downCalls {n : Nat} {g : Stage} {a : Nat → Word} {r : Stage × List Word}
    (h : g.downEach? ((List.range (2 * n)).map a) = some r) :
    ∃ (H : Nat → Stage) (y : Nat → Word), H 0 = g ∧
      ∀ j < n, StageDownCall (H j) (a (2 * j)) (a (2 * j + 1)) (H (j + 1)) (y j) := by
  rw [← flatMap_pairs_range, Stage.downEach?_flatMap] at h
  obtain ⟨H, y, hstart, hcalls⟩ := exists_calls_of_mapCalls? h
  exact ⟨H, y, hstart, fun j hj => (Stage.down?_iff ..).mp (hcalls j hj)⟩

/-! ### The cascade -/

/-- G i 0 is stage i of the chain. -/
def StartsAt (gs : List Stage) (G : Nat → Nat → Stage) : Prop :=
  ∀ i < gs.length, gs[i]? = some (G i 0)

theorem StartsAt.head {g : Stage} {gs : List Stage} {G : Nat → Nat → Stage}
    (h : StartsAt (g :: gs) G) : g = G 0 0 :=
  Option.some.inj (h 0 (Nat.succ_pos _))

theorem StartsAt.tail {g : Stage} {gs : List Stage} {G : Nat → Nat → Stage}
    (h : StartsAt (g :: gs) G) : StartsAt gs fun i => G (i + 1) :=
  fun i hi => h (i + 1) (Nat.succ_lt_succ hi)

theorem StartsAt.cons {g : Stage} {gs : List Stage} {H : Nat → Stage} {G : Nat → Nat → Stage}
    (hg : H 0 = g) (h : StartsAt gs G) : StartsAt (g :: gs) (prepend H G) := by
  intro i hi
  cases i with
  | zero => exact congrArg some hg.symm
  | succ i => exact h i (Nat.lt_of_succ_lt_succ hi)

/-- The loops of rule R187 over a chain that is given n samples: stage i makes n 2^i calls. -/
def UpLoops (gs : List Stage) (n : Nat) (G : Nat → Nat → Stage) (L : Nat → Nat → Word) : Prop :=
  ∀ i < gs.length, ∀ j < n * 2 ^ i,
    StageUpCall (G i j) (L i j) (G i (j + 1)) (L (i + 1) (2 * j)) (L (i + 1) (2 * j + 1))

/-- The loops of rule R188 over a chain that gives n samples. -/
def DownLoops (gs : List Stage) (n : Nat) (G : Nat → Nat → Stage) (L : Nat → Nat → Word) : Prop :=
  ∀ i < gs.length, ∀ j < n * 2 ^ i,
    StageDownCall (G i j) (L (i + 1) (2 * j)) (L (i + 1) (2 * j + 1)) (G i (j + 1)) (L i j)

/-- The stages after their calls. -/
def lastStages (S n : Nat) (G : Nat → Nat → Stage) : List Stage :=
  (List.range S).map fun i => G i (n * 2 ^ i)

theorem mul_two_pow_succ (n i : Nat) : n * 2 ^ (i + 1) = 2 * n * 2 ^ i := by
  rw [pow_succ]; ring

theorem lastStages_succ (S n : Nat) (G : Nat → Nat → Stage) :
    lastStages (S + 1) n G = G 0 n :: lastStages S (2 * n) fun i => G (i + 1) := by
  simp only [lastStages, map_range_succ, mul_two_pow_succ, pow_zero, mul_one]

theorem UpLoops.tail {g : Stage} {gs : List Stage} {n : Nat} {G : Nat → Nat → Stage}
    {L : Nat → Nat → Word} (h : UpLoops (g :: gs) n G L) :
    UpLoops gs (2 * n) (fun i => G (i + 1)) fun i => L (i + 1) :=
  fun i hi j hj => h (i + 1) (Nat.succ_lt_succ hi) j (mul_two_pow_succ n i ▸ hj)

theorem DownLoops.tail {g : Stage} {gs : List Stage} {n : Nat} {G : Nat → Nat → Stage}
    {L : Nat → Nat → Word} (h : DownLoops (g :: gs) n G L) :
    DownLoops gs (2 * n) (fun i => G (i + 1)) fun i => L (i + 1) :=
  fun i hi j hj => h (i + 1) (Nat.succ_lt_succ hi) j (mul_two_pow_succ n i ▸ hj)

theorem upChain?_of_loops {gs : List Stage} {n : Nat} {G : Nat → Nat → Stage} {L : Nat → Nat → Word}
    (hstart : StartsAt gs G) (h : UpLoops gs n G L) :
    upChain? gs ((List.range n).map (L 0)) = some
      (lastStages gs.length n G, (List.range (n * 2 ^ gs.length)).map (L gs.length)) := by
  induction gs generalizing n G L with
  | nil => simp [upChain?, lastStages]
  | cons g gs ih =>
    have hlevel := Stage.upEach?_of_calls fun j hj => h 0 (Nat.succ_pos _) j (by simpa using hj)
    rw [← hstart.head] at hlevel
    simp only [upChain?, hlevel, ih hstart.tail h.tail, Option.bind_eq_bind, Option.bind_some,
      List.length_cons, lastStages_succ, mul_two_pow_succ]

theorem exists_upLoops {gs : List Stage} {n : Nat} {f : Nat → Word} {r : List Stage × List Word}
    (h : upChain? gs ((List.range n).map f) = some r) :
    ∃ G L, StartsAt gs G ∧ L 0 = f ∧ UpLoops gs n G L := by
  induction gs generalizing n f r with
  | nil => exact ⟨fun _ _ => State.reset.buildStage 0#2, fun _ => f, nofun, rfl, nofun⟩
  | cons g gs ih =>
    obtain ⟨g1, nxt, rest, hlevel, hrest, _⟩ := upChain?_cons h
    obtain ⟨H, o, rfl, hcalls⟩ := Stage.exists_upCalls hlevel
    obtain ⟨_, rfl⟩ : H n = g1 ∧ (List.range (2 * n)).map o = nxt := by
      simpa only [Stage.upEach?_of_calls hcalls, Option.some.injEq, Prod.mk.injEq] using hlevel
    obtain ⟨G, L, hstart, rfl, hloops⟩ := ih hrest
    refine ⟨prepend H G, prepend f L, hstart.cons rfl, rfl, fun i hi j hj => ?_⟩
    cases i with
    | zero => exact hcalls j (by simpa using hj)
    | succ i => exact hloops i (Nat.lt_of_succ_lt_succ hi) j (mul_two_pow_succ n i ▸ hj)

theorem downChain?_of_loops {gs : List Stage} {n : Nat} {G : Nat → Nat → Stage}
    {L : Nat → Nat → Word} (hstart : StartsAt gs G) (h : DownLoops gs n G L) :
    downChain? gs ((List.range (n * 2 ^ gs.length)).map (L gs.length)) = some
      (lastStages gs.length n G, (List.range n).map (L 0)) := by
  induction gs generalizing n G L with
  | nil => simp [downChain?, lastStages]
  | cons g gs ih =>
    have hlevel := Stage.downEach?_of_calls fun j hj => h 0 (Nat.succ_pos _) j (by simpa using hj)
    rw [← hstart.head] at hlevel
    have hinner := ih hstart.tail h.tail
    simp only [downChain?, List.length_cons, mul_two_pow_succ, hinner, Option.bind_eq_bind,
      Option.bind_some, lastStages_succ]
    rw [hlevel]
    rfl

theorem exists_downLoops {gs : List Stage} {n : Nat} {f : Nat → Word} {r : List Stage × List Word}
    (h : downChain? gs ((List.range (n * 2 ^ gs.length)).map f) = some r) :
    ∃ G L, StartsAt gs G ∧ L gs.length = f ∧ DownLoops gs n G L := by
  induction gs generalizing n r with
  | nil => exact ⟨fun _ _ => State.reset.buildStage 0#2, fun _ => f, nofun, rfl, nofun⟩
  | cons g gs ih =>
    obtain ⟨rest, mid, g1, hinner, hlevel, _⟩ := downChain?_cons h
    rw [List.length_cons, mul_two_pow_succ] at hinner
    obtain ⟨G, L, hstart, hL, hloops⟩ := ih hinner
    obtain ⟨_, rfl⟩ : lastStages gs.length (2 * n) G = rest ∧ (List.range (2 * n)).map (L 0) = mid := by
      simpa only [← hL, downChain?_of_loops hstart hloops, Option.some.injEq, Prod.mk.injEq]
        using hinner
    obtain ⟨H, y, hH, hcalls⟩ := Stage.exists_downCalls hlevel
    refine ⟨prepend H G, prepend y L, hstart.cons hH, hL, fun i hi j hj => ?_⟩
    cases i with
    | zero => exact hcalls j (by simpa using hj)
    | succ i => exact hloops i (Nat.lt_of_succ_lt_succ hi) j (mul_two_pow_succ n i ▸ hj)

/-! ### The commands' loops -/

theorem upsCalls_iff (gs : List Stage) (x : Word) (G : Nat → Nat → Stage) (L : Nat → Nat → Word) :
    UpsCalls gs x G L ↔ StartsAt gs G ∧ L 0 0 = x ∧ UpLoops gs 1 G L := by
  simp only [UpsCalls, UpLoops, StartsAt, one_mul]

theorem dnsCalls_iff (gs : List Stage) (frame : List Word) (G : Nat → Nat → Stage)
    (L : Nat → Nat → Word) : DnsCalls gs frame G L ↔
      StartsAt gs G ∧ (∀ r < 2 ^ gs.length, frame[r]? = some (L gs.length r)) ∧
        DownLoops gs 1 G L := by
  simp only [DnsCalls, DownLoops, StartsAt, one_mul]

/-- `upsample` by the loops of rule R187. -/
theorem upChain?_of_upsCalls {gs : List Stage} {x : Word} {G : Nat → Nat → Stage}
    {L : Nat → Nat → Word} (h : UpsCalls gs x G L) : upChain? gs [x] = some
      (lastStages gs.length 1 G, (List.range (2 ^ gs.length)).map (L gs.length)) := by
  obtain ⟨hstart, rfl, hloops⟩ := (upsCalls_iff ..).mp h
  have hchain := upChain?_of_loops hstart hloops
  rw [one_mul] at hchain
  exact hchain

theorem exists_upsCalls {gs : List Stage} {x : Word} {r : List Stage × List Word}
    (h : upChain? gs [x] = some r) : ∃ G L, UpsCalls gs x G L := by
  obtain ⟨G, L, hstart, hL, hloops⟩ := exists_upLoops (n := 1) (f := fun _ => x) h
  exact ⟨G, L, (upsCalls_iff ..).mpr ⟨hstart, congrFun hL 0, hloops⟩⟩

/-- The first n samples of a frame that has them. -/
theorem take_eq_map_range {frame : List Word} {n : Nat} {f : Nat → Word}
    (h : ∀ r < n, frame[r]? = some (f r)) : frame.take n = (List.range n).map f := by
  apply List.ext_getElem?
  intro r
  rw [List.getElem?_take]
  split
  · simp [h r ‹_›, ‹_›]
  · simp [‹¬ r < n›]

theorem downsample?_of_downChain? {gs gs' : List Stage} {vec mid : List Word} {y : Word}
    (h : downChain? gs vec = some (gs', y :: mid)) : downsample? gs vec = some (gs', y) := by
  rw [downsample?, h]
  rfl

/-- `downsample` by the loops of rule R188. -/
theorem downsample?_of_dnsCalls {gs : List Stage} {frame : List Word} {G : Nat → Nat → Stage}
    {L : Nat → Nat → Word} (h : DnsCalls gs frame G L) :
    downsample? gs (frame.take (2 ^ gs.length)) = some (lastStages gs.length 1 G, L 0 0) := by
  obtain ⟨hstart, hframe, hloops⟩ := (dnsCalls_iff ..).mp h
  have hchain := downChain?_of_loops hstart hloops
  rw [one_mul] at hchain
  rw [take_eq_map_range hframe]
  exact downsample?_of_downChain? hchain

/-- One level down halves the samples. -/
theorem Stage.downEach?_length : ∀ {vec : List Word} {g g' : Stage} {out : List Word},
    g.downEach? vec = some (g', out) → out.length = vec.length / 2
  | [], _, _, _, h | [_], _, _, _, h => by
    simp only [Stage.downEach?, Option.some.injEq, Prod.mk.injEq] at h
    simp [← h.2]
  | _ :: _ :: _, _, _, _, h => by
    obtain ⟨_, _, _, _, htail, rfl⟩ := Stage.downEach?_cons h
    simp only [List.length_cons, Stage.downEach?_length htail]
    omega

/-- The cascade down divides the samples by 2^S, whatever their number. -/
theorem downChain?_length {gs gs' : List Stage} {vec out : List Word}
    (h : downChain? gs vec = some (gs', out)) : out.length = vec.length / 2 ^ gs.length := by
  induction gs generalizing gs' vec out with
  | nil =>
    simp only [downChain?, Option.some.injEq, Prod.mk.injEq] at h
    simp [h.2]
  | cons g gs ih =>
    obtain ⟨rest, mid, g1, hinner, hlevel, rfl⟩ := downChain?_cons h
    rw [Stage.downEach?_length hlevel, ih hinner, List.length_cons, pow_succ, Nat.div_div_eq_div_mul]

/-- A `downsample` that gives a sample had the whole frame of 2^S samples to read. -/
theorem length_le_of_downsample? {gs : List Stage} {vec : List Word} {r : List Stage × Word}
    (h : downsample? gs vec = some r) : 2 ^ gs.length ≤ vec.length := by
  obtain ⟨out, hchain, hhead⟩ := downsample?_eq_some (gs' := r.1) (y := r.2) h
  have hlen := downChain?_length hchain
  by_contra hshort
  rw [Nat.div_eq_of_lt (not_le.mp hshort)] at hlen
  rw [List.length_eq_zero_iff.mp hlen] at hhead
  cases hhead

theorem exists_dnsCalls {gs : List Stage} {frame : List Word} {r : List Stage × Word}
    (h : downsample? gs (frame.take (2 ^ gs.length)) = some r) : ∃ G L, DnsCalls gs frame G L := by
  have hlen := length_le_of_downsample? h
  have hframe : ∀ r < 2 ^ gs.length, frame[r]? = some (frame.getD r 0#32) := by
    intro r hr
    rw [List.length_take] at hlen
    rw [List.getD_eq_getElem _ _ (by omega), List.getElem?_eq_getElem]
  obtain ⟨out, hchain, _⟩ := downsample?_eq_some (gs' := r.1) (y := r.2) h
  rw [take_eq_map_range hframe, ← one_mul (2 ^ gs.length)] at hchain
  obtain ⟨G, L, hstart, hL, hloops⟩ := exists_downLoops hchain
  exact ⟨G, L, (dnsCalls_iff ..).mpr ⟨hstart, hL ▸ hframe, hloops⟩⟩

/-- `upsample` leaves the domain exactly when the loops of rule R187 have no calls (rule R128). -/
theorem State.upsample?_eq_none_iff (s : State) :
    s.upsample? = none ↔ ¬ ∃ G L, UpsCalls s.stages s.x G L := by
  rw [Option.eq_none_iff_forall_ne_some]
  exact ⟨fun h ⟨_, _, hcalls⟩ => h _ (upChain?_of_upsCalls hcalls), fun h _ hr => h (exists_upsCalls hr)⟩

/-- `downsample` leaves the domain exactly when the loops of rule R188 have no calls (rule R128). -/
theorem State.downsample?_frame_eq_none_iff (s : State) :
    downsample? s.stages (s.frame s.chainFactor) = none ↔
      ¬ ∃ G L, DnsCalls s.stages s.v.toList G L := by
  rw [Option.eq_none_iff_forall_ne_some]
  exact ⟨fun h ⟨_, _, hcalls⟩ => h _ (downsample?_of_dnsCalls hcalls),
    fun h _ hr => h (exists_dnsCalls hr)⟩

/-- The frame after the waveshaper, one step of rule R213 a sample. -/
theorem shapeFrame?_of_calls {v : Variant} {e : Word} {n : Nat} {k : Nat → Tracker}
    {a z : Nat → Word} (h : ∀ j < n, AdaaCall v e (k j) (a j) (k (j + 1)) (z j)) :
    shapeFrame? v e (k 0) ((List.range n).map a) = some (k n, (List.range n).map z) := by
  rw [shapeFrame?_eq]
  exact mapCalls?_of_calls fun j hj => (adaaStep?_iff ..).mpr (h j hj)

theorem exists_adaaCalls {v : Variant} {e : Word} {n : Nat} {t : Tracker} {a : Nat → Word}
    {r : Tracker × List Word} (h : shapeFrame? v e t ((List.range n).map a) = some r) :
    ∃ (k : Nat → Tracker) (z : Nat → Word), k 0 = t ∧
      ∀ j < n, AdaaCall v e (k j) (a j) (k (j + 1)) (z j) := by
  rw [shapeFrame?_eq] at h
  obtain ⟨k, z, hstart, hcalls⟩ := exists_calls_of_mapCalls? h
  exact ⟨k, z, hstart, fun j hj => (adaaStep?_iff ..).mp (hcalls j hj)⟩

/-- `PROC` computes its three parts one after another (rule R230). -/
theorem State.process?_of_parts {s : State} {up down : List Stage} {vec shaped : List Word}
    {k : Tracker} {y : Word} (hup : s.upsample? = some (up, vec))
    (hshape : shapeFrame? s.shape s.epsa s.tracker vec = some (k, shaped))
    (hdown : downsample? up shaped = some (down, y)) :
    s.process? = some { stages := down, frame := shaped, tracker := k, y := y } := by
  simp only [State.process?, hup, hshape, hdown, Option.bind_eq_bind, Option.bind_some]

theorem lastStages_one (S : Nat) (G : Nat → Nat → Stage) :
    lastStages S 1 G = (List.range S).map fun i => G i (2 ^ i) := by
  simp only [lastStages, one_mul]

theorem exists_process?_of_procCalls {s : State} (h : ProcCalls s) : ∃ r, s.process? = some r := by
  obtain ⟨G, H, L, M, k, z, hups, hk, hadaa, hdns⟩ := h
  have hdown := downsample?_of_dnsCalls hdns
  rw [List.length_map, List.length_range, List.take_of_length_le (by simp), ← lastStages_one] at hdown
  have hshape := shapeFrame?_of_calls hadaa
  rw [hk] at hshape
  exact ⟨_, State.process?_of_parts (upChain?_of_upsCalls hups) hshape hdown⟩

theorem procCalls_of_process? {s : State} {r : ProcResult} (h : s.process? = some r) :
    ProcCalls s := by
  obtain ⟨up, vec, hup, hshape, hdown⟩ := State.process?_eq_some h
  obtain ⟨G, L, hups⟩ := exists_upsCalls hup
  obtain ⟨rfl, rfl⟩ : lastStages s.stages.length 1 G = up ∧
      (List.range (2 ^ s.stages.length)).map (L s.stages.length) = vec := by
    simpa only [State.upsample?, upChain?_of_upsCalls hups, Option.some.injEq, Prod.mk.injEq] using hup
  obtain ⟨k, z, hk, hadaa⟩ := exists_adaaCalls hshape
  obtain ⟨_, hframe⟩ : k (2 ^ s.stages.length) = r.tracker ∧
      (List.range (2 ^ s.stages.length)).map z = r.frame := by
    simpa only [← hk, shapeFrame?_of_calls hadaa, Option.some.injEq, Prod.mk.injEq] using hshape
  rw [lastStages_one, ← hframe] at hdown
  have hwhole : ((List.range (2 ^ s.stages.length)).map z).take
      (2 ^ ((List.range s.stages.length).map fun i => G i (2 ^ i)).length) =
      (List.range (2 ^ s.stages.length)).map z := List.take_of_length_le (by simp)
  obtain ⟨H, M, hdns⟩ := exists_dnsCalls (hwhole.symm ▸ hdown)
  exact ⟨G, H, L, M, k, z, hups, hk, hadaa, hdns⟩

/-- `PROC` leaves the domain exactly when the loops of rule R230 have no calls (rule R128; log 16). -/
theorem State.process?_eq_none_iff (s : State) : s.process? = none ↔ ¬ ProcCalls s := by
  rw [Option.eq_none_iff_forall_ne_some]
  exact ⟨fun h hcalls => let ⟨_, hr⟩ := exists_process?_of_procCalls hcalls; h _ hr,
    fun h _ hr => h (procCalls_of_process? hr)⟩

end Machine

end Sys2Proof
end

section
/-! PROOFS. What `UPS`, `DNS` and `PROC` leave, inside the finite domain and outside it (rules R128, R187,
R188, R230). -/

open Sys2Proof.Stated

namespace Sys2Proof

namespace Machine

section
variable {s : State}

theorem exec_ups_inside {gs : List Stage} {vec : List Word} (hosr : s.osr = true)
    (h : s.upsample? = some (gs, vec)) :
    exec .ups s = .next { s with stages := gs, v := writeFrame s.v vec } := by
  simp only [exec, execUps, hosr, if_true, h]

theorem exec_ups_outside (hosr : s.osr = true) (h : s.upsample? = none) :
    exec .ups s = .next { s with
      stages := s.freeUpChain s.stages 1 0
      v := writeFrame s.v (s.freeWords (chainFree s.S) s.chainFactor)
      free := s.free + chainFree s.S + s.chainFactor } := by
  simp only [exec, execUps, hosr, if_true, h]

theorem exec_dns_inside {gs : List Stage} {y : Word} (hosr : s.osr = true)
    (h : downsample? s.stages (s.frame s.chainFactor) = some (gs, y)) :
    exec .dns s = .next { s with stages := gs, y := y } := by
  simp only [exec, execDns, hosr, if_true, h]

theorem exec_dns_outside (hosr : s.osr = true)
    (h : downsample? s.stages (s.frame s.chainFactor) = none) :
    exec .dns s = .next { s with
      stages := s.freeDownChain s.stages 1 0
      y := s.freeAt (chainFree s.S)
      free := s.free + chainFree s.S + 1 } := by
  simp only [exec, execDns, hosr, if_true, h]

theorem exec_proc_inside {r : ProcResult} (hosr : s.osr = true) (hwsr : s.wsr = true)
    (h : s.process? = some r) : exec .proc s = .next { s with
      stages := r.stages, v := writeFrame s.v r.frame, xprev := r.tracker.xprev,
      adprev := r.tracker.adprev, y := r.y } := by
  simp only [exec, execProc, hosr, hwsr, Bool.and_self, if_true, h]

/-- A frame of F samples reaches no register past V[F-1] (rule R187). -/
theorem writeFrame_freeWords_past {v : Vector Word 16} {skip : Nat} (i : Nat) (hi : i < 16)
    (h : 2 ^ s.stages.length ≤ i) : (writeFrame v (s.freeWords skip s.chainFactor))[i] = v[i] :=
  writeFrame_past v _ i hi (by simpa [State.chainFactor, State.S] using h)

/-- The frame that `PROC` gives has F samples (rule R230). -/
theorem State.process?_frame_length {r : ProcResult} (h : s.process? = some r) :
    r.frame.length = 2 ^ s.stages.length := by
  obtain ⟨up, vec, hup, hshape, _⟩ := State.process?_eq_some h
  rw [shapeFrame?_length hshape, (upChain?_spec hup).1]
  exact mul_one _

end

end Machine

open Machine

/-- Settles O40: outside the domain the chain takes free words by upsampling work, and the frame is F free
words long. -/
theorem upsEffect : Obligations.UpsEffect := by
  intro s hosr
  refine ⟨fun gs vec h => exec_ups_inside hosr h, fun hnone =>
    ⟨_, exec_ups_outside hosr (s.upsample?_eq_none_iff.mpr hnone), ?_, rfl,
      (s.freeUpChain_work _ _ _).imp fun _ _ w => ⟨w.kept.1, w.sameDown⟩,
      fun i hi hpast => writeFrame_freeWords_past i hi hpast⟩⟩
  have hpos : 0 < s.chainFactor := Nat.two_pow_pos _
  show s.free < s.free + chainFree s.S + s.chainFactor
  omega

/-- Settles O42: outside the domain the chain takes free words by downsampling work. -/
theorem dnsEffect : Obligations.DnsEffect := by
  intro s hosr
  refine ⟨fun gs mid y h => exec_dns_inside hosr ?_, fun hnone =>
    ⟨_, exec_dns_outside hosr (s.downsample?_frame_eq_none_iff.mpr hnone), ?_, rfl,
      (s.freeDownChain_work _ _ _).imp fun _ _ w => ⟨w.kept.1, w.sameUp⟩⟩⟩
  · exact downsample?_of_downChain? h
  · show s.free < s.free + chainFree s.S + 1
    omega

/-- Settles O48: the three parts given are the three parts of `PROC`. -/
theorem procEffect : Obligations.ProcEffect :=
  fun _ _ _ _ _ _ _ _ hosr hwsr hup hshape hdown =>
    exec_proc_inside hosr hwsr (State.process?_of_parts hup hshape (downsample?_of_downChain? hdown))

/-- Settles O49: `PROC` is signal work that keeps every filter, and its frame has F samples in both
cases. -/
theorem procLeavesRest : Obligations.ProcLeavesRest := by
  intro s t hosr hwsr h
  have hfilter : List.Forall₂ Stage.sameFilter s.stages t.stages :=
    exec_forall₂_stages Stage.sameFilter_refl h nofun fun _ _ w => (stageWork_kept w).1
  obtain ⟨hbuilt, _⟩ | ⟨_, ⟨r, hr, rfl⟩ | ⟨_, rfl⟩⟩ := exec_proc_cases h
  · exact absurd ⟨hosr, hwsr⟩ hbuilt
  · exact ⟨rfl, fun i hi hpast =>
      writeFrame_past s.v _ i hi ((State.process?_frame_length hr).le.trans hpast), hfilter⟩
  · exact ⟨rfl, fun i hi hpast => writeFrame_freeWords_past i hi hpast, hfilter⟩

end Sys2Proof
end

section
/-! PROOFS. The strict step: an event reads unwritten staging, or leaves the finite domain, exactly when the
rules say so (rules R128, R182, R183, R271, U8). -/

open Sys2Proof.Stated

namespace Sys2Proof

namespace Machine

/-! ### What an accepted `SETF` takes from staging -/

theorem stageCount?_eq_some_iff (imm8 : Byte) (n : Nat) :
    stageCount? imm8 = some n ↔ 1 ≤ n ∧ n ≤ 4 ∧ imm8.toNat = 2 ^ n := by
  constructor
  · intro h
    simp only [stageCount?] at h
    split_ifs at h with h1 h2 h3 h4 <;> cases h <;> subst_vars <;> decide
  · rintro ⟨hlow, hhigh, himm⟩
    obtain rfl : imm8 = BitVec.ofNat 8 (2 ^ n) := by rw [← himm, BitVec.ofNat_toNat, BitVec.setWidth_eq]
    interval_cases n <;> rfl

theorem badLength_eq_false_iff (n : Nat) : badLength n = false ↔ ¬ BadLength n := by
  have htrue : badLength n = true ↔ BadLength n := by
    simp only [badLength, Bool.or_eq_true, decide_eq_true_eq, bne_iff_ne, or_assoc]
    rfl
  rw [← Bool.not_eq_true, htrue]

theorem toNat_tapLength (s : State) {j : Nat} (hj : j < 4) :
    (s.tapLength (BitVec.ofNat 2 j)).toNat = stagedLength s j := by
  have hval : (BitVec.ofNat 2 j).toNat = j := by
    rw [BitVec.toNat_ofNat]
    exact Nat.mod_eq_of_lt (by omega)
  simp [State.tapLength, stagedLength, hval, hj]

/-- No needed stage is reported when every staged length passes rule R182's test. -/
theorem State.firstBadStage_eq_none_iff (s : State) {n : Nat} (hn : n ≤ 4) :
    s.firstBadStage n = none ↔ ∀ j < n, ¬ BadLength (stagedLength s j) := by
  constructor
  · intro h j hj
    rw [← badLength_eq_false_iff, ← toNat_tapLength s (by omega)]
    exact State.goodLength_of_firstBadStage h hn hj
  · intro h
    refine List.find?_eq_none.mpr fun st _ => ?_
    have hgood : st.toNat < n → badLength (s.tapLength st).toNat = false := fun hst => by
      have hlen := toNat_tapLength s st.isLt
      rw [BitVec.ofNat_toNat, BitVec.setWidth_eq] at hlen
      rw [badLength_eq_false_iff, hlen]
      exact h _ hst
    simpa using hgood

theorem acceptedFactor_iff (s : State) (imm8 : Byte) (n : Nat) :
    AcceptedFactor s imm8 n ↔ stageCount? imm8 = some n ∧ s.firstBadStage n = none := by
  rw [AcceptedFactor, stageCount?_eq_some_iff, and_assoc, and_assoc]
  refine and_congr_right' (and_congr_right fun hn => and_congr_right' ?_)
  exact (s.firstBadStage_eq_none_iff hn).symm

/-- A staging word is unwritten when one of its four bytes is. -/
theorem State.tapWritten_eq_false_iff (s : State) (st i : Nat) :
    s.tapWritten st i = false ↔ ∃ k < 4, Memory.byte? s.taps (tapOffset st i + k) = none := by
  simp [State.tapWritten, List.all_eq_false]

theorem State.tapsMissing_iff (s : State) (st n : Nat) : s.tapsMissing st n = true ↔
    ∃ i < n, ∃ k < 4, Memory.byte? s.taps (tapOffset st i + k) = none := by
  simp [State.tapsMissing, ← State.tapWritten_eq_false_iff]

theorem State.setfMissing_iff (s : State) (imm8 : Byte) : s.setfMissing imm8 = true ↔
    ∃ n, AcceptedFactor s imm8 n ∧ ∃ j < n, ∃ i < stagedLength s j, ∃ k < 4,
      Memory.byte? s.taps (tapOffset j i + k) = none := by
  simp only [acceptedFactor_iff, ← State.tapsMissing_iff]
  unfold State.setfMissing
  cases hcount : stageCount? imm8 with
  | none => simp
  | some n =>
    obtain ⟨_, hn⟩ := stageCount?_bounds hcount
    have hlen : ∀ j < n, (s.tapLength (BitVec.ofNat 2 j)).toNat = stagedLength s j :=
      fun j hj => toNat_tapLength s (by omega)
    simp only [Bool.and_eq_true, Option.isNone_iff_eq_none, List.any_eq_true, List.mem_range,
      Option.some.injEq]
    constructor
    · rintro ⟨hgood, j, hj, hmissing⟩
      exact ⟨n, ⟨rfl, hgood⟩, j, hj, hlen j hj ▸ hmissing⟩
    · rintro ⟨_, ⟨rfl, hgood⟩, j, hj, hmissing⟩
      exact ⟨hgood, j, hj, (hlen j hj).symm ▸ hmissing⟩

/-- Only `SETF` reads TAPS (rule R71). -/
theorem State.commandMissing_iff (s : State) (w : Word) : s.commandMissing w = true ↔
    ∃ imm8, decode w = .ok (.setf imm8) ∧ s.setfMissing imm8 = true := by
  unfold State.commandMissing
  split <;> simp_all

/-- The words of TAPS are those of 0x400 .. 0x13FF (rules R32, R66). -/
theorem exists_regAt_taps {a : PortAddr} (hlow : 0x100 ≤ a.toNat) (hhigh : a.toNat < 0x500) :
    ∃ st i, regAt a = .taps st i := by
  refine ⟨BitVec.ofNat 2 (a.toNat / 0x100 - 1), BitVec.ofNat 8 (a.toNat % 0x100), regAt_of_addr? ?_⟩
  rw [Reg.addr?, Option.some.injEq]
  apply BitVec.eq_of_toNat_eq
  simp only [BitVec.toNat_ofNat]
  omega

/-- `TAPS[st][i]` stands at its own byte offset (rules R32, R66). -/
theorem tapOffset_eq_of_regAt {a : PortAddr} {st : StageIx} {i : Byte} (h : regAt a = .taps st i) :
    tapOffset st.toNat i.toNat = 4 * a.toNat := by
  obtain rfl := Option.some.inj (addr?_of_regAt h nofun)
  have hst := st.isLt
  have hi := i.isLt
  rw [tapOffset, BitVec.toNat_ofNat]
  omega

theorem eventMissing_read_iff (s : State) (a : PortAddr) :
    s.eventMissing (.read a) = true ↔ ReadsUnwritten s (.read a) := by
  constructor
  · intro h
    unfold State.eventMissing at h
    cases hreg : regAt a with
    | taps st i =>
      obtain ⟨hlow, hhigh⟩ := regAt_eq_taps hreg
      simp only [hreg, Bool.not_eq_true', State.tapWritten_eq_false_iff,
        tapOffset_eq_of_regAt hreg] at h
      exact ⟨hlow, hhigh, h⟩
    | _ => simp [hreg] at h
  · rintro ⟨hlow, hhigh, hmissing⟩
    obtain ⟨st, i, hreg⟩ := exists_regAt_taps hlow hhigh
    simpa only [State.eventMissing, hreg, Bool.not_eq_true', State.tapWritten_eq_false_iff,
      tapOffset_eq_of_regAt hreg] using hmissing

/-- The model's test of an event is U8's. -/
theorem eventMissing_iff (s : State) (e : PortEvent) :
    s.eventMissing e = true ↔ ReadsUnwritten s e := by
  cases e with
  | read a => exact eventMissing_read_iff s a
  | reset => simp [State.eventMissing, ReadsUnwritten]
  | write a w =>
    rw [State.eventMissing, Bool.and_eq_true, decide_eq_true_iff, State.commandMissing_iff]
    simp only [State.setfMissing_iff]
    exact and_congr_right' ⟨fun ⟨imm8, hdecode, n, htaken⟩ => ⟨imm8, n, hdecode, htaken⟩,
      fun ⟨imm8, n, hdecode, htaken⟩ => ⟨imm8, hdecode, n, htaken⟩⟩

/-! ### A command uses free words exactly outside its domain -/

theorem Ring.convolve?_eq_none_iff (c : Nat) (B : Ring) (T : List Word) :
    B.convolve? c T = none ↔ ¬ ConvolveFinite c B T := by
  rw [← (convolveLaneOrder c B T).2, Option.not_isSome_iff_eq_none]

theorem not_outsideDomain_of_missing_stage {s : State} {st : StageIx} {p : Stage → Prop}
    (h : s.stage? st = none) : ¬ ∃ g, s.stages[st.toNat]? = some g ∧ p g :=
  fun ⟨_, hg, _⟩ => nomatch h.symm.trans hg

theorem outside_stage_iff {s : State} {st : StageIx} {g : Stage} {p : Stage → Prop}
    (hg : s.stage? st = some g) : (∃ g, s.stages[st.toNat]? = some g ∧ p g) ↔ p g := by
  have hget : s.stages[st.toNat]? = some g := hg
  simp [hget]

/-- A command uses free words exactly when it is accepted and outside its domain (rule R128; log 1). -/
theorem exec_free_ne_iff {i : Instr} {s t : State} (h : exec i s = .next t) :
    t.free ≠ s.free ↔ OutsideDomain s i := by
  cases i with
  | setf imm8 =>
    obtain ⟨_, rfl⟩ | ⟨n, _, ⟨st, _, rfl⟩ | ⟨_, rfl⟩⟩ := exec_setf_cases h <;> simp [OutsideDomain]
  | shinit v =>
    obtain ⟨_, rfl⟩ | ⟨_, rfl⟩ := exec_shinit_cases h <;> simp [OutsideDomain]
  | push d st b va =>
    obtain ⟨_, rfl⟩ | ⟨g, _, rfl⟩ := exec_push_cases h <;> simp [OutsideDomain]
  | conv d st b tb vd =>
    obtain ⟨hnone, rfl⟩ | ⟨g, hg, hcase⟩ := exec_conv_cases h
    · exact iff_of_false (by simp) (not_outsideDomain_of_missing_stage hnone)
    · rw [OutsideDomain, outside_stage_iff hg, ← Ring.convolve?_eq_none_iff]
      obtain ⟨a, ha, rfl⟩ | ⟨hnone, rfl⟩ := hcase
      · simp [ha]
      · simp [hnone]
  | stup st vd va =>
    obtain ⟨hnone, rfl⟩ | ⟨g, hg, hcase⟩ := exec_stup_cases h
    · exact iff_of_false (by simp) (not_outsideDomain_of_missing_stage hnone)
    · rw [OutsideDomain, outside_stage_iff hg, ← Stage.up?_eq_none_iff]
      obtain ⟨g', o0, o1, hup, rfl⟩ | ⟨hnone, rfl⟩ := hcase
      · simp [hup]
      · simp [hnone]
  | stdn st vd va =>
    obtain ⟨hnone, rfl⟩ | ⟨g, hg, hcase⟩ := exec_stdn_cases h
    · exact iff_of_false (by simp) (not_outsideDomain_of_missing_stage hnone)
    · rw [OutsideDomain, outside_stage_iff hg, ← Stage.down?_eq_none_iff, ← pairNext]
      obtain ⟨g', y, hdown, rfl⟩ | ⟨hnone, rfl⟩ := hcase
      · simp [hdown]
      · simp [hnone]
  | ups =>
    rw [OutsideDomain, ← State.upsample?_eq_none_iff]
    obtain ⟨hosr, rfl⟩ | ⟨hosr, ⟨gs, vec, hup, rfl⟩ | ⟨hnone, rfl⟩⟩ := exec_ups_cases h
    · simp [hosr]
    · simp [hup]
    · have hpos : 0 < s.chainFactor := Nat.two_pow_pos _
      simp [hosr, hnone]
      omega
  | dns =>
    rw [OutsideDomain, ← State.downsample?_frame_eq_none_iff]
    obtain ⟨hosr, rfl⟩ | ⟨hosr, ⟨gs, y, hdown, rfl⟩ | ⟨hnone, rfl⟩⟩ := exec_dns_cases h
    · simp [hosr]
    · simp [hdown]
    · simp [hosr, hnone]
      omega
  | shp vd va =>
    have htracker : trackerOf s = s.tracker := rfl
    rw [OutsideDomain, ← adaaStep?_eq_none_iff, htracker]
    obtain ⟨hwsr, rfl⟩ | ⟨hwsr, ⟨k, y, hstep, rfl⟩ | ⟨hnone, rfl⟩⟩ := exec_shp_cases h
    · simp [hwsr]
    · simp [hstep]
    · simp [hwsr, hnone]
  | proc =>
    rw [OutsideDomain, ← State.process?_eq_none_iff]
    obtain ⟨hbuilt, rfl⟩ | ⟨⟨hosr, hwsr⟩, ⟨r, hr, rfl⟩ | ⟨hnone, rfl⟩⟩ := exec_proc_cases h
    · simpa using fun hosr hwsr _ => hbuilt ⟨hosr, hwsr⟩
    · simp [hr]
    · simp [hosr, hwsr, hnone]
      omega

/-- What is outside the domain does not depend on CMD or on the queue. -/
theorem outsideDomain_pending_cmd (s : State) (rest : List PortEvent) (w : Word) (i : Instr) :
    OutsideDomain { s with pending := rest, cmd := w } i ↔ OutsideDomain s i := by
  cases i <;> rfl

/-- A step uses free words exactly when it runs a command outside its domain. -/
theorem step_free_ne_iff {s t : State} (h : step s = .next t) : t.free ≠ s.free ↔
    ∃ w i rest, s.pending = .write 0#11 w :: rest ∧ decode w = .ok i ∧ OutsideDomain s i := by
  obtain ⟨hnil, rfl⟩ | ⟨e, rest, hpending, hserved⟩ := step_cases h
  · simp [hnil]
  simp only [hpending, List.cons.injEq]
  obtain ⟨a, rfl, rfl⟩ | ⟨w, rfl, hrun⟩ | ⟨a, v, rfl, ha, rfl⟩ | ⟨rfl, rfl⟩ := hserved
  · simp
  · obtain ⟨i, hdecode, hexec⟩ | ⟨_, hdecode, rfl⟩ := runCommand_cases hrun
    · have hfree := (exec_free_ne_iff hexec).trans (outsideDomain_pending_cmd s rest w i)
      simp [cmdAddr, hdecode, ← hfree]
    · simp [cmdAddr, hdecode]
  · simp [show a ≠ 0#11 from ha]
  · simp

/-! ### The strict step -/

theorem strictStep_eq_unwrittenTaps_iff (s : State) : strictStep s = .fault .unwrittenTaps ↔
    s.pending.head?.any s.eventMissing = true := by
  refine ⟨fun h => ?_, strictStep_of_missing⟩
  by_contra hm
  obtain ⟨t, ht⟩ := step_total s
  by_cases hfree : t.free = s.free
  · rw [strictStep_of_inside (Bool.eq_false_iff.mpr hm) ht hfree] at h
    cases h
  · rw [strictStep_of_outside (Bool.eq_false_iff.mpr hm) ht hfree] at h
    cases h

theorem strictStep_eq_outsideDomain_iff {s t : State} (ht : step s = .next t) :
    strictStep s = .fault .outsideDomain ↔
      s.pending.head?.any s.eventMissing = false ∧ t.free ≠ s.free := by
  refine ⟨fun h => ?_, fun ⟨hm, hfree⟩ => strictStep_of_outside hm ht hfree⟩
  cases hm : s.pending.head?.any s.eventMissing with
  | true => rw [strictStep_of_missing hm] at h; cases h
  | false =>
    refine ⟨rfl, fun hfree => ?_⟩
    rw [strictStep_of_inside hm ht hfree] at h
    cases h

/-- The next event takes an unwritten staging byte (rule R271, U8). -/
theorem headMissing_iff (s : State) : s.pending.head?.any s.eventMissing = true ↔
    ∃ e rest, s.pending = e :: rest ∧ ReadsUnwritten s e := by
  cases hpending : s.pending with
  | nil => simp
  | cons e rest => simp [eventMissing_iff]

/-- No processing command takes a staging byte, so the two faults exclude each other. -/
theorem not_readsUnwritten_of_outsideDomain {s : State} {w : Word} {i : Instr}
    (hdecode : decode w = .ok i) (h : OutsideDomain s i) : ¬ ReadsUnwritten s (.write 0#11 w) := by
  rintro ⟨_, imm8, n, hsetf, _⟩
  obtain rfl : i = .setf imm8 := Except.ok.inj (hdecode.symm.trans hsetf)
  exact h

end Machine

open Machine

/-- Settles O60: the test of the event is U8's, and a step uses free words exactly when it runs a command
outside its domain. -/
theorem strictStepIsSpecModel : Obligations.StrictStepIsSpecModel := by
  intro s
  obtain ⟨t, ht⟩ := step_total s
  rw [strictStep_eq_unwrittenTaps_iff, strictStep_eq_outsideDomain_iff ht, step_free_ne_iff ht,
    ← Bool.not_eq_true, headMissing_iff]
  refine ⟨Iff.rfl, and_iff_right_of_imp ?_, fun hread houtside => ?_⟩
  · rintro ⟨w, i, rest, hpending, hdecode, houtside⟩ ⟨e, rest', hpending', hread⟩
    obtain ⟨rfl, _⟩ := List.cons.inj (hpending.symm.trans hpending')
    exact not_readsUnwritten_of_outsideDomain hdecode houtside hread
  · have hm : s.pending.head?.any s.eventMissing = false := by
      rw [← Bool.not_eq_true, headMissing_iff]
      exact fun ⟨e, rest, hpending, h⟩ => hread e rest hpending h
    have hfree : t.free = s.free := by
      by_contra hne
      obtain ⟨w, i, rest, hpending, hdecode, h⟩ := (step_free_ne_iff ht).mp hne
      exact houtside w i rest hpending hdecode h
    rw [strictStep_of_inside hm ht hfree, ht]

end Sys2Proof
end

section
/-! PROOFS. The commands on one ring buffer: what `PUSH` leaves, and that whatever does not disturb a buffer
keeps every operand of a `CONV` on it (rules R140, R147, R149). -/

open Sys2Proof.Stated

namespace Sys2Proof

namespace Machine

theorem exec_push_built {s : State} {d : Dir} {st : StageIx} {b : Branch} {va : VReg} {g : Stage}
    (hg : s.stages[st.toNat]? = some g) :
    exec (.push d st b va) s =
      .next (s.setStage st (g.setRing d b ((g.ring d b).push g.c (s.readV va)))) := by
  simp only [exec, execPush, State.stage?, hg]

/-! ### The operands of `CONV` -/

/-- What `CONV` reads of its stage: the capacity, the buffer and the tap array (rule R148). -/
def Stage.convOperands (d : Dir) (b tb : Branch) (g : Stage) : Nat × Ring × List Word :=
  (g.c, g.ring d b, g.taps tb)

/-- What `CONV` reads of the state, when its stage is built. -/
def State.convOperands? (s : State) (d : Dir) (st : StageIx) (b tb : Branch) :
    Option (Nat × Ring × List Word) :=
  (s.stage? st).map (Stage.convOperands d b tb)

/-- A `CONV` inside the domain writes the dot product of its operands and nothing else. -/
theorem exec_conv_operands {s : State} {d : Dir} {st : StageIx} {b tb : Branch} {vd : VReg} {c : Nat}
    {B : Ring} {T : List Word} {y : Word} (h : s.convOperands? d st b tb = some (c, B, T))
    (hy : B.convolve? c T = some y) : exec (.conv d st b tb vd) s = .next (s.writeV vd y) := by
  obtain ⟨g, hg, hop⟩ := Option.map_eq_some_iff.mp h
  cases hop
  exact exec_conv_inside hg hy

/-- A `CONV` of a built stage that used no free word read operands with a dot product (rule R128). -/
theorem exec_conv_stayed {s t : State} {d : Dir} {st : StageIx} {b tb : Branch} {vd : VReg}
    (h : exec (.conv d st b tb vd) s = .next t) (hfree : t.free = s.free)
    (hst : st.toNat < s.stages.length) : ∃ c B T y,
      s.convOperands? d st b tb = some (c, B, T) ∧ B.convolve? c T = some y ∧ t = s.writeV vd y := by
  obtain ⟨hnone, _⟩ | ⟨g, hg, ⟨y, hy, ht⟩ | ⟨_, rfl⟩⟩ := exec_conv_cases h
  · exact absurd hst (by simpa [State.stage?] using hnone)
  · exact ⟨g.c, g.ring d b, g.taps tb, y, by simp [State.convOperands?, hg, Stage.convOperands], hy, ht⟩
  · simp at hfree

/-- The two stages give `CONV` the same operands. -/
def Stage.SameConvOperands (d : Dir) (b tb : Branch) (g h : Stage) : Prop :=
  h.convOperands d b tb = g.convOperands d b tb

theorem Stage.SameConvOperands.refl {d : Dir} {b tb : Branch} (g : Stage) :
    g.SameConvOperands d b tb g := rfl

theorem map_convOperands_eq {d : Dir} {b tb : Branch} {gs hs : List Stage}
    (h : List.Forall₂ (Stage.SameConvOperands d b tb) gs hs) :
    hs.map (Stage.convOperands d b tb) = gs.map (Stage.convOperands d b tb) := by
  induction h with
  | nil => rfl
  | cons hg _ ih => exact congrArg₂ List.cons hg ih

/-- The operands are the filter and the one buffer. -/
theorem Stage.sameConvOperands_of_sameFilter {d : Dir} {b tb : Branch} {g h : Stage}
    (hfilter : g.sameFilter h) (hring : h.ring d b = g.ring d b) : g.SameConvOperands d b tb h := by
  obtain ⟨_, hc, he, ho⟩ := hfilter
  cases tb <;> simp [Stage.SameConvOperands, Stage.convOperands, Stage.taps, hc, hring, he, ho]

theorem Stage.UpWork.sameConvOperands {b tb : Branch} {g h : Stage} (w : g.UpWork h) :
    g.SameConvOperands .down b tb h := by
  obtain ⟨hfilter, ⟨hE, hO⟩, _⟩ := w
  cases b with
  | even => exact Stage.sameConvOperands_of_sameFilter hfilter hE
  | odd => exact Stage.sameConvOperands_of_sameFilter hfilter hO

theorem Stage.DownWork.sameConvOperands {b tb : Branch} {g h : Stage} (w : g.DownWork h) :
    g.SameConvOperands .up b tb h := by
  obtain ⟨hfilter, ⟨hE, hO⟩, _⟩ := w
  cases b with
  | even => exact Stage.sameConvOperands_of_sameFilter hfilter hE
  | odd => exact Stage.sameConvOperands_of_sameFilter hfilter hO

theorem Stage.sameConvOperands_setRing_other {d d' : Dir} {b b' tb : Branch} (g : Stage) (B : Ring)
    (h : ¬ (d' = d ∧ b' = b)) : g.SameConvOperands d b tb (g.setRing d' b' B) :=
  Stage.sameConvOperands_of_sameFilter ⟨by simp, by simp, by simp, by simp⟩
    (Stage.ring_setRing_other g d' d b' b B fun ⟨hd, hb⟩ => h ⟨hd.symm, hb.symm⟩)

/-! ### What keeps the operands -/

section
variable {s t : State} {d : Dir} {st : StageIx} {b tb : Branch}

theorem State.convOperands?_of_stages_eq (h : t.stages = s.stages) :
    t.convOperands? d st b tb = s.convOperands? d st b tb := by
  simp only [State.convOperands?, State.stage?, h]

theorem State.convOperands?_of_forall₂
    (h : List.Forall₂ (Stage.SameConvOperands d b tb) s.stages t.stages) :
    t.convOperands? d st b tb = s.convOperands? d st b tb := by
  simp only [State.convOperands?, State.stage?, ← List.getElem?_map, map_convOperands_eq h]

/-- Replacing one stage keeps the operands if the new stage, where it is theirs, gives the same. -/
theorem State.convOperands?_of_setStage {st' : StageIx} {g g' : Stage} (hg : s.stage? st' = some g)
    (ht : t.stages = s.stages.set st'.toNat g')
    (hop : st' = st → g.SameConvOperands d b tb g') :
    t.convOperands? d st b tb = s.convOperands? d st b tb := by
  by_cases hst : st' = st
  · refine State.convOperands?_of_forall₂ ?_
    rw [ht]
    exact forall₂_set Stage.SameConvOperands.refl hg (hop hst)
  · have hne : st'.toNat ≠ st.toNat := fun h => hst (BitVec.eq_of_toNat_eq h)
    simp [State.convOperands?, State.stage?, ht, List.getElem?_set_ne hne]

theorem exec_push_convOperands? {d' : Dir} {st' : StageIx} {b' : Branch} {va : VReg}
    (h : exec (.push d' st' b' va) s = .next t) (hother : ¬ (d' = d ∧ st' = st ∧ b' = b)) :
    t.convOperands? d st b tb = s.convOperands? d st b tb := by
  obtain ⟨_, rfl⟩ | ⟨g, hg, rfl⟩ := exec_push_cases h
  · rfl
  · exact State.convOperands?_of_setStage hg rfl fun hst =>
      Stage.sameConvOperands_setRing_other g _ fun ⟨hd, hb⟩ => hother ⟨hd, hst, hb⟩

/-- Inside the domain or outside it, `STUP` does upsampling work on one stage. -/
theorem exec_stup_convOperands? {st' : StageIx} {vd va : VReg}
    (h : exec (.stup st' vd va) s = .next t) (hother : ¬ (d = .up ∧ st' = st)) :
    t.convOperands? d st b tb = s.convOperands? d st b tb := by
  have hkeep {g g' : Stage} (w : g.UpWork g') (hst : st' = st) :
      g.SameConvOperands d b tb g' := by
    cases d with
    | up => exact absurd ⟨rfl, hst⟩ hother
    | down => exact w.sameConvOperands
  obtain ⟨_, rfl⟩ | ⟨g, hg, ⟨g', o0, o1, hup, rfl⟩ | ⟨_, rfl⟩⟩ := exec_stup_cases h
  · rfl
  · exact State.convOperands?_of_setStage hg rfl (hkeep (Stage.upWork_up hup))
  · exact State.convOperands?_of_setStage hg rfl (hkeep (g.upWork_freeUp _ _ _ _))

/-- Inside the domain or outside it, `STDN` does downsampling work on one stage. -/
theorem exec_stdn_convOperands? {st' : StageIx} {vd va : VReg}
    (h : exec (.stdn st' vd va) s = .next t) (hother : ¬ (d = .down ∧ st' = st)) :
    t.convOperands? d st b tb = s.convOperands? d st b tb := by
  have hkeep {g g' : Stage} (w : g.DownWork g') (hst : st' = st) :
      g.SameConvOperands d b tb g' := by
    cases d with
    | up => exact w.sameConvOperands
    | down => exact absurd ⟨rfl, hst⟩ hother
  obtain ⟨_, rfl⟩ | ⟨g, hg, ⟨g', y, hdown, rfl⟩ | ⟨_, rfl⟩⟩ := exec_stdn_cases h
  · rfl
  · exact State.convOperands?_of_setStage hg rfl (hkeep (Stage.downWork_down hdown))
  · exact State.convOperands?_of_setStage hg rfl (hkeep (g.downWork_freeDown _ _ _ _))

theorem exec_ups_convOperands? (h : exec .ups s = .next t) (hother : ¬ (d = .up ∧ s.osr = true)) :
    t.convOperands? d st b tb = s.convOperands? d st b tb := by
  obtain ⟨_, rfl⟩ | ⟨hosr, _⟩ := exec_ups_cases h
  · rfl
  · cases d with
    | up => exact absurd ⟨rfl, hosr⟩ hother
    | down =>
      exact State.convOperands?_of_forall₂ (exec_forall₂_stages Stage.SameConvOperands.refl h nofun
        fun _ _ => Stage.UpWork.sameConvOperands)

theorem exec_dns_convOperands? (h : exec .dns s = .next t) (hother : ¬ (d = .down ∧ s.osr = true)) :
    t.convOperands? d st b tb = s.convOperands? d st b tb := by
  obtain ⟨_, rfl⟩ | ⟨hosr, _⟩ := exec_dns_cases h
  · rfl
  · cases d with
    | up =>
      exact State.convOperands?_of_forall₂ (exec_forall₂_stages Stage.SameConvOperands.refl h nofun
        fun _ _ => Stage.DownWork.sameConvOperands)
    | down => exact absurd ⟨rfl, hosr⟩ hother

theorem exec_setf_convOperands? {imm8 : Byte} (h : exec (.setf imm8) s = .next t)
    (hrejected : ¬ ∃ n, AcceptedFactor s imm8 n) :
    t.convOperands? d st b tb = s.convOperands? d st b tb := by
  obtain ⟨_, rfl⟩ | ⟨n, hcount, ⟨_, _, rfl⟩ | ⟨hgood, _⟩⟩ := exec_setf_cases h
  · rfl
  · rfl
  · exact absurd ⟨n, (acceptedFactor_iff ..).mpr ⟨hcount, hgood⟩⟩ hrejected

/-- A command that does not disturb the buffer keeps the operands: the case analysis of rule R149. -/
theorem exec_convOperands? {w : Word} {i : Instr} (hdecode : decode w = .ok i)
    (hquiet : ¬ DisturbsBuffer s d st b (.write 0#11 w)) (h : exec i s = .next t) :
    t.convOperands? d st b tb = s.convOperands? d st b tb := by
  cases i with
  | setf => exact exec_setf_convOperands? h fun hd => hquiet ⟨rfl, _, hdecode, hd⟩
  | push => exact exec_push_convOperands? h fun hd => hquiet ⟨rfl, _, hdecode, hd⟩
  | stup => exact exec_stup_convOperands? h fun hd => hquiet ⟨rfl, _, hdecode, hd⟩
  | stdn => exact exec_stdn_convOperands? h fun hd => hquiet ⟨rfl, _, hdecode, hd⟩
  | ups => exact exec_ups_convOperands? h fun hd => hquiet ⟨rfl, _, hdecode, hd⟩
  | dns => exact exec_dns_convOperands? h fun hd => hquiet ⟨rfl, _, hdecode, hd⟩
  | proc =>
    obtain ⟨_, rfl⟩ | ⟨hbuilt, _⟩ := exec_proc_cases h
    · rfl
    · exact absurd ⟨rfl, _, hdecode, hbuilt⟩ hquiet
  | conv | shp | shinit =>
    exact State.convOperands?_of_forall₂ (exec_forall₂_stages Stage.SameConvOperands.refl h nofun
      fun g _ heq => Eq.subst heq (Stage.SameConvOperands.refl g))

/-- An event that does not disturb the buffer keeps the operands. -/
theorem serve_convOperands? {e : PortEvent} (hquiet : ¬ DisturbsBuffer s d st b e)
    (h : serve e s = .next t) : t.convOperands? d st b tb = s.convOperands? d st b tb := by
  cases e with
  | read a => cases h; rfl
  | reset => exact absurd trivial hquiet
  | write a v =>
    by_cases ha : a = cmdAddr
    · subst ha
      rw [serve_write_cmdAddr] at h
      obtain ⟨i, hdecode, hexec⟩ | ⟨_, _, rfl⟩ := runCommand_cases h
      · exact exec_convOperands? (s := { s with cmd := v }) hdecode hquiet hexec
      · rfl
    · rw [serve_write_of_ne ha] at h
      cases h
      exact State.convOperands?_of_stages_eq (s.hostWrite_stages a v)

theorem convOperands?_of_quietRun {es : List PortEvent} (h : QuietRun d st b es s t) :
    t.convOperands? d st b tb = s.convOperands? d st b tb := by
  induction es generalizing s with
  | nil => exact congrArg (State.convOperands? · d st b tb) h
  | cons e es ih =>
    obtain ⟨hquiet, u, hserve, hrest⟩ := h
    exact (ih hrest).trans (serve_convOperands? hquiet hserve)

end

end Machine

open Machine

/-- Settles O27: one replaced stage, whose one replaced buffer is rule R140's push. -/
theorem pushEffect : Obligations.PushEffect :=
  fun _ _ _ _ _ _ hg => exec_push_built hg

/-- Settles O33: the first `CONV` writes a register only and a quiet run keeps the operands, so the second
one reads what the first read. -/
theorem convRepeats : Obligations.ConvRepeats := by
  intro s s1 s2 s3 d st b tb vd vd2 between hfirst hfree hst hquiet hsecond
  obtain ⟨c, B, T, y, hop, hy, rfl⟩ := exec_conv_stayed hfirst hfree hst
  have hop2 : s2.convOperands? d st b tb = some (c, B, T) := (convOperands?_of_quietRun hquiet).trans hop
  rw [exec_conv_operands hop2 hy] at hsecond
  cases hsecond
  simp only [State.readV_writeV_same]

end Sys2Proof
end

section
/-! PROOFS. One stage on a run of calls: its buffers have taken the samples in order, so the even branch
going up is a pure delay and the two branches going down are the direct-form filter (rules R163, R164,
R168). -/

open Sys2Proof.Stated

namespace Sys2Proof

namespace Machine

/-! ### The window of a fresh buffer after n pushes -/

theorem reverse_map_range_getD (a : Nat → Word) (n k : Nat) :
    ((List.range n).map a).reverse.getD k 0#32 = if k < n then a (n - 1 - k) else 0#32 := by
  split
  · rw [List.getD_reverse k (by simpa), List.getD_eq_getElem _ _ (by simp; omega)]
    simp
  · exact List.getD_eq_default _ _ (by simpa using not_lt.mp ‹_›)

/-- Rule R144 for the samples a 0 .. a n: the one k pushes ago, or +0.0 from before the first. -/
theorem Ring.tap_fresh_pushAll_range {c k : Nat} (a : Nat → Word) (n : Nat) (hk : k < c) :
    ((Ring.fresh c).pushAll c ((List.range (n + 1)).map a)).tap c k =
      if k ≤ n then a (n - k) else 0#32 := by
  rw [windowIsNewestFirst c _ k hk, reverse_map_range_getD, Nat.add_sub_cancel]
  simp only [Nat.lt_succ_iff]

/-! ### The stage after n calls -/

theorem Stage.pushUp_append (g : Stage) (a b : List Word) (x : Word) :
    (g.pushUp a b).pushUp [x] [x] = g.pushUp (a ++ [x]) (b ++ [x]) := by
  simp only [Stage.pushUp, Ring.pushAll_append]

theorem Stage.pushDown_append (g : Stage) (a b : List Word) (x y : Word) :
    (g.pushDown a b).pushDown [x] [y] = g.pushDown (a ++ [x]) (b ++ [y]) := by
  simp only [Stage.pushDown, Ring.pushAll_append]

/-- Both U buffers take every input, and nothing else changes (rules R163, R165). -/
theorem Stage.eq_pushUp_of_upCalls {n : Nat} {H : Nat → Stage} {a o : Nat → Word}
    (h : ∀ j < n, StageUpCall (H j) (a j) (H (j + 1)) (o (2 * j)) (o (2 * j + 1))) :
    H n = (H 0).pushUp ((List.range n).map a) ((List.range n).map a) := by
  induction n with
  | zero => rfl
  | succ n ih =>
    obtain ⟨_, hpush, _⟩ := h n n.lt_succ_self
    calc H (n + 1) = (H n).pushUp [a n] [a n] := hpush
      _ = _ := by
        rw [ih fun j hj => h j (hj.trans n.lt_succ_self), Stage.pushUp_append, List.range_succ,
          List.map_append, List.map_singleton]

/-- The even D buffer takes the first sample of each pair, the odd one the second, and nothing else
changes (rules R164, R165). -/
theorem Stage.eq_pushDown_of_downCalls {n : Nat} {H : Nat → Stage} {a y : Nat → Word}
    (h : ∀ j < n, StageDownCall (H j) (a (2 * j)) (a (2 * j + 1)) (H (j + 1)) (y j)) :
    H n = (H 0).pushDown ((List.range n).map fun j => a (2 * j))
      ((List.range n).map fun j => a (2 * j + 1)) := by
  induction n with
  | zero => rfl
  | succ n ih =>
    obtain ⟨_, _, hpush, _⟩ := h n n.lt_succ_self
    calc H (n + 1) = (H n).pushDown [a (2 * n)] [a (2 * n + 1)] := hpush
      _ = _ := by
        rw [ih fun j hj => h j (hj.trans n.lt_succ_self), Stage.pushDown_append, List.range_succ,
          List.map_append, List.map_append, List.map_singleton, List.map_singleton]

/-- The even output of call n is tap K of what the even buffer then holds (rule R163). -/
theorem Stage.evenOutput_of_upCalls {n m : Nat} {H : Nat → Stage} {a o : Nat → Word}
    (h : ∀ j < m, StageUpCall (H j) (a j) (H (j + 1)) (o (2 * j)) (o (2 * j + 1))) (hn : n < m) :
    o (2 * n) = ((H 0).upE.pushAll (H 0).c ((List.range (n + 1)).map a)).tap (H 0).c (H 0).k := by
  obtain ⟨_, _, ho, _⟩ := h n hn
  have hbefore := Stage.eq_pushUp_of_upCalls fun j hj => h j (hj.trans hn)
  have hafter := Stage.eq_pushUp_of_upCalls fun j (hj : j < n + 1) => h j (by omega)
  rw [ho, hafter, hbefore]
  rfl

/-! ### The two branches of a filter -/

/-- A sum over an odd number of indices: the odd ones, then the even ones. -/
theorem sum_odd_add_sum_even (f : Nat → Int) (m : Nat) :
    (∑ k ∈ Finset.range m, f (2 * k + 1)) + ∑ k ∈ Finset.range (m + 1), f (2 * k) =
      ∑ i ∈ Finset.range (2 * m + 1), f i := by
  induction m with
  | zero => simp
  | succ m ih =>
    rw [Nat.mul_succ, Finset.sum_range_succ f, Finset.sum_range_succ f, ← ih,
      Finset.sum_range_succ (fun k => f (2 * k + 1)),
      Finset.sum_range_succ (fun k => f (2 * k)) (m + 1), Nat.mul_succ]
    ring

/-- The even branch reads the odd taps' samples of the stream (rules R161, R168). -/
theorem units_evenWindow (v : Nat → Word) (n k : Nat) :
    units (if k ≤ n then v (2 * (n - k)) else 0#32) =
      if 2 * k + 1 ≤ 2 * n + 1 then units (v (2 * n + 1 - (2 * k + 1))) else 0 := by
  by_cases hk : k ≤ n
  · have hindex : 2 * n + 1 - (2 * k + 1) = 2 * (n - k) := by omega
    rw [if_pos hk, if_pos (by omega), hindex]
  · rw [if_neg hk, if_neg (by omega)]
    rfl

/-- The odd branch reads the even taps' samples of the stream (rules R161, R168). -/
theorem units_oddWindow (v : Nat → Word) (n k : Nat) :
    units (if k ≤ n then v (2 * (n - k) + 1) else 0#32) =
      if 2 * k ≤ 2 * n + 1 then units (v (2 * n + 1 - 2 * k)) else 0 := by
  by_cases hk : k ≤ n
  · have hindex : 2 * n + 1 - 2 * k = 2 * (n - k) + 1 := by omega
    rw [if_pos hk, if_pos (by omega), hindex]
  · rw [if_neg hk, if_neg (by omega)]
    rfl

/-- Element k of a tap array that `SETF` splits off its parent (rule R161). -/
theorem getD_map_range {h : Nat → Word} {k m : Nat} (hk : k < m) :
    ((List.range m).map h).getD k 0#32 = h k := by
  rw [List.getD_eq_getElem _ _ (by simpa)]
  simp

end Machine

open Machine

/-- Settles O35: the output is tap K of a fresh buffer that has taken the inputs 0 .. n. -/
theorem stupEvenBranchDelays : Obligations.StupEvenBranchDelays := by
  intro g g' xs out n hfresh hk h hn
  have hinputs : xs = (List.range xs.length).map (xs.getD · 0#32) :=
    List.ext_getElem (by simp) fun i hi _ => by simp [hi]
  generalize hlen : xs.length = m at hinputs hn
  generalize xs.getD = a at hinputs ⊢
  subst hinputs
  obtain ⟨H, o, rfl, hcalls⟩ := Stage.exists_upCalls h
  obtain ⟨_, rfl⟩ : H m = g' ∧ (List.range (2 * m)).map o = out := by
    simpa only [Stage.upEach?_of_calls hcalls, Option.some.injEq, Prod.mk.injEq] using h
  have hout : ((List.range (2 * m)).map o)[2 * n]? = some (o (2 * n)) := by
    simp only [List.getElem?_map, List.getElem?_range (show 2 * n < 2 * m by omega), Option.map_some]
  rw [hout, Stage.evenOutput_of_upCalls hcalls hn, hfresh, Ring.tap_fresh_pushAll_range _ n hk]
  simp only [← not_lt, ite_not]

/-- Settles O37: each branch sum runs over the indices of one parity, and the two parities together are
all of them. -/
theorem stdnIsDirectForm : Obligations.StdnIsDirectForm := by
  intro g g' K n h v out hK hc hfreshE hfreshO hotaps hetaps hdown
  obtain ⟨H, y, rfl, hcalls⟩ := Stage.exists_downCalls hdown
  obtain ⟨rfl, _⟩ : H (n + 1) = g' ∧ (List.range (n + 1)).map y = out := by
    simpa only [Stage.downEach?_of_calls hcalls, Option.some.injEq, Prod.mk.injEq] using hdown
  have heven : ∀ k ∈ Finset.range (2 * K - 1),
      units ((H 0).etaps.getD k 0#32) * units ((H (n + 1)).dnE.tap (H 0).c k) =
        units (h (2 * k + 1)) *
          if 2 * k + 1 ≤ 2 * n + 1 then units (v (2 * n + 1 - (2 * k + 1))) else 0 := by
    intro k hk
    have hk := Finset.mem_range.mp hk
    rw [hetaps, getD_map_range hk, Stage.eq_pushDown_of_downCalls hcalls, Stage.pushDown_dnE, hfreshE,
      Ring.tap_fresh_pushAll_range _ n (by omega), units_evenWindow]
  have hodd : ∀ k ∈ Finset.range (2 * K),
      units ((H 0).otaps.getD k 0#32) * units ((H (n + 1)).dnO.tap (H 0).c k) =
        units (h (2 * k)) * if 2 * k ≤ 2 * n + 1 then units (v (2 * n + 1 - 2 * k)) else 0 := by
    intro k hk
    have hk := Finset.mem_range.mp hk
    rw [hotaps, getD_map_range hk, Stage.eq_pushDown_of_downCalls hcalls, Stage.pushDown_dnO, hfreshO,
      Ring.tap_fresh_pushAll_range _ n (by omega), units_oddWindow]
  have hlen : 4 * K - 1 = 2 * (2 * K - 1) + 1 := by omega
  have hotapsLen : 2 * K = 2 * K - 1 + 1 := by omega
  rw [Finset.sum_congr rfl heven, Finset.sum_congr rfl hodd, hlen, ← sum_odd_add_sum_even,
    ← hotapsLen]

end Sys2Proof
end

section
/-! PROOFS. `UPS` and `DNS` as their loops, and as the `STUP` and `STDN` commands they spell: the commands
run against a ledger of the loops' calls, whose run on each sequence is checked by evaluation (rules R163,
R164, R187, R188). -/

open Sys2Proof.Stated

namespace Sys2Proof

namespace Machine

/-! ### The ledger of a sequence of stage commands -/

/-- How far a sequence of stage commands has got in the loops of rules R187 and R188: how many calls each
stage has made, and which sample (level, index) a register is known to hold. -/
structure Ledger where
  calls : Nat → Nat
  holds : VReg → Option (Nat × Nat)

/-- The next call of stage i is made. -/
def Ledger.count (l : Ledger) (i : Nat) : Ledger :=
  { l with calls := Function.update l.calls i (l.calls i + 1) }

@[simp] theorem Ledger.calls_count (l : Ledger) (i : Nat) :
    (l.count i).calls = Function.update l.calls i (l.calls i + 1) := rfl

/-- Register r holds sample p. -/
def Ledger.record (l : Ledger) (r : VReg) (p : Nat × Nat) : Ledger :=
  { l with holds := Function.update l.holds r (some p) }

@[simp] theorem Ledger.holds_record (l : Ledger) (r : VReg) (p : Nat × Nat) :
    (l.record r p).holds = Function.update l.holds r (some p) := rfl

/-- `STUP` makes the next call of its stage's loop, if its source holds the sample that this call takes
(rules R166, R187). -/
def Ledger.stup? (S : Nat) (l : Ledger) : Instr → Option Ledger
  | .stup st vd va =>
    let i := st.toNat
    let j := l.calls i
    if i < S ∧ j < 2 ^ i ∧ l.holds va = some (i, j) then
      some (((l.count i).record vd (i + 1, 2 * j)).record (pairNext vd) (i + 1, 2 * j + 1))
    else none
  | _ => none

/-- `STDN` makes the next call of its stage's loop, if its sources hold the samples that this call takes
(rules R167, R188). -/
def Ledger.stdn? (S : Nat) (l : Ledger) : Instr → Option Ledger
  | .stdn st vd va =>
    let i := st.toNat
    let j := l.calls i
    if i < S ∧ j < 2 ^ i ∧ l.holds va = some (i + 1, 2 * j) ∧
        l.holds (pairNext va) = some (i + 1, 2 * j + 1) then
      some ((l.count i).record vd (i, j))
    else none
  | _ => none

/-- Every loop has made all its calls. -/
@[reducible] def Ledger.Complete (S : Nat) (l : Ledger) : Prop := ∀ i < S, l.calls i = 2 ^ i

/-! ### A state that the ledger describes -/

/-- The state is where the ledger says, in the loops whose stages are G and whose samples are L. -/
structure Ledger.Describes (l : Ledger) (S : Nat) (G : Nat → Nat → Stage) (L : Nat → Nat → Word)
    (s : State) : Prop where
  length_stages : s.stages.length = S
  stage : ∀ i < S, s.stages[i]? = some (G i (l.calls i))
  sample : ∀ r p, l.holds r = some p → s.readV r = L p.1 p.2

section
variable {l l' : Ledger} {S : Nat} {G : Nat → Nat → Stage} {L : Nat → Nat → Word} {s : State}
  {i : Instr} {gs : List Stage}

theorem Ledger.Describes.record (h : l.Describes S G L s) (r : VReg) (p : Nat × Nat) :
    (l.record r p).Describes S G L (s.writeV r (L p.1 p.2)) where
  length_stages := h.length_stages
  stage := h.stage
  sample q p' hq := by
    rw [State.readV_writeV]
    by_cases hqr : q = r
    · subst hqr
      simp only [Ledger.holds_record, Function.update_self, Option.some.injEq] at hq
      rw [if_pos rfl, hq]
    · simp only [Ledger.holds_record, Function.update_of_ne hqr] at hq
      rw [if_neg hqr, h.sample q p' hq]

theorem Ledger.Describes.count (h : l.Describes S G L s) (st : StageIx) :
    (l.count st.toNat).Describes S G L (s.setStage st (G st.toNat (l.calls st.toNat + 1))) where
  length_stages := by rw [State.setStage_stages, List.length_set, h.length_stages]
  stage i hi := by
    rw [State.setStage_stages]
    by_cases hist : st.toNat = i
    · subst hist
      rw [List.getElem?_set_self (h.length_stages.symm ▸ hi), Ledger.calls_count,
        Function.update_self]
    · rw [List.getElem?_set_ne hist, h.stage i hi, Ledger.calls_count,
        Function.update_of_ne (Ne.symm hist)]
  sample := h.sample

/-- The stages, once every loop is complete. -/
theorem Ledger.Describes.stages_of_complete (h : l.Describes S G L s) (hl : l.Complete S) :
    s.stages = (List.range S).map fun i => G i (2 ^ i) := by
  refine List.ext_getElem (by simp [h.length_stages]) fun i hi _ => ?_
  have hstage := h.stage i (h.length_stages ▸ hi)
  rw [List.getElem?_eq_getElem hi, hl i (h.length_stages ▸ hi)] at hstage
  simpa using hstage

/-! ### The commands follow the ledger -/

/-- A ledger's step is followed: the command completes in a state that the next ledger describes. -/
def Follows (next? : Ledger → Instr → Option Ledger) (S : Nat) (G : Nat → Nat → Stage)
    (L : Nat → Nat → Word) : Prop :=
  ∀ l l' i s, next? l i = some l' → l.Describes S G L s →
    ∃ t, exec i s = .next t ∧ l'.Describes S G L t

theorem follows_stup? (hloops : UpLoops gs 1 G L) : Follows (Ledger.stup? gs.length) gs.length G L := by
  intro l l' i s hnext h
  cases i with
  | stup st vd va =>
    simp only [Ledger.stup?, Option.ite_none_right_eq_some, Option.some.injEq] at hnext
    obtain ⟨⟨hst, hj, hva⟩, rfl⟩ := hnext
    have hcall := hloops _ hst _ (by rwa [one_mul])
    rw [← h.sample va _ hva] at hcall
    exact ⟨_, exec_stup_inside (h.stage _ hst) hcall,
      ((h.count st).record vd _).record (pairNext vd) _⟩
  | setf | shinit | push | conv | stdn | ups | dns | shp | proc => cases hnext

theorem follows_stdn? (hloops : DownLoops gs 1 G L) :
    Follows (Ledger.stdn? gs.length) gs.length G L := by
  intro l l' i s hnext h
  cases i with
  | stdn st vd va =>
    simp only [Ledger.stdn?, Option.ite_none_right_eq_some, Option.some.injEq] at hnext
    obtain ⟨⟨hst, hj, hva, hnextVa⟩, rfl⟩ := hnext
    have hcall := hloops _ hst _ (by rwa [one_mul])
    rw [← h.sample va _ hva, ← h.sample (pairNext va) _ hnextVa] at hcall
    exact ⟨_, exec_stdn_inside (h.stage _ hst) hcall, (h.count st).record vd _⟩
  | setf | shinit | push | conv | stup | ups | dns | shp | proc => cases hnext

/-- A sequence that the ledger runs through completes, in a state that the last ledger describes. -/
theorem runCommands_of_follows {next? : Ledger → Instr → Option Ledger}
    (hnext : Follows next? S G L) {is : List Instr} (h : is.foldlM next? l = some l') (hs : l.Describes S G L s) :
    ∃ t, runCommands is s = .next t ∧ l'.Describes S G L t := by
  induction is generalizing l s with
  | nil =>
    cases h
    exact ⟨s, rfl, hs⟩
  | cons i is ih =>
    rw [List.foldlM_cons, Option.bind_eq_bind, Option.bind_eq_some_iff] at h
    obtain ⟨l1, hfirst, hrest⟩ := h
    obtain ⟨t1, hexec, ht1⟩ := hnext _ _ _ _ hfirst hs
    simpa only [runCommands, hexec] using ih hrest ht1

end

/-! ### The two sequences -/

/-- Before the first call of rule R187: V8 holds X, sample 0 of level 0. -/
def upLedger : Ledger := Ledger.record ⟨fun _ => 0, fun _ => none⟩ 8#4 (0, 0)

/-- Before the first call of rule R188: V0 .. V[F-1] hold the frame, level S. -/
def downLedger (S : Nat) : Ledger where
  calls _ := 0
  holds r := if r.toNat < 2 ^ S then some (S, r.toNat) else none

/-- The `STUP` commands make every call of the loops and leave the last level in V0 .. V[F-1]. -/
theorem stupSequence_complete {S : Nat} (hpos : 1 ≤ S) (hle : S ≤ 3) : ∃ l,
    (stupSequence S).foldlM (Ledger.stup? S) upLedger = some l ∧ l.Complete S ∧
      ∀ r : VReg, r.toNat < 2 ^ S → l.holds r = some (S, r.toNat) := by
  interval_cases S <;> exact ⟨_, rfl, by decide, by decide⟩

/-- The `STDN` commands make every call of the loops and leave level 0 in the register they name. -/
theorem stdnSequence_complete {S : Nat} (hpos : 1 ≤ S) (hle : S ≤ 3) : ∃ l,
    (stdnSequence S).1.foldlM (Ledger.stdn? S) (downLedger S) = some l ∧ l.Complete S ∧
      l.holds (stdnSequence S).2 = some (0, 0) := by
  interval_cases S <;> exact ⟨_, rfl, by decide, by decide⟩

section
variable {s : State} {G : Nat → Nat → Stage} {L : Nat → Nat → Word}

theorem describes_upLedger (h : UpsCalls s.stages s.x G L) :
    upLedger.Describes s.stages.length G L (s.writeV 8#4 s.x) := by
  obtain ⟨hstart, hx, _⟩ := h
  have hbegin : Ledger.Describes ⟨fun _ => 0, fun _ => none⟩ s.stages.length G L s :=
    ⟨rfl, hstart, nofun⟩
  rw [← hx]
  exact hbegin.record 8#4 (0, 0)

theorem describes_downLedger (h : DnsCalls s.stages s.v.toList G L) :
    (downLedger s.stages.length).Describes s.stages.length G L s := by
  obtain ⟨hstart, hframe, _⟩ := h
  refine ⟨rfl, hstart, fun r p hr => ?_⟩
  simp only [downLedger, Option.ite_none_right_eq_some, Option.some.injEq] at hr
  obtain ⟨hlt, rfl⟩ := hr
  simpa [State.readV, Vector.getElem?_eq_getElem r.isLt] using hframe r.toNat hlt

/-! ### `UPS` and `DNS` as their loops -/

/-- A frame written to the registers, register by register (rule R187). -/
theorem writeFrame_map_range (v : Vector Word 16) (n : Nat) (f : Nat → Word) :
    writeFrame v ((List.range n).map f) =
      Vector.ofFn fun r : Fin 16 => if r.val < n then f r.val else v[r] := by
  refine Vector.ext fun i hi => ?_
  rw [writeFrame_getElem, Vector.getElem_ofFn]
  by_cases h : i < n
  · rw [List.getD_eq_getElem _ _ (by simpa), if_pos h, List.getElem_map, List.getElem_range]
  · rw [List.getD_eq_default _ _ (by simpa using not_lt.mp h), if_neg h]
    rfl

theorem exec_ups_of_upsCalls (hosr : s.osr = true) (h : UpsCalls s.stages s.x G L) :
    exec .ups s = .next { s with
      stages := (List.range s.stages.length).map fun i => G i (2 ^ i)
      v := Vector.ofFn fun r : Fin 16 =>
        if r.val < 2 ^ s.stages.length then L s.stages.length r.val else s.v[r] } := by
  rw [exec_ups_inside hosr (upChain?_of_upsCalls h), lastStages_one, writeFrame_map_range]

theorem exec_dns_of_dnsCalls (hosr : s.osr = true) (h : DnsCalls s.stages s.v.toList G L) :
    exec .dns s = .next { s with
      stages := (List.range s.stages.length).map fun i => G i (2 ^ i), y := L 0 0 } := by
  rw [exec_dns_inside hosr (downsample?_of_dnsCalls h), lastStages_one]

/-- A cascade down that answers for the whole frame of up to 16 samples gives one sample. -/
theorem exists_dnsCalls_of_downChain? {r : List Stage × List Word} (hle : s.stages.length ≤ 4)
    (h : downChain? s.stages (s.v.toList.take (2 ^ s.stages.length)) = some r) :
    ∃ G L, DnsCalls s.stages s.v.toList G L := by
  obtain ⟨gs, out⟩ := r
  have hfull : (s.v.toList.take (2 ^ s.stages.length)).length = 2 ^ s.stages.length :=
    s.frame_length _ (Nat.pow_le_pow_right (by decide) hle)
  obtain ⟨y, rfl⟩ : ∃ y, out = [y] := by
    rw [← List.length_eq_one_iff, downChain?_length h, hfull, Nat.div_self (by positivity)]
  exact exists_dnsCalls (downsample?_of_downChain? h)

end

end Machine

open Machine

/-- Settles O41: the loops are the cascade, and for S = 1, 2, 3 the commands make the calls of the loops,
as the ledger's run on the sequence shows. -/
theorem upsIsStupSequence : Obligations.UpsIsStupSequence := by
  refine ⟨fun s G L hosr h => exec_ups_of_upsCalls hosr h, fun s hosr hpos hle hinside => ?_⟩
  obtain ⟨r, hr⟩ := Option.isSome_iff_exists.mp hinside
  obtain ⟨G, L, hcalls⟩ := exists_upsCalls hr
  obtain ⟨l, hrun, hcomplete, hframe⟩ := stupSequence_complete hpos hle
  obtain ⟨_, _, hloops⟩ := (upsCalls_iff ..).mp hcalls
  obtain ⟨u, hu, hdescribes⟩ :=
    runCommands_of_follows (follows_stup? hloops) hrun (describes_upLedger hcalls)
  refine ⟨_, u, exec_ups_of_upsCalls hosr hcalls, hu, hdescribes.stages_of_complete hcomplete,
    fun r hlt => ?_⟩
  rw [hdescribes.sample r _ (hframe r hlt)]
  simp [State.readV, hlt]

/-- Settles O43: the loops are the cascade, and for S = 1, 2, 3 the commands make the calls of the loops,
as the ledger's run on the sequence shows. -/
theorem dnsIsStdnSequence : Obligations.DnsIsStdnSequence := by
  refine ⟨fun s G L hosr h => exec_dns_of_dnsCalls hosr h, fun s hosr hpos hle hinside => ?_⟩
  obtain ⟨r, hr⟩ := Option.isSome_iff_exists.mp hinside
  obtain ⟨G, L, hcalls⟩ := exists_dnsCalls_of_downChain? (by omega) hr
  obtain ⟨l, hrun, hcomplete, hlast⟩ := stdnSequence_complete hpos hle
  obtain ⟨_, _, hloops⟩ := (dnsCalls_iff ..).mp hcalls
  obtain ⟨u, hu, hdescribes⟩ :=
    runCommands_of_follows (follows_stdn? hloops) hrun (describes_downLedger hcalls)
  exact ⟨_, u, exec_dns_of_dnsCalls hosr hcalls, hu, hdescribes.stages_of_complete hcomplete,
    hdescribes.sample _ _ hlast⟩

end Sys2Proof
end

section
/-! PROOFS. The two constructors: the state that an accepted `SETF` builds from staging (rules R183 to
R185), and what neither of the two may touch (rules R181, R212, R283). -/

open Sys2Proof.Stated

namespace Sys2Proof

namespace Machine

/-! ### The chain that `SETF` builds, in the words of rules R183 and R184 -/

theorem exec_setf_of_accepted {s : State} {imm8 : Byte} {n : Nat} (h : AcceptedFactor s imm8 n) :
    exec (.setf imm8) s = .next (s.construct n) := by
  obtain ⟨hcount, hgood⟩ := (acceptedFactor_iff s imm8 n).mp h
  simp only [exec, execSetf, hcount, hgood]

/-- Stage j comes out of staging as rule R183 says. -/
theorem State.buildStage_ofNat (s : State) {j : Nat} (hj : j < 4) :
    s.buildStage (BitVec.ofNat 2 j) = builtStage s j := by
  have hst : (BitVec.ofNat 2 j).toNat = j := Nat.mod_eq_of_lt hj
  simp only [State.buildStage, builtStage, stagedK, toNat_tapLength s hj, hst, Ring.fresh]

theorem State.buildStages_eq (s : State) {n : Nat} (hn : n ≤ 4) :
    s.buildStages n = (List.range n).map (builtStage s) :=
  List.map_congr_left fun j hj => s.buildStage_ofNat (by have := List.mem_range.mp hj; omega)

/-- The recursion of `latOsOf` is the weighted sum of rule R184. -/
theorem latOsOf_map_range (f : Nat → Stage) (n : Nat) :
    latOsOf ((List.range n).map f) =
      ((List.range n).map fun j => (2 * (f j).k - 1) * 2 ^ (n - j)).sum := by
  induction n generalizing f with
  | zero => rfl
  | succ n ih =>
    rw [map_range_succ, map_range_succ, latOsOf, ih, List.sum_cons]
    simp only [List.length_map, List.length_range, Nat.sub_zero, Nat.add_sub_add_right]

/-- The group delay of a stage of good length N, 2K - 1 = (N - 1) / 2 (rules R131, R184). -/
theorem groupDelay_of_goodLength {s : State} {j : Nat} (h : ¬ BadLength (stagedLength s j)) :
    2 * (builtStage s j).k - 1 = (stagedLength s j - 1) / 2 := by
  show 2 * ((stagedLength s j + 1) / 4) - 1 = _
  unfold BadLength at h
  omega

theorem latOsOf_builtStages {s : State} {n : Nat} (h : ∀ j < n, ¬ BadLength (stagedLength s j)) :
    latOsOf ((List.range n).map (builtStage s)) = stagedLatOs s n := by
  rw [latOsOf_map_range, stagedLatOs]
  congr 1
  refine List.map_congr_left fun j hj => ?_
  rw [groupDelay_of_goodLength (h j (List.mem_range.mp hj))]

end Machine

open Machine

/-- Settles O39: the chain is `builtStage` of each stage, and `latOsOf` of that chain is rule R184's
sum. -/
theorem setfConstructs : Obligations.SetfConstructs := by
  intro s imm8 n hpos hle himm hgood
  rw [exec_setf_of_accepted ⟨hpos, hle, himm, hgood⟩]
  simp only [State.construct, s.buildStages_eq hle, latOsOf_builtStages hgood, latencyOf]

/-- Settles O53: each way that a constructor ends writes registers of its own component, or of the
errors. -/
theorem constructorsIndependent : Obligations.ConstructorsIndependent := by
  refine ⟨fun imm8 s t h => ?_, fun v s t h => ?_⟩
  · obtain ⟨_, rfl⟩ | ⟨n, _, ⟨st, _, rfl⟩ | ⟨_, rfl⟩⟩ := exec_setf_cases h
    · rfl
    · rfl
    · rfl
  · obtain ⟨_, rfl⟩ | ⟨_, rfl⟩ := exec_shinit_cases h
    · rfl
    · rfl

end Sys2Proof
end

section
/-! PROOFS. `PROC` as the sequence `UPS`, one `SHP` in place for each sample of the frame, `DNS` (rules
R230, R231): each command's state by name, then the words one after another. -/

open Sys2Proof.Stated

namespace Sys2Proof

namespace Machine

/-! ### Words one after another -/

section
variable {s t : State}

theorem runWords_cons {w : Word} (h : runCommand w s = .next t) (ws : List Word) :
    runWords (w :: ws) s = runWords ws t := by
  simp only [runWords, h]

theorem runWords_append {ws : List Word} (h : runWords ws s = .next t) (ws' : List Word) :
    runWords (ws ++ ws') s = runWords ws' t := by
  induction ws generalizing s with
  | nil => cases h; rfl
  | cons w ws ih =>
    obtain ⟨u, hu⟩ := runCommand_total w s
    rw [runWords_cons hu] at h
    rw [List.cons_append, runWords_cons hu, ih h]

theorem runWords_concat {ws : List Word} {w : Word} (h : runWords ws s = .next t) :
    runWords (ws ++ [w]) s = runCommand w t := by
  obtain ⟨u, hu⟩ := runCommand_total w t
  rw [runWords_append h, runWords_cons hu, hu]
  rfl

/-- A word written to CMD runs the command whose word it is (rules R91, R97). -/
theorem runCommand_of_encode_eq {w : Word} {i : Instr} (hword : encode i = w)
    (hwf : i.wellFormed = true) (s : State) : runCommand w s = exec i { s with cmd := w } :=
  runCommand_of_decode_ok ((decode_eq_ok_iff_encode_eq w i).mpr ⟨hword, hwf⟩) s

end

theorem encode_ups : encode .ups = 0x20000000#32 := rfl
theorem encode_dns : encode .dns = 0x21000000#32 := rfl
theorem encode_proc : encode .proc = 0x23000000#32 := rfl
theorem encode_shp_v0 : encode (.shp 0#4 0#4) = 0x22000000#32 := rfl

/-- The word of `SHP Vi, Vi` (rules R93, R97). -/
theorem encode_shp_in_place {i : Nat} (hi : i < 16) :
    encode (.shp (BitVec.ofNat 4 i) (BitVec.ofNat 4 i)) =
      BitVec.ofNat 32 (0x22000000 + 0x100 * i + i) := by
  interval_cases i <;> rfl

/-! ### The frame in the vector registers -/

theorem readV_ofNat (s : State) {i : Nat} (hi : i < 16) : s.readV (BitVec.ofNat 4 i) = s.v[i] := by
  simp [State.readV, Nat.mod_eq_of_lt hi]

theorem writeFrame_nil (v : Vector Word 16) : writeFrame v [] = v :=
  Vector.ext fun i hi => writeFrame_past v [] i hi (Nat.zero_le i)

/-- A second frame that is no shorter hides the first. -/
theorem writeFrame_writeFrame (v : Vector Word 16) {a b : List Word} (h : a.length ≤ b.length) :
    writeFrame (writeFrame v a) b = writeFrame v b := by
  refine Vector.ext fun i hi => ?_
  simp only [writeFrame_getElem]
  by_cases hb : i < b.length
  · simp only [List.getD_eq_getElem _ _ hb]
  · rw [List.getD_eq_default a _ (by omega)]

/-- The frame that stands in the registers after it is written is the frame written. -/
theorem State.frame_eq_of_writeFrame {s : State} {v : Vector Word 16} {vec : List Word} {n : Nat}
    (hv : s.v = writeFrame v vec) (hlen : vec.length = n) (hn : n ≤ 16) : s.frame n = vec := by
  subst hlen
  refine List.ext_getElem (s.frame_length _ hn) fun i hi hi' => ?_
  have hget := s.frame_getElem? vec.length i hn hi'
  rw [List.getElem?_eq_getElem hi, Option.some.injEq] at hget
  rw [hget]
  simp only [hv, writeFrame_getElem, List.getD_eq_getElem _ _ hi']

/-- Writing V[n] after the first n samples of a frame writes the first n + 1. -/
theorem set_writeFrame_map_range (v : Vector Word 16) (z : Nat → Word) {n : Nat} (hn : n < 16) :
    (writeFrame v ((List.range n).map z)).set n (z n) hn =
      writeFrame v ((List.range (n + 1)).map z) := by
  refine Vector.ext fun i hi => ?_
  rw [Vector.getElem_set, writeFrame_map_range, writeFrame_map_range, Vector.getElem_ofFn,
    Vector.getElem_ofFn]
  by_cases hin : n = i
  · subst hin
    rw [if_pos rfl, if_pos n.lt_succ_self]
  · have hiff : i < n ↔ i < n + 1 := by omega
    rw [if_neg hin]
    simp only [hiff]

/-! ### The state between two commands of the sequence -/

/-- The state with word `c` in CMD, stages `gs`, a frame in the vector registers and tracker `k`: all that
the commands before `DNS` change inside the domain. (Its lemmas unfold it first: `rfl` alone would compare
the two states register by register, the written frame among them.) -/
def State.pathTo (s : State) (c : Word) (gs : List Stage) (frame : List Word) (k : Tracker) : State :=
  { s with
    cmd := c, stages := gs, v := writeFrame s.v frame, xprev := k.xprev, adprev := k.adprev }

section
variable {s : State} {c : Word} {gs : List Stage} {frame : List Word} {k : Tracker}

@[simp] theorem State.pathTo_tracker : (s.pathTo c gs frame k).tracker = k := rfl
@[simp] theorem State.pathTo_osr : (s.pathTo c gs frame k).osr = s.osr := by
  simp only [State.pathTo]
@[simp] theorem State.pathTo_wsr : (s.pathTo c gs frame k).wsr = s.wsr := by
  simp only [State.pathTo]
@[simp] theorem State.pathTo_shape : (s.pathTo c gs frame k).shape = s.shape := by
  simp only [State.pathTo]
@[simp] theorem State.pathTo_epsa : (s.pathTo c gs frame k).epsa = s.epsa := by
  simp only [State.pathTo]
@[simp] theorem State.pathTo_stages : (s.pathTo c gs frame k).stages = gs := rfl
@[simp] theorem State.pathTo_v : (s.pathTo c gs frame k).v = writeFrame s.v frame := rfl

theorem State.chainFactor_pathTo : (s.pathTo c gs frame k).chainFactor = 2 ^ gs.length := by
  rw [State.chainFactor, State.S, State.pathTo_stages]

/-- No frame, and the stages and the tracker of the state itself. -/
theorem State.pathTo_nil (s : State) : s.pathTo s.cmd s.stages [] s.tracker = s := by
  rw [State.pathTo, writeFrame_nil]
  rfl

theorem State.pathTo_pathTo (c' : Word) (gs' : List Stage) {frame' : List Word} (k' : Tracker)
    (h : frame.length ≤ frame'.length) :
    (s.pathTo c gs frame k).pathTo c' gs' frame' k' = s.pathTo c' gs' frame' k' := by
  simp only [State.pathTo, writeFrame_writeFrame s.v h]

theorem runCommand_pathTo {w : Word} {i : Instr} (hword : encode i = w) (hwf : i.wellFormed = true) :
    runCommand w (s.pathTo c gs frame k) = exec i (s.pathTo w gs frame k) := by
  simp only [runCommand_of_encode_eq hword hwf, State.pathTo]

theorem State.readV_pathTo_past {n : Nat} (hlen : frame.length = n) (hn : n < 16) :
    (s.pathTo c gs frame k).readV (BitVec.ofNat 4 n) = s.readV (BitVec.ofNat 4 n) := by
  rw [readV_ofNat _ hn, readV_ofNat _ hn]
  exact writeFrame_past s.v frame n hn hlen.le

theorem State.frame_pathTo {n : Nat} (hlen : frame.length = n) (hn : n ≤ 16) :
    (s.pathTo c gs frame k).frame n = frame :=
  State.frame_eq_of_writeFrame State.pathTo_v hlen hn

/-! ### The waveshaper, one `SHP` a sample -/

/-- One `SHP` more: V[n] is shaped after the first n samples are. -/
theorem runCommand_shp_pathTo {n : Nat} {k' : Tracker} {z : Nat → Word} (hn : n < 16)
    (hwsr : s.wsr = true)
    (hcall : AdaaCall s.shape s.epsa k (s.readV (BitVec.ofNat 4 n)) k' (z n)) :
    ∃ c', runCommand (encode (.shp (BitVec.ofNat 4 n) (BitVec.ofNat 4 n)))
        (s.pathTo c gs ((List.range n).map z) k) =
      .next (s.pathTo c' gs ((List.range (n + 1)).map z) k') := by
  have hreg : (BitVec.ofNat 4 n).toNat = n := Nat.mod_eq_of_lt hn
  have hread : ∀ w, (s.pathTo w gs ((List.range n).map z) k).readV (BitVec.ofNat 4 n) =
      s.readV (BitVec.ofNat 4 n) := fun w => State.readV_pathTo_past (by simp) hn
  refine ⟨encode (.shp (BitVec.ofNat 4 n) (BitVec.ofNat 4 n)), ?_⟩
  rw [runCommand_pathTo rfl rfl, exec_shp_inside (k := k') (y := z n) (State.pathTo_wsr.trans hwsr)
    (by simpa only [hread, State.pathTo_shape, State.pathTo_epsa, State.pathTo_tracker] using hcall)]
  simp only [State.writeV, hreg, State.pathTo, set_writeFrame_map_range s.v z hn]

/-- `SHP V0, V0` up to `SHP V(n-1), V(n-1)` shape the frame of n samples in place (rules R213, R231). -/
theorem exists_runWords_shp {n : Nat} (hn : n ≤ 16) (hwsr : s.wsr = true)
    (h : shapeFrame? s.shape s.epsa s.tracker (s.frame n) = some (k, frame)) :
    ∃ c, runWords ((List.range n).map fun i =>
        encode (.shp (BitVec.ofNat 4 i) (BitVec.ofNat 4 i))) s =
      .next (s.pathTo c s.stages frame k) := by
  have hread : s.frame n = (List.range n).map fun i => s.readV (BitVec.ofNat 4 i) :=
    take_eq_map_range fun i hi => by
      rw [readV_ofNat s (hi.trans_le hn)]
      exact Vector.getElem?_toList.trans (Vector.getElem?_eq_getElem _)
  obtain ⟨t, z, hstart, hcalls⟩ := exists_adaaCalls (hread ▸ h)
  obtain ⟨rfl, rfl⟩ : t n = k ∧ (List.range n).map z = frame := by
    simpa only [hread, ← hstart, shapeFrame?_of_calls hcalls, Option.some.injEq, Prod.mk.injEq]
      using h
  clear h hread
  induction n with
  | zero => exact ⟨s.cmd, by rw [hstart]; exact congrArg _ s.pathTo_nil.symm⟩
  | succ n ih =>
    obtain ⟨c, hrun⟩ := ih (by omega) fun j hj => hcalls j (by omega)
    obtain ⟨c', hlast⟩ := runCommand_shp_pathTo hn hwsr (hcalls n n.lt_succ_self)
    exact ⟨c', by rw [List.range_succ, List.map_append, List.map_singleton, runWords_concat hrun,
      hlast, List.range_succ]⟩

/-! ### The whole sequence -/

/-- The sequence of rule R231 after `UPS`, F being the factor of the chain. -/
theorem runWords_shp_dns {F : Nat} {y : Word} (hF : 2 ^ s.stages.length = F) (hle : F ≤ 16)
    (hosr : s.osr = true) (hwsr : s.wsr = true)
    (hshape : shapeFrame? s.shape s.epsa s.tracker (s.frame F) = some (k, frame))
    (hdown : downsample? s.stages frame = some (gs, y)) :
    runWords (((List.range F).map fun i =>
        encode (.shp (BitVec.ofNat 4 i) (BitVec.ofNat 4 i))) ++ [0x21000000#32]) s =
      .next { s.pathTo 0x21000000#32 gs frame k with y := y } := by
  obtain ⟨c, hshp⟩ := exists_runWords_shp hle hwsr hshape
  have hlen : frame.length = F := (shapeFrame?_length hshape).trans (s.frame_length F hle)
  rw [runWords_concat hshp, runCommand_pathTo encode_dns rfl]
  have hframe : (s.pathTo 0x21000000#32 s.stages frame k).frame
      (s.pathTo 0x21000000#32 s.stages frame k).chainFactor = frame := by
    rw [State.chainFactor_pathTo, hF, State.frame_pathTo hlen hle]
  rw [exec_dns_inside (gs := gs) (y := y) (State.pathTo_osr.trans hosr)
    (by rw [hframe, State.pathTo_stages, hdown])]
  simp only [State.pathTo]

/-- What the sequence of rule R231 leaves when `PROC` is inside the domain. -/
theorem runWords_ups_shp_dns {r : ProcResult} (hle : 2 ^ s.stages.length ≤ 16) (hosr : s.osr = true)
    (hwsr : s.wsr = true) (hr : s.process? = some r) :
    runWords (0x20000000#32 ::
        ((List.range (2 ^ s.stages.length)).map fun i =>
          encode (.shp (BitVec.ofNat 4 i) (BitVec.ofNat 4 i))) ++ [0x21000000#32]) s =
      .next { s.pathTo 0x21000000#32 r.stages r.frame r.tracker with y := r.y } := by
  obtain ⟨up, vec, hup, hshape, hdown⟩ := State.process?_eq_some hr
  obtain ⟨hvec, hwork⟩ := upChain?_spec hup
  rw [List.length_singleton, mul_one] at hvec
  have hups : runCommand 0x20000000#32 s = .next (s.pathTo 0x20000000#32 up vec s.tracker) :=
    (runCommand_of_encode_eq encode_ups rfl s).trans
      (exec_ups_inside (s := { s with cmd := 0x20000000#32 }) hosr hup)
  have hfactor : 2 ^ (s.pathTo 0x20000000#32 up vec s.tracker).stages.length =
      2 ^ s.stages.length := by rw [State.pathTo_stages, hwork.length_eq]
  have hframe : (s.pathTo 0x20000000#32 up vec s.tracker).frame (2 ^ s.stages.length) = vec :=
    State.frame_pathTo hvec hle
  rw [List.cons_append, runWords_cons hups,
    runWords_shp_dns hfactor hle (State.pathTo_osr.trans hosr) (State.pathTo_wsr.trans hwsr)
      (by rw [hframe, State.pathTo_shape, State.pathTo_epsa, State.pathTo_tracker, hshape])
      (by rw [State.pathTo_stages, hdown]),
    State.pathTo_pathTo _ _ _ (hvec.trans (State.process?_frame_length hr).symm).le]

/-! ### Without a waveshaper -/

/-- The rejection of a command that only lacks the waveshaper (rules R240, R243, R247). -/
theorem State.reject_waveshaper_missing (s : State) :
    s.reject (.notConfigured 0#2 false true) =
      { s with errflags := s.errflags ||| 0x00000010#32, lasterr := 0x00020004#32 } := rfl

theorem exec_shp_without_waveshaper {vd va : VReg} (hwsr : s.wsr = false) :
    exec (.shp vd va) s = .next { s with
      errflags := s.errflags ||| 0x00000010#32, lasterr := 0x00020004#32 } := by
  simp only [exec, execShp, hwsr, Bool.false_eq_true, if_false, rejected,
    State.reject_waveshaper_missing]

theorem exec_proc_without_waveshaper (hosr : s.osr = true) (hwsr : s.wsr = false) :
    exec .proc s = .next { s with
      errflags := s.errflags ||| 0x00000010#32, lasterr := 0x00020004#32 } := by
  simp only [exec, execProc, hosr, hwsr, Bool.and_false, Bool.false_eq_true, if_false, rejected,
    Bool.not_true, Bool.not_false, State.reject_waveshaper_missing]

/-- `UPS` on a built chain, inside the domain and outside it, does not touch the waveshaper's ready bit
or the error flags (rules R187, R254). -/
theorem exec_ups_built (hosr : s.osr = true) :
    ∃ t, exec .ups s = .next t ∧ t.wsr = s.wsr ∧ t.errflags = s.errflags := by
  obtain ⟨t, ht⟩ := exec_total .ups s
  obtain ⟨hnot, _⟩ | ⟨_, ⟨_, _, _, rfl⟩ | ⟨_, rfl⟩⟩ := exec_ups_cases ht
  · rw [hosr] at hnot
    cases hnot
  · exact ⟨_, ht, rfl, rfl⟩
  · exact ⟨_, ht, rfl, rfl⟩

end

end Machine

open Machine

/-- Settles O50: the words between `UPS` and `DNS` are those of `SHP` in place, and without a waveshaper
the first of them is rejected. -/
theorem procIsItsSequence : Obligations.ProcIsItsSequence := by
  refine ⟨fun s hs hosr hwsr hinside => ?_, fun s hosr hwsr => ?_⟩
  · obtain ⟨r, hr⟩ := Option.isSome_iff_exists.mp hinside
    have hF : 2 ^ s.stages.length ≤ 16 := Nat.pow_le_pow_right (by decide) hs.few_stages
    refine ⟨_, (runCommand_of_encode_eq encode_proc rfl s).trans
      (exec_proc_inside (s := { s with cmd := 0x23000000#32 }) hosr hwsr hr), ?_⟩
    rw [← List.map_congr_left fun i hi => encode_shp_in_place ((List.mem_range.mp hi).trans_le hF)]
    exact runWords_ups_shp_dns hF hosr hwsr hr
  · obtain ⟨t, hexec, hready, herr⟩ := exec_ups_built (s := { s with cmd := 0x20000000#32 }) hosr
    have hups := (runCommand_of_encode_eq encode_ups rfl s).trans hexec
    have hshp := (runCommand_of_encode_eq encode_shp_v0 rfl t).trans
      (exec_shp_without_waveshaper (hready.trans hwsr))
    have hproc := (runCommand_of_encode_eq encode_proc rfl s).trans
      (exec_proc_without_waveshaper hosr hwsr)
    exact ⟨hproc, t, hups, herr, by rw [runWords_cons hups, runWords_cons hshp, runWords, herr]⟩

end Sys2Proof
end

section
/-! PROOFS. The tracker of the waveshaper: what an accepted `SHINIT` leaves, and that ADPREV stays the
antiderivative at XPREV on every step inside the finite domain (rules R212, R213, R216). -/

open Sys2Proof.Stated

namespace Sys2Proof

namespace Machine

/-! ### Construction -/

/-- The thresholds that `SHINIT` takes (rule R211). -/
theorem badEpsilon_eq_false_iff (e : Word) :
    badEpsilon e = false ↔ isfinite e = true ∧ flt e 0#32 = false := by
  simp [badEpsilon]

theorem exec_shinit_of_legal {s : State} (h : badEpsilon s.eps = false) (v : Variant) :
    exec (.shinit v) s = .next { s with
      shape := v, epsa := s.eps, xprev := 0#32, adprev := shapeAD v 0#32, wsr := true } := by
  simp [exec, execShinit, h]

/-! ### A tracker on the antiderivative -/

/-- ADPREV is the antiderivative at XPREV (rule R216). -/
def Tracker.OnAntiderivative (v : Variant) (k : Tracker) : Prop := k.adprev = shapeAD v k.xprev

theorem State.trackerInv_iff (s : State) :
    s.TrackerInv ↔ (s.wsr = true → s.tracker.OnAntiderivative s.shape) := Iff.rfl

theorem eq_shapeAD_of_shapeADCall {v : Variant} {x ad : Word} (h : ShapeADCall v x ad) :
    ad = shapeAD v x := by
  obtain ⟨_, _, had⟩ := h
  cases v with
  | ident =>
    obtain ⟨_, had⟩ := had
    exact had
  | soft | tanh | diode => exact had

/-- One step writes XPREV and ADPREV together, on either path and whatever the tracker held (rule
R213). -/
theorem adaaStep?_onAntiderivative {v : Variant} {e x y : Word} {k k' : Tracker}
    (h : adaaStep? v e k x = some (k', y)) : k'.OnAntiderivative v := by
  obtain ⟨_, _, _, _, hxprev, had, _⟩ := (adaaStep?_iff ..).mp h
  rw [Tracker.OnAntiderivative, hxprev]
  exact eq_shapeAD_of_shapeADCall had

theorem shapeFrame?_onAntiderivative {v : Variant} {e : Word} {xs ys : List Word} {k k' : Tracker}
    (hk : k.OnAntiderivative v) (h : shapeFrame? v e k xs = some (k', ys)) :
    k'.OnAntiderivative v := by
  induction xs generalizing k ys with
  | nil =>
    cases h
    exact hk
  | cons x xs ih =>
    simp only [shapeFrame?, Option.bind_eq_bind, Option.bind_eq_some_iff] at h
    obtain ⟨⟨k1, y⟩, hstep, ⟨k2, tail⟩, hrest, he⟩ := h
    cases he
    exact ih (adaaStep?_onAntiderivative hstep) hrest

/-! ### What leaves the tracker alone -/

/-- The registers that the tracker invariant speaks of are the same. -/
def State.SameTracker (s t : State) : Prop :=
  t.wsr = s.wsr ∧ t.shape = s.shape ∧ t.tracker = s.tracker

/-- The three commands that write the tracker (rules R212, R214, R230). -/
def WritesTracker : Instr → Prop
  | .shinit _ | .shp _ _ | .proc => True
  | .setf _ | .push _ _ _ _ | .conv _ _ _ _ _ | .stup _ _ _ | .stdn _ _ _ | .ups | .dns => False

/-- No other command reaches it, accepted or rejected, inside the finite domain or outside it. -/
theorem exec_sameTracker {i : Instr} {s t : State} (h : exec i s = .next t)
    (hi : ¬ WritesTracker i) : s.SameTracker t := by
  cases i with
  | shinit | shp | proc => exact absurd trivial hi
  | setf =>
    obtain ⟨_, rfl⟩ | ⟨_, _, ⟨_, _, rfl⟩ | ⟨_, rfl⟩⟩ := exec_setf_cases h <;> exact ⟨rfl, rfl, rfl⟩
  | push =>
    obtain ⟨_, rfl⟩ | ⟨_, _, rfl⟩ := exec_push_cases h <;> exact ⟨rfl, rfl, rfl⟩
  | conv =>
    obtain ⟨_, rfl⟩ | ⟨_, _, ⟨_, _, rfl⟩ | ⟨_, rfl⟩⟩ := exec_conv_cases h <;> exact ⟨rfl, rfl, rfl⟩
  | stup =>
    obtain ⟨_, rfl⟩ | ⟨_, _, ⟨_, _, _, _, rfl⟩ | ⟨_, rfl⟩⟩ := exec_stup_cases h <;>
      exact ⟨rfl, rfl, rfl⟩
  | stdn =>
    obtain ⟨_, rfl⟩ | ⟨_, _, ⟨_, _, _, rfl⟩ | ⟨_, rfl⟩⟩ := exec_stdn_cases h <;>
      exact ⟨rfl, rfl, rfl⟩
  | ups =>
    obtain ⟨_, rfl⟩ | ⟨_, ⟨_, _, _, rfl⟩ | ⟨_, rfl⟩⟩ := exec_ups_cases h <;> exact ⟨rfl, rfl, rfl⟩
  | dns =>
    obtain ⟨_, rfl⟩ | ⟨_, ⟨_, _, _, rfl⟩ | ⟨_, rfl⟩⟩ := exec_dns_cases h <;> exact ⟨rfl, rfl, rfl⟩

/-- SHAPE, XPREV, ADPREV and STATUS are read-only to the host (rules R24, R31, R63). -/
theorem State.hostWrite_sameTracker (s : State) (a : PortAddr) (v : Word) :
    s.SameTracker (s.hostWrite a v) := by
  unfold State.hostWrite
  cases regAt a <;> exact ⟨rfl, rfl, rfl⟩

theorem State.TrackerInv.of_sameTracker {s t : State} (hs : s.TrackerInv) (h : s.SameTracker t) :
    t.TrackerInv := by
  obtain ⟨hwsr, hshape, htracker⟩ := h
  rw [State.trackerInv_iff, hwsr, hshape, htracker]
  exact hs

/-! ### The commands that write it -/

/-- `SHINIT` starts the tracker on the antiderivative (rule R212; log 17). -/
theorem State.TrackerInv.shinit {s t : State} {v : Variant} (hs : s.TrackerInv)
    (h : exec (.shinit v) s = .next t) : t.TrackerInv := by
  obtain ⟨_, rfl⟩ | ⟨_, rfl⟩ := exec_shinit_cases h
  · exact hs
  · exact fun _ => rfl

theorem State.TrackerInv.shp {s t : State} {vd va : VReg} (hs : s.TrackerInv)
    (h : exec (.shp vd va) s = .next t) (hstay : stayedInDomain s t) : t.TrackerInv := by
  obtain ⟨_, rfl⟩ | ⟨_, ⟨k, y, hstep, rfl⟩ | ⟨_, rfl⟩⟩ := exec_shp_cases h
  · exact hs
  · exact fun _ => adaaStep?_onAntiderivative hstep
  · exact absurd hstay (by simp only [stayedInDomain]; omega)

/-- Every sample of the frame takes the tracker from one point of the antiderivative to another (rule
R230). -/
theorem State.TrackerInv.proc {s t : State} (hs : s.TrackerInv) (h : exec .proc s = .next t)
    (hstay : stayedInDomain s t) : t.TrackerInv := by
  obtain ⟨_, rfl⟩ | ⟨⟨_, hwsr⟩, ⟨r, hr, rfl⟩ | ⟨_, rfl⟩⟩ := exec_proc_cases h
  · exact hs
  · obtain ⟨_, _, _, hframe, _⟩ := State.process?_eq_some hr
    have hstart : s.tracker.OnAntiderivative s.shape := s.trackerInv_iff.mp hs hwsr
    exact fun _ => shapeFrame?_onAntiderivative hstart hframe
  · exact absurd hstay (by simp only [stayedInDomain]; omega)

/-- Every command that stays in the finite domain keeps the tracker invariant. -/
theorem State.TrackerInv.exec {i : Instr} {s t : State} (hs : s.TrackerInv) (h : exec i s = .next t)
    (hstay : stayedInDomain s t) : t.TrackerInv := by
  cases i with
  | shinit => exact hs.shinit h
  | shp => exact hs.shp h hstay
  | proc => exact hs.proc h hstay
  | setf | push | conv | stup | stdn | ups | dns =>
    exact hs.of_sameTracker (exec_sameTracker h not_false)

theorem State.TrackerInv.runCommand {w : Word} {s t : State} (hs : s.TrackerInv)
    (h : runCommand w s = .next t) (hstay : stayedInDomain s t) : t.TrackerInv := by
  have hcmd : ({ s with cmd := w } : State).TrackerInv := hs
  obtain ⟨i, _, hexec⟩ | ⟨_, _, rfl⟩ := runCommand_cases h
  · exact hcmd.exec hexec hstay
  · exact hcmd

end Machine

open Machine

/-- Settles O18: of what a step can serve only three commands write the tracker, and inside the domain each
leaves it on the antiderivative; a reset leaves no waveshaper. -/
theorem trackerKeepsAntiderivative : Obligations.TrackerKeepsAntiderivative := by
  intro s t hs hstep hstay
  obtain ⟨_, rfl⟩ | ⟨e, rest, _, hserved⟩ := step_cases hstep
  · exact hs
  have hrest : ({ s with pending := rest } : State).TrackerInv := hs
  obtain ⟨a, _, rfl⟩ | ⟨w, _, hrun⟩ | ⟨a, v, _, _, rfl⟩ | ⟨_, rfl⟩ := hserved
  · exact hs
  · exact hrest.runCommand hrun hstay
  · exact hrest.of_sameTracker (State.hostWrite_sameTracker _ a v)
  · exact State.trackerInv_reset

/-- Settles O44: the two premises are the check of rule R211. -/
theorem shinitConstructs : Obligations.ShinitConstructs :=
  fun s v hfinite hnonneg =>
    exec_shinit_of_legal ((badEpsilon_eq_false_iff s.eps).mpr ⟨hfinite, hnonneg⟩) v

end Sys2Proof
end

section
/-! PROOFS. The causes of rejection (rules R240, R243, R245 to R249): when each is raised, and the whole word
that LASTERR then holds. -/

open Sys2Proof.Stated

namespace Sys2Proof

namespace Machine

/-! ### LASTERR as a number -/

theorem toNat_append_eq_add {m n : Nat} (a : BitVec m) (b : BitVec n) :
    (a ++ b).toNat = 2 ^ n * a.toNat + b.toNat := by
  rw [BitVec.toNat_append, Nat.shiftLeft_eq, mul_comm, Nat.two_pow_add_eq_or_of_lt b.isLt]

/-- LASTERR is INFO * 256 + CAUSE (rule R26). -/
theorem Cause.word_eq_ofNat {c : Cause} {n : Nat} (h : 0x100 * c.info.toNat + c.code = n) :
    c.word = BitVec.ofNat 32 n := by
  have hcode : (BitVec.ofNat 8 c.code).toNat = c.code :=
    Nat.mod_eq_of_lt (lt_of_le_of_lt c.code_le (by decide))
  have hword : c.word.toNat = n := by
    rw [Cause.word, toNat_append_eq_add, hcode]
    exact h
  rw [← hword, BitVec.ofNat_toNat, BitVec.setWidth_eq]

@[simp] theorem Cause.toNat_info_invalidFactor (imm8 : Byte) :
    (Cause.invalidFactor imm8).info.toNat = imm8.toNat := by
  simp only [Cause.info, toNat_append_eq_add, BitVec.toNat_ofNat]
  omega

@[simp] theorem Cause.toNat_info_invalidTapLength (st : StageIx) (n : BitVec 16) :
    (Cause.invalidTapLength st n).info.toNat = 0x100 * n.toNat + st.toNat := by
  simp only [Cause.info, toNat_append_eq_add, BitVec.toNat_ofNat]
  omega

@[simp] theorem Cause.toNat_info_notConfigured (st : StageIx) (os ws : Bool) :
    (Cause.notConfigured st os ws).info.toNat =
      0x200 * ws.toNat + 0x100 * os.toNat + st.toNat := by
  simp only [Cause.info, Machine.bit, toNat_append_eq_add, BitVec.toNat_ofNat, BitVec.toNat_ofBool]
  omega

/-- The state of a rejection, its flag and its word spelled as numbers (rule R243). -/
theorem rejected_eq {c : Cause} {flag : Word} {n : Nat} (hflag : c.flag = flag)
    (hword : 0x100 * c.info.toNat + c.code = n) (s : State) :
    rejected s c = .next { s with
      errflags := s.errflags ||| flag, lasterr := BitVec.ofNat 32 n } := by
  rw [rejected, State.reject_eq, hflag, Cause.word_eq_ofNat hword]

/-! ### NotConfigured (rule R247) -/

theorem State.stage?_eq_none {s : State} {st : StageIx} (h : s.stages.length ≤ st.toNat) :
    s.stage? st = none :=
  List.getElem?_eq_none h

/-- The four commands that name a stage are rejected alike when it does not exist. -/
theorem exec_of_missing_stage {s : State} {st : StageIx} (h : s.stage? st = none) (d : Dir)
    (b tb : Branch) (r q : VReg) :
    ∀ i ∈ [Instr.push d st b r, .conv d st b tb r, .stup st r q, .stdn st r q],
      exec i s = rejected s (.notConfigured st true false) := by
  intro i hi
  simp only [List.mem_cons, List.not_mem_nil, or_false] at hi
  obtain rfl | rfl | rfl | rfl := hi
  · simp only [exec, execPush, h]
  · simp only [exec, execConv, h]
  · simp only [exec, execStup, h]
  · simp only [exec, execStdn, h]

/-- The two cascades are rejected alike without an oversampler. -/
theorem exec_of_no_oversampler {s : State} (h : s.osr = false) :
    ∀ i ∈ [Instr.ups, .dns], exec i s = rejected s (.notConfigured 0#2 true false) := by
  intro i hi
  simp only [List.mem_cons, List.not_mem_nil, or_false] at hi
  obtain rfl | rfl := hi
  · simp only [exec, execUps, h, Bool.false_eq_true, if_false]
  · simp only [exec, execDns, h, Bool.false_eq_true, if_false]

theorem exec_proc_of_missing {s : State} (h : s.osr = false ∨ s.wsr = false) :
    exec .proc s = rejected s (.notConfigured 0#2 (!s.osr) (!s.wsr)) :=
  if_neg (by simpa [or_iff_not_imp_left] using h)

/-! ### The two causes of `SETF` (rules R245, R246) -/

theorem stageCount?_eq_none {imm8 : Byte} (h2 : imm8.toNat ≠ 2) (h4 : imm8.toNat ≠ 4)
    (h8 : imm8.toNat ≠ 8) (h16 : imm8.toNat ≠ 16) : stageCount? imm8 = none := by
  refine Option.eq_none_iff_forall_ne_some.mpr fun n hcount => ?_
  obtain ⟨hpos, hn, himm⟩ := (stageCount?_eq_some_iff imm8 n).mp hcount
  interval_cases n
  exacts [h2 himm, h4 himm, h8 himm, h16 himm]

/-- The stages are looked at from 0 upward. -/
theorem getElem_stageOrder {j : Nat} (hj : j < 4) : [0#2, 1#2, 2#2, 3#2][j] = BitVec.ofNat 2 j := by
  interval_cases j <;> rfl

/-- The test that the search for a bad stage makes of stage j. -/
theorem State.badStage_ofNat (s : State) (n : Nat) {j : Nat} (hj : j < 4) :
    (decide ((BitVec.ofNat 2 j).toNat < n) && badLength (s.tapLength (BitVec.ofNat 2 j)).toNat) = true ↔
      j < n ∧ BadLength (stagedLength s j) := by
  have hval : (BitVec.ofNat 2 j).toNat = j := Nat.mod_eq_of_lt hj
  rw [Bool.and_eq_true, decide_eq_true_eq, hval, toNat_tapLength s hj, ← Bool.not_eq_false,
    badLength_eq_false_iff, not_not]

/-- The lowest stage whose staged length fails is the one found (rules R182, R246). -/
theorem State.firstBadStage_eq_some {s : State} {n j : Nat} (hn : n ≤ 4) (hj : j < n)
    (hbad : BadLength (stagedLength s j)) (hlow : ∀ i < j, ¬ BadLength (stagedLength s i)) :
    s.firstBadStage n = some (BitVec.ofNat 2 j) := by
  have hj4 : j < 4 := by omega
  refine List.find?_eq_some_iff_getElem.mpr ⟨(s.badStage_ofNat n hj4).mpr ⟨hj, hbad⟩, j, hj4,
    getElem_stageOrder hj4, fun i hi => ?_⟩
  have hi4 : i < 4 := by omega
  rw [getElem_stageOrder hi4, Bool.not_eq_true', ← Bool.not_eq_true, s.badStage_ofNat n hi4]
  exact fun ⟨_, hbad⟩ => hlow i hi hbad

/-! ### InvalidEpsilon (rule R249) -/

theorem isfinite_eq_false_iff (a : Word) : isfinite a = false ↔ a.extractLsb' 23 8 = 0xFF#8 := by
  rw [isfinite, expField, bne_eq_false_iff_eq, ← BitVec.toNat_inj]
  rfl

/-- A value is less than zero when its sign is set and it is not -0.0. -/
theorem units_neg_iff (a : Word) : units a < 0 ↔ a.msb = true ∧ a ≠ 0x80000000#32 := by
  constructor
  · intro h
    refine ⟨?_, ?_⟩
    · by_contra hsign
      rw [units, if_neg hsign] at h
      omega
    · rintro rfl
      exact absurd h (by decide)
  · rintro ⟨hsign, hne⟩
    have hzero : units a ≠ 0 := fun h => hne (by rw [eq_pack_of_units_eq_zero h, hsign]; rfl)
    rw [units, if_pos hsign] at hzero ⊢
    omega

theorem badEpsilon_iff (e : Word) : badEpsilon e = true ↔
    e.extractLsb' 23 8 = 0xFF#8 ∨ (e.msb = true ∧ e ≠ 0x80000000#32) := by
  have hzero : units 0#32 = 0 := by decide
  rw [badEpsilon, Bool.or_eq_true, Bool.not_eq_true', isfinite_eq_false_iff, flt, decide_eq_true_eq,
    hzero, units_neg_iff]

theorem exec_shinit_of_illegal {s : State} (h : badEpsilon s.eps = true) (v : Variant) :
    exec (.shinit v) s = rejected s .invalidEpsilon :=
  if_pos h

end Machine

open Machine

/-- Settles O21: each of the four groups of commands is rejected with its own detail. -/
theorem notConfiguredReported : Obligations.NotConfiguredReported := by
  refine fun s => ⟨fun st d b tb r q hst i hi => ?_, fun hosr i hi => ?_, fun hwsr r q =>
    exec_shp_without_waveshaper hwsr, fun hmissing => ?_⟩
  · rw [exec_of_missing_stage (State.stage?_eq_none hst) d b tb r q i hi]
    refine rejected_eq rfl ?_ s
    rw [Cause.toNat_info_notConfigured, Cause.code, Bool.toNat_true, Bool.toNat_false]
    omega
  · rw [exec_of_no_oversampler hosr i hi]
    rfl
  · rw [exec_proc_of_missing hmissing]
    refine rejected_eq rfl ?_ s
    rw [Cause.toNat_info_notConfigured, Cause.code, BitVec.toNat_ofNat]
    omega

/-- Settles O23: the search finds the stage given, whose number and length make up INFO. -/
theorem invalidTapLengthReported : Obligations.InvalidTapLengthReported := by
  intro s imm8 n j hpos hn himm hj hbad hlow
  have hj4 : j < 4 := by omega
  have hcount : stageCount? imm8 = some n := (stageCount?_eq_some_iff imm8 n).mpr ⟨hpos, hn, himm⟩
  have hrun : exec (.setf imm8) s = rejected s
      (.invalidTapLength (BitVec.ofNat 2 j) (s.tapLength (BitVec.ofNat 2 j))) := by
    simp only [exec, execSetf, hcount, State.firstBadStage_eq_some hn hj hbad hlow]
  rw [hrun]
  refine rejected_eq rfl ?_ s
  have hval : (BitVec.ofNat 2 j).toNat = j := Nat.mod_eq_of_lt hj4
  rw [Cause.toNat_info_invalidTapLength, toNat_tapLength s hj4, hval, Cause.code]
  omega

/-- Settles O11: `serveNext` finds no event to serve. -/
theorem idleCoreHolds : Obligations.IdleCoreHolds := by
  intro s hidle
  simp only [step, serveNext, hidle]

/-- Settles O22: the factor is looked up before anything staged is read. -/
theorem invalidFactorReported : Obligations.InvalidFactorReported := by
  intro s imm8 h2 h4 h8 h16
  have hrun : exec (.setf imm8) s = rejected s (.invalidFactor imm8) := by
    simp only [exec, execSetf, stageCount?_eq_none h2 h4 h8 h16]
  rw [hrun]
  refine rejected_eq rfl ?_ s
  rw [Cause.toNat_info_invalidFactor, Cause.code]

/-- Settles O24: the premise of the first clause is the check of rule R211. -/
theorem invalidEpsilonReported : Obligations.InvalidEpsilonReported := by
  intro s v
  rw [← badEpsilon_iff]
  refine ⟨exec_shinit_of_illegal (v := v), fun hlegal => ?_⟩
  exact ⟨_, exec_shinit_of_legal (Bool.not_eq_true _ ▸ hlegal) v, rfl, rfl⟩

/-- Settles O58: each channel takes the pulse by itself. -/
theorem resetReachesEveryChannel : Obligations.ResetReachesEveryChannel := by
  refine fun D => ⟨D.resetInput, D.serveEvent_reset, List.length_map .., fun c s hc => ?_⟩
  rw [Device.resetInput_channels, List.getElem?_map, hc]
  rfl

end Sys2Proof
end

section
/-! PROOFS. Recovery (rules R253, R285): the nine accesses of `recovery` lead every state to one working
configuration, whatever is queued behind them. -/

open Sys2Proof.Stated

namespace Sys2Proof

namespace Machine

/-! ### Runs that do not depend on the queue -/

/-- The events, served one after another, take s to t, whatever is queued behind them. -/
def Leads (es : List PortEvent) (s t : State) : Prop :=
  ∀ rest, runSteps es.length { s with pending := es ++ rest } = .next { t with pending := rest }

theorem Leads.nil (s : State) : Leads [] s s := fun _ => rfl

theorem Leads.cons {e : PortEvent} {es : List PortEvent} {s t u : State}
    (h : ∀ rest, serve e { s with pending := rest } = .next { t with pending := rest })
    (hes : Leads es t u) : Leads (e :: es) s u := by
  intro rest
  have hstep : step { s with pending := e :: (es ++ rest) } =
      .next { t with pending := es ++ rest } := (step_of_pending rfl).trans (h (es ++ rest))
  simp only [List.cons_append, List.length_cons, runSteps, hstep]
  exact hes rest

/-- A write to a register other than CMD (rules R63, R66). -/
theorem serve_write_reg {r : Reg} {a : PortAddr} (hr : r.addr? = some a) (ha : a ≠ cmdAddr) (v : Word)
    (s : State) (rest : List PortEvent) :
    serve (.write a v) { s with pending := rest } = .next { s.writeReg v r with pending := rest } := by
  rw [serve_write_of_ne ha, State.hostWrite, regAt_of_addr? hr]
  cases r <;> rfl

/-- A command word written to CMD (rules R91, R97). -/
theorem serve_command {w : Word} {i : Instr} (hword : encode i = w) (hwf : i.wellFormed = true)
    (s : State) : serve (.write cmdAddr w) s = exec i { s with cmd := w } :=
  (serve_write_cmdAddr w s).trans (runCommand_of_encode_eq hword hwf s)

/-! ### The waveshaper built anew (rules R211, R212) -/

/-- What `SHINIT IDENT` leaves of a state whose staged threshold is +0.0. -/
def State.withIdent (s : State) : State :=
  { s with
    cmd := 0x02000003#32, shape := .ident, epsa := 0#32, xprev := 0#32, adprev := 0#32, wsr := true }

theorem shapeAD_ident_zero : shapeAD .ident 0#32 = 0#32 := by decide

theorem exec_shinit_ident {s : State} (heps : s.eps = 0#32) :
    exec (.shinit .ident) s = .next { s with
      shape := .ident, epsa := 0#32, xprev := 0#32, adprev := 0#32, wsr := true } := by
  have hlegal : badEpsilon s.eps = false := by rw [heps]; decide
  rw [exec_shinit_of_legal hlegal, heps, shapeAD_ident_zero]

theorem serve_shinit_ident {s : State} (heps : s.eps = 0#32) (rest : List PortEvent) :
    serve (.write cmdAddr 0x02000003#32) { s with pending := rest } =
      .next { s.withIdent with pending := rest } := by
  have hserve := serve_command (i := .shinit .ident) (w := 0x02000003#32) rfl rfl
    { s with pending := rest }
  exact hserve.trans (exec_shinit_ident heps)

/-! ### The oversampler built anew (rules R182 to R185) -/

/-- The taps of H3, the shortest legal array: 0.25, 0.5, 0.25. -/
def H3Staged (s : State) : Prop :=
  stagedLength s 0 = 3 ∧ s.tapWord 0 0 = 0x3E800000#32 ∧ s.tapWord 0 1 = 0x3F000000#32 ∧
    s.tapWord 0 2 = 0x3E800000#32

/-- The four accesses that stage H3 for stage 0. -/
def State.stageH3 (s : State) : State :=
  (((s.writeReg 3#32 (.taplen 0#2)).writeReg 0x3E800000#32 (.taps 0#2 0#8)).writeReg 0x3F000000#32
    (.taps 0#2 1#8)).writeReg 0x3E800000#32 (.taps 0#2 2#8)

theorem State.readReg_taps_writeReg_same (s : State) (st : StageIx) (i : Byte) (v : Word) :
    (s.writeReg v (.taps st i)).readReg (.taps st i) = v :=
  s.tapWordAt_setWord_same _ v

theorem State.h3Staged_stageH3 (s : State) : H3Staged s.stageH3 := by
  have htap (i : Byte) : s.stageH3.tapWord 0 i.toNat = s.stageH3.readReg (.taps 0#2 i) := rfl
  refine ⟨?_, (htap 0#8).trans ?_, (htap 1#8).trans ?_, (htap 2#8).trans ?_⟩
  · rw [← toNat_tapLength _ (by decide)]
    exact congrArg BitVec.toNat (Vector.getElem_set_self (by decide))
  · rw [State.stageH3, State.readReg_writeReg_other (by decide),
      State.readReg_writeReg_other (by decide), State.readReg_taps_writeReg_same]
  · rw [State.stageH3, State.readReg_writeReg_other (by decide), State.readReg_taps_writeReg_same]
  · rw [State.stageH3, State.readReg_taps_writeReg_same]

/-- The stage of H3: the odd-indexed tap on the even branch, the two others on the odd one, and four fresh
buffers (rules R161, R183). -/
def h3Stage : Stage where
  k := 1
  c := 2
  etaps := [0x3F000000#32]
  otaps := [0x3E800000#32, 0x3E800000#32]
  upE := Ring.fresh 2
  upO := Ring.fresh 2
  dnE := Ring.fresh 2
  dnO := Ring.fresh 2

theorem builtStage_of_h3Staged {s : State} (h : H3Staged s) : builtStage s 0 = h3Stage := by
  obtain ⟨hlen, htap0, htap1, htap2⟩ := h
  have hk : stagedK s 0 = 1 := by rw [stagedK, hlen]
  have hc : nextPow2 (2 * 1) = 2 := by decide
  have hetaps : (List.range 1).map (fun i => s.tapWord 0 (2 * i + 1)) = [s.tapWord 0 1] := rfl
  have hotaps : (List.range 2).map (fun i => s.tapWord 0 (2 * i)) = [s.tapWord 0 0, s.tapWord 0 2] := rfl
  simp only [builtStage, hk, hc, hetaps, hotaps, htap0, htap1, htap2]
  rfl

/-- What `SETF 2` leaves of a state that has H3 staged. -/
def State.withH3 (s : State) : State :=
  { s with
    cmd := 0x01000002#32, stages := [h3Stage], factor := 2#5, latOs := 2#32, latency := 1#32,
    osr := true }

theorem exec_setf_of_h3Staged {s : State} (h : H3Staged s) :
    exec (.setf 2#8) s = .next { s with
      stages := [h3Stage], factor := 2#5, latOs := 2#32, latency := 1#32, osr := true } := by
  have hstage := builtStage_of_h3Staged h
  obtain ⟨hlen, _⟩ := h
  have hgood : ∀ j < 1, ¬ BadLength (stagedLength s j) := by
    intro j hj
    obtain rfl : j = 0 := by omega
    rw [hlen, BadLength]
    decide
  have hdelay : stagedLatOs s 1 = 2 := by
    show (stagedLength s 0 - 1) / 2 * 2 = 2
    rw [hlen]
  have hchain : (List.range 1).map (builtStage s) = [builtStage s 0] := rfl
  rw [setfConstructs s 2#8 1 le_rfl (by decide) rfl hgood, hdelay, hchain, hstage]
  rfl

theorem serve_setf_of_h3Staged {s : State} (h : H3Staged s) (rest : List PortEvent) :
    serve (.write cmdAddr 0x01000002#32) { s with pending := rest } =
      .next { s.withH3 with pending := rest } := by
  have hserve := serve_command (i := .setf 2#8) (w := 0x01000002#32) rfl rfl { s with pending := rest }
  exact hserve.trans (exec_setf_of_h3Staged h)

/-! ### The nine accesses -/

/-- The working configuration that the nine accesses leave. -/
def State.recovered (s : State) : State :=
  ((s.writeReg 0#32 .eps).withIdent.stageH3.withH3.writeReg 0#32 .x).writeReg 0x0000003E#32 .errflags

/-- Of the nine accesses only the last reaches ERRFLAGS. -/
theorem State.recovered_errflags (s : State) :
    s.recovered.errflags = s.errflags &&& ~~~0x0000003E#32 := by
  simp only [State.recovered, State.writeReg, State.clearErrors_errflags, State.withH3, State.stageH3,
    State.withIdent]

theorem leads_recovery (s : State) : Leads recovery s s.recovered :=
  .cons (serve_write_reg (r := .eps) rfl (by decide) _ _) <|
  .cons (serve_shinit_ident rfl) <|
  .cons (serve_write_reg (r := .taplen 0#2) rfl (by decide) _ _) <|
  .cons (serve_write_reg (r := .taps 0#2 0#8) rfl (by decide) _ _) <|
  .cons (serve_write_reg (r := .taps 0#2 1#8) rfl (by decide) _ _) <|
  .cons (serve_write_reg (r := .taps 0#2 2#8) rfl (by decide) _ _) <|
  .cons (serve_setf_of_h3Staged (State.h3Staged_stageH3 _)) <|
  .cons (serve_write_reg (r := .x) rfl (by decide) _ _) <|
  .cons (serve_write_reg (r := .errflags) rfl (by decide) _ _) <|
  .nil _

/-! ### The next `PROC` -/

/-- H3 with `IDENT` passes silence on as silence, each of the three parts of `PROC` inside the domain (rules
R187, R213, R188, R230). -/
theorem State.process?_of_silence {s : State} (hstages : s.stages = [h3Stage]) (hx : s.x = 0#32)
    (hshape : s.shape = .ident) (hepsa : s.epsa = 0#32) (htracker : s.tracker = ⟨0#32, 0#32⟩) :
    ∃ r, s.process? = some r := by
  have hup : s.upsample? = some ([h3Stage.pushUp [0#32] [0#32]], [0#32, 0#32]) := by
    rw [State.upsample?, hstages, hx]
    decide
  have hshaped : shapeFrame? s.shape s.epsa s.tracker [0#32, 0#32] =
      some (⟨0#32, 0#32⟩, [0#32, 0#32]) := by
    rw [hshape, hepsa, htracker]
    decide
  have hdown : downsample? [h3Stage.pushUp [0#32] [0#32]] [0#32, 0#32] =
      some ([(h3Stage.pushUp [0#32] [0#32]).pushDown [0#32] [0#32]], 0#32) := by decide
  exact ⟨_, State.process?_of_parts hup hshaped hdown⟩

end Machine

open Machine

/-- Settles O59: the nine accesses lead to `State.recovered`, whose registers are those listed; the bits of
ERRFLAGS that the last access does not clear are res0. -/
theorem recoveryByAccesses : Obligations.RecoveryByAccesses := by
  intro s rest
  have hflags := s.recovered_errflags
  have hcleared : s.Inv → s.recovered.errflags = 0#32 := fun hinv => by
    rw [hflags, ← errflagsMask, hinv.errflags_res0]
  have hproc : ({ s.recovered with pending := rest } : State).process?.isSome = true :=
    Option.isSome_iff_exists.mpr (State.process?_of_silence rfl rfl rfl rfl rfl)
  exact ⟨_, leads_recovery s rest, rfl, rfl, rfl, rfl, rfl, rfl, rfl, rfl, rfl, rfl, rfl, rfl, hflags,
    hcleared, hproc⟩

end Sys2Proof
end

section
/-! PROOFS. The RESET input: one pulse is one step, and it leaves the reset state whatever stood before it
(O15; rules R270, R271). -/

namespace Sys2Proof

namespace Machine

@[simp] theorem serve_reset (s : State) : serve .reset s = .next s.resetInput := rfl

/-- A pulse of RESET is one step (rule R270). -/
theorem step_of_pending_reset {s : State} {rest : List PortEvent} (h : s.pending = .reset :: rest) :
    step s = .next ({ s with pending := rest } : State).resetInput :=
  (step_of_pending h).trans (serve_reset _)

/-- RESET keeps nothing of the state but the queue, the answers, the counters and the channel number, the
model's own (rule R271; log 9). -/
theorem State.resetInput_with_pending (s : State) (rest : List PortEvent) :
    ({ s with pending := rest } : State).resetInput =
      { State.reset with
        pending := rest, answers := s.answers, free := s.free, epoch := s.epoch + 1,
        channel := s.channel } := rfl

end Machine

open Machine

/-- Settles O15: the step is `State.resetInput` of what the event's removal leaves. -/
theorem resetInputRestoresReset : Obligations.ResetInputRestoresReset := by
  intro s rest hpending
  rw [step_of_pending_reset hpending, State.resetInput_with_pending]

end Sys2Proof
end
